-- ==== Sys2Proof/Word.lean ====
section
/-! DEFINITION. The widths of the block's values (30_encoding.md R71, R77; 00_scope.md R9). -/

namespace Sys2Proof

/-- A byte: 8 bits (R9). Also the width of an identifier field (R71). -/
abbrev Byte := BitVec 8

/-- A 16-bit operand or response value (R71, R77). -/
abbrev Half := BitVec 16

/-- The 64-bit command word (R70). -/
abbrev CmdWord := BitVec 64

/-- The 32-bit response word (R77). -/
abbrev RespWord := BitVec 32

end Sys2Proof
end

