-- ==== Sys2Proof/Config.lean ====
section
/-! DEFINITION. The parameters of the block (00_scope.md R7), the configuration the model resets with, and the
free value of an undefined read (10_state.md R36). -/

namespace Sys2Proof

/-- The context class of a port (R3, R207). -/
inductive Ctx where
  | isr
  | task
deriving DecidableEq, Repr

/-- The payload shape of a queue (R27). The shape NONE of an uncreated queue is `none : Option Shape`. -/
inductive Shape where
  | line
  | byte
deriving DecidableEq, Repr

/-- The content of ring-buffer storage after reset: the parameter STORAGE_RESET (R7, R35). -/
inductive StorageReset where
  | undef
  | zero
deriving DecidableEq, Repr

/-- The one producer port and the one consumer port of a buffer: PROD[b] and CONS[b] (R7, R105). -/
structure Binding where
  prod : Nat
  cons : Nat
deriving DecidableEq, Repr

/-- The parameters of R7. NB, NQ and NP are the lengths of `bindings`, `qshapes` and `portCtx`. -/
structure Config where
  /-- W, the width in bits of each cursor. -/
  w : Nat
  /-- PROD[b] and CONS[b], one entry per buffer. -/
  bindings : List Binding
  /-- QSHAPE[q], one entry per queue. -/
  qshapes : List Shape
  /-- QCAP, slots per queue. -/
  qcap : Nat
  /-- PORT_CTX[p], one entry per port. -/
  portCtx : List Ctx
  /-- LINE_TERM, the line-terminator byte. -/
  lineTerm : Byte
  /-- ATOMIC_MULTIBYTE (R54, R55). -/
  atomicMultibyte : Bool
  /-- STORAGE_RESET (R35). -/
  storageReset : StorageReset
  /-- TIMEOUT_TICKS, which no rule uses: the block has no time (R210, D44). -/
  timeoutTicks : Nat
deriving DecidableEq, Repr

/-- N, the capacity in bytes of each ring buffer. -/
def Config.n (c : Config) : Nat := 2 ^ c.w

/-- NB, the number of buffers. -/
def Config.nb (c : Config) : Nat := c.bindings.length

/-- NQ, the number of queues. -/
def Config.nq (c : Config) : Nat := c.qshapes.length

/-- NP, the number of ports. -/
def Config.np (c : Config) : Nat := c.portCtx.length

/-- The legal values of R7 and its constraints. -/
abbrev Config.Legal (c : Config) : Prop :=
  (1 ≤ c.w ∧ c.w ≤ 16) ∧
  (1 ≤ c.nb ∧ c.nb ≤ 256) ∧
  (1 ≤ c.nq ∧ c.nq ≤ 256) ∧
  (1 ≤ c.np ∧ c.np ≤ 256) ∧
  (1 ≤ c.qcap ∧ c.qcap ≤ 65535) ∧
  (∀ x ∈ c.bindings, x.prod < c.np ∧ x.cons < c.np) ∧
  1 ≤ c.timeoutTicks

/-- The configuration of State.reset: R7's value for every parameter that has one, and for the OPEN parameters the
values of the spec's test configuration TC (95_test_vectors.md §0). DESIGN CHOICE (log entry 1); unsafe for a claim
about State.reset alone. TIMEOUT_TICKS, which has no value anywhere and no use, is 1. -/
def Config.standard : Config where
  w := 8
  bindings := [⟨0, 1⟩, ⟨1, 0⟩]
  qshapes := [.line, .byte]
  qcap := 16
  portCtx := [.isr, .task]
  lineTerm := 0x0A
  atomicMultibyte := true
  storageReset := .undef
  timeoutTicks := 1

/-- The spec's test configuration TC (95_test_vectors.md §0): the standard one with W = 3, so N = 8. -/
def Config.tc : Config := { Config.standard with w := 3 }

/-- FREE VALUE: the byte that the k-th draw of the run returns (R36: "an arbitrary byte, chosen afresh at each read and
under no law"). It has no body, so nothing can be proved of its values (log entry 3). -/
opaque Config.drawByte : Nat → Byte

end Sys2Proof
end

