-- ==== Sys2Proof/Syntax.lean ====
section
/-! DEFINITION. The operations of the block, one constructor per row of spec/opcode_table.json (30_encoding.md R73),
and a request as a port hands it over (R70). -/

namespace Sys2Proof

/-- A decoded operation. Identifiers are the 8-bit fields ID and ID2 as given, not yet checked (R72). -/
inductive Instr where
  /-- RB.WB: write byte `v` to buffer `b` (R100). -/
  | rbWb (b v : Byte)
  /-- RB.RB: read one byte of buffer `b` (R101). -/
  | rbRb (b : Byte)
  /-- RB.WM: write the message `data` to buffer `b`; the length L is the payload's length (R76, R102). -/
  | rbWm (b : Byte) (data : List Byte)
  /-- RB.RM: read up to end marker `e`, maximum `m` or the capacity (R103). -/
  | rbRm (b : Byte) (e m : Half)
  /-- RB.EMPTY: test buffer `b` for emptiness (R104). -/
  | rbEmpty (b : Byte)
  /-- RB.PUSHL: store byte `v` in buffer `b`, snapshot to queue `q` on the terminator (R180). -/
  | rbPushl (b q v : Byte)
  /-- MQ.INIT: create every queue once (R143). -/
  | mqInit
  /-- MQ.SENDL.ISR: enqueue the line descriptor of buffer `b`, end position `e`, on queue `q` (R144). -/
  | mqSendlIsr (q b : Byte) (e : Half)
  /-- MQ.RECVL: receive a line from queue `q`, at most `m` bytes (R145). -/
  | mqRecvl (q : Byte) (m : Half)
  /-- MQ.SENDB: enqueue byte `v` on queue `q`, waiting while it is full (R146). -/
  | mqSendb (q v : Byte)
  /-- MQ.RECVB: dequeue a byte from queue `q`, waiting while it is empty (R147). -/
  | mqRecvb (q : Byte)
  /-- MQ.SENDB.ISR: enqueue byte `v` on queue `q` without waiting (R148). -/
  | mqSendbIsr (q v : Byte)
  /-- MQ.RECVB.ISR: dequeue a byte from queue `q` without waiting (R149). -/
  | mqRecvbIsr (q : Byte)
  /-- MQ.PEND.ISR: the number of entries of queue `q` (R150). -/
  | mqPendIsr (q : Byte)
  /-- SYS.STATUS: read STATUS (R190). -/
  | sysStatus
deriving DecidableEq, Repr

/-- What one port hands the block at one time: a command word and a payload (R70). The port is given by where the
request arrives and is not part of it. -/
structure Request where
  word : CmdWord
  payload : List Byte
deriving DecidableEq, Repr

end Sys2Proof
end

