-- ==== Sys2Proof/WellFormed.lean ====
section
/-! DEFINITION. The operations a command word can carry. Every field but the payload has the width of its field in
R71 by its type; the payload's length is the 16-bit operand A (30_encoding.md R76). -/

namespace Sys2Proof

/-- The operation fits its encoding: an RB.WM payload has a length that the 16-bit field A can hold (R71, R76). -/
def Instr.wellFormed : Instr → Bool
  | .rbWm _ data => decide (data.length < 65536)
  | _ => true

end Sys2Proof
end

