-- ==== Sys2Proof/Decode.lean ====
section
/-! DEFINITION. Decoding and encoding of requests (30_encoding.md R70 to R83): the opcode table of R74, the total decoder
of R79, the encoder, the byte-channel form of R78 and R80, and the pseudo-instructions of R82. -/

namespace Sys2Proof

/-- The name of a row of R73, without operands. -/
inductive Opcode where
  | rbWb | rbRb | rbWm | rbRm | rbEmpty | rbPushl
  | mqInit | mqSendlIsr | mqRecvl | mqSendb | mqRecvb | mqSendbIsr | mqRecvbIsr | mqPendIsr
  | sysStatus
deriving DecidableEq, Repr

/-- A row of R74: a word `w` selects `op` exactly when `w AND mask = pattern`. -/
structure OpcodeRow where
  op : Opcode
  pattern : CmdWord
  mask : CmdWord
deriving DecidableEq, Repr

/-- The table of R74. -/
def opcodeTable : List OpcodeRow := [
  ⟨.rbWb,       0x0000000000000001, 0xFFFFFF00FFFF00FF⟩,
  ⟨.rbRb,       0x0000000000000002, 0xFFFFFFFFFFFF00FF⟩,
  ⟨.rbWm,       0x0000000000000003, 0xFFFF0000FFFF00FF⟩,
  ⟨.rbRm,       0x0000000000000004, 0x00000000FFFF00FF⟩,
  ⟨.rbEmpty,    0x0000000000000005, 0xFFFFFFFFFFFF00FF⟩,
  ⟨.rbPushl,    0x0000000000000006, 0xFFFFFF00FF0000FF⟩,
  ⟨.mqInit,     0x0000000000000010, 0xFFFFFFFFFFFFFFFF⟩,
  ⟨.mqSendlIsr, 0x0000000000000011, 0xFFFF0000FF0000FF⟩,
  ⟨.mqRecvl,    0x0000000000000012, 0x0000FFFFFFFF00FF⟩,
  ⟨.mqSendb,    0x0000000000000013, 0xFFFFFF00FFFF00FF⟩,
  ⟨.mqRecvb,    0x0000000000000014, 0xFFFFFFFFFFFF00FF⟩,
  ⟨.mqSendbIsr, 0x0000000000000015, 0xFFFFFF00FFFF00FF⟩,
  ⟨.mqRecvbIsr, 0x0000000000000016, 0xFFFFFFFFFFFF00FF⟩,
  ⟨.mqPendIsr,  0x0000000000000017, 0xFFFFFFFFFFFF00FF⟩,
  ⟨.sysStatus,  0x0000000000000020, 0xFFFFFFFFFFFFFFFF⟩]

/-- Field OPC, bits 7:0 (R71). -/
def fieldOpc (w : CmdWord) : Byte := w.extractLsb' 0 8

/-- Field ID, bits 15:8 (R71). -/
def fieldId (w : CmdWord) : Byte := w.extractLsb' 8 8

/-- Field ID2, bits 23:16 (R71). -/
def fieldId2 (w : CmdWord) : Byte := w.extractLsb' 16 8

/-- Field A, bits 47:32 (R71). -/
def fieldA (w : CmdWord) : Half := w.extractLsb' 32 16

/-- The byte operand A[7:0], bits 39:32 (R71, R72). -/
def fieldV (w : CmdWord) : Byte := w.extractLsb' 32 8

/-- Field B, bits 63:48 (R71). -/
def fieldB (w : CmdWord) : Half := w.extractLsb' 48 16

/-- Why a request does not decode (R75, R76). Each raises the one fault ILLEGAL_OP; the block records no cause
(R202), so the name is the model's own (DESIGN CHOICE, log entry 16; safe). -/
inductive Illegal where
  /-- an OPC value that R73 does not list -/
  | reservedOpcode
  /-- a listed OPC with a must-be-zero field that is not zero -/
  | mustBeZero
  /-- a payload of another length than R76 requires -/
  | payloadLength
deriving DecidableEq, Repr

/-- The result of R79's decode. -/
inductive Decoded where
  | op (i : Instr)
  | illegal (why : Illegal)
deriving DecidableEq, Repr

/-- The payload length a request with this OPC and A has (R76, R80). -/
def payloadLength (w : CmdWord) : Nat :=
  if fieldOpc w = 0x03 then (fieldA w).toNat else 0

/-- The operands of a row's operation taken from the word and payload (R71 to R73). -/
def buildInstr (op : Opcode) (w : CmdWord) (d : List Byte) : Instr :=
  match op with
  | .rbWb => .rbWb (fieldId w) (fieldV w)
  | .rbRb => .rbRb (fieldId w)
  | .rbWm => .rbWm (fieldId w) d
  | .rbRm => .rbRm (fieldId w) (fieldA w) (fieldB w)
  | .rbEmpty => .rbEmpty (fieldId w)
  | .rbPushl => .rbPushl (fieldId w) (fieldId2 w) (fieldV w)
  | .mqInit => .mqInit
  | .mqSendlIsr => .mqSendlIsr (fieldId w) (fieldId2 w) (fieldA w)
  | .mqRecvl => .mqRecvl (fieldId w) (fieldB w)
  | .mqSendb => .mqSendb (fieldId w) (fieldV w)
  | .mqRecvb => .mqRecvb (fieldId w)
  | .mqSendbIsr => .mqSendbIsr (fieldId w) (fieldV w)
  | .mqRecvbIsr => .mqRecvbIsr (fieldId w)
  | .mqPendIsr => .mqPendIsr (fieldId w)
  | .sysStatus => .sysStatus

/-- The word selects the row (R74). -/
def OpcodeRow.selects (r : OpcodeRow) (w : CmdWord) : Bool := w &&& r.mask == r.pattern

/-- R79: decoding, total on any command word and payload. It looks at no port, no identifier range and no state. -/
def decode (w : CmdWord) (d : List Byte) : Decoded :=
  match opcodeTable.find? (fun r => r.selects w) with
  | none =>
    if opcodeTable.any (fun r => fieldOpc r.pattern == fieldOpc w) then .illegal .mustBeZero
    else .illegal .reservedOpcode
  | some r =>
    if d.length = payloadLength w then .op (buildInstr r.op w d) else .illegal .payloadLength

/-- A command word from its fields, RSV zero (R71). -/
def cmdWord (opc ident ident2 : Byte) (a b : Half) : CmdWord :=
  b ++ a ++ (0 : Byte) ++ ident2 ++ ident ++ opc

/-- The request that carries an operation: the word from the fields R73 names, every other field zero, and the
payload (R71, R73, R76). -/
def encode : Instr → Request
  | .rbWb b v => ⟨cmdWord 0x01 b 0 (v.setWidth 16) 0, []⟩
  | .rbRb b => ⟨cmdWord 0x02 b 0 0 0, []⟩
  | .rbWm b data => ⟨cmdWord 0x03 b 0 (BitVec.ofNat 16 data.length) 0, data⟩
  | .rbRm b e m => ⟨cmdWord 0x04 b 0 e m, []⟩
  | .rbEmpty b => ⟨cmdWord 0x05 b 0 0 0, []⟩
  | .rbPushl b q v => ⟨cmdWord 0x06 b q (v.setWidth 16) 0, []⟩
  | .mqInit => ⟨cmdWord 0x10 0 0 0 0, []⟩
  | .mqSendlIsr q b e => ⟨cmdWord 0x11 q b e 0, []⟩
  | .mqRecvl q m => ⟨cmdWord 0x12 q 0 0 m, []⟩
  | .mqSendb q v => ⟨cmdWord 0x13 q 0 (v.setWidth 16) 0, []⟩
  | .mqRecvb q => ⟨cmdWord 0x14 q 0 0 0, []⟩
  | .mqSendbIsr q v => ⟨cmdWord 0x15 q 0 (v.setWidth 16) 0, []⟩
  | .mqRecvbIsr q => ⟨cmdWord 0x16 q 0 0 0, []⟩
  | .mqPendIsr q => ⟨cmdWord 0x17 q 0 0 0, []⟩
  | .sysStatus => ⟨cmdWord 0x20 0 0 0 0, []⟩

/-- The row an operation belongs to (R73). -/
def Instr.opcode : Instr → Opcode
  | .rbWb _ _ => .rbWb
  | .rbRb _ => .rbRb
  | .rbWm _ _ => .rbWm
  | .rbRm _ _ _ => .rbRm
  | .rbEmpty _ => .rbEmpty
  | .rbPushl _ _ _ => .rbPushl
  | .mqInit => .mqInit
  | .mqSendlIsr _ _ _ => .mqSendlIsr
  | .mqRecvl _ _ => .mqRecvl
  | .mqSendb _ _ => .mqSendb
  | .mqRecvb _ => .mqRecvb
  | .mqSendbIsr _ _ => .mqSendbIsr
  | .mqRecvbIsr _ => .mqRecvbIsr
  | .mqPendIsr _ => .mqPendIsr
  | .sysStatus => .sysStatus

/-- The `k` bytes of a number, least significant first (R78). -/
def leBytes : Nat → Nat → List Byte
  | 0, _ => []
  | k + 1, x => BitVec.ofNat 8 x :: leBytes k (x / 256)

/-- The number a sequence of bytes stands for, least significant first (R78). -/
def fromLe : List Byte → Nat
  | [] => 0
  | b :: bs => b.toNat + 256 * fromLe bs

/-- A request as it crosses a byte channel: the word's eight bytes, then the payload (R78). -/
def Request.toBytes (r : Request) : List Byte :=
  leBytes 8 r.word.toNat ++ r.payload

/-- What a receiver on a byte channel takes as the next request, and the bytes after it: eight bytes of word, then as
many payload bytes as bytes 0 and 4 to 5 say (R80). `none` while the bytes are too few. -/
def Request.ofBytes (bs : List Byte) : Option (Request × List Byte) :=
  if bs.length < 8 then none
  else
    let w : CmdWord := BitVec.ofNat 64 (fromLe (bs.take 8))
    let rest := bs.drop 8
    if rest.length < payloadLength w then none
    else some (⟨w, rest.take (payloadLength w)⟩, rest.drop (payloadLength w))

/-- The request that the word of an opcode-table row stands for: `bits` numbers the bits of the command word and, above
bit 63, of the payload bytes in order; bits at or above `nbits` are zero (log entry 15). -/
def tableRequest (nbits bits : Nat) : Request :=
  let x := bits % 2 ^ nbits
  let w : CmdWord := BitVec.ofNat 64 x
  ⟨w, leBytes (payloadLength w) (x / 2 ^ 64)⟩

/-- What the decoder reads from an instruction whose bits are `w`, numbered as spec/opcode_table.json numbers them. -/
def decodeTableWord (nbits w : Nat) : Option Instr :=
  match decode (tableRequest nbits w).word (tableRequest nbits w).payload with
  | .op i => some i
  | .illegal _ => none

/-- Pseudo-instruction `rb.wstr b, "s"`: store the bytes of a string verbatim (R82). -/
def pseudoWstr (b : Byte) (s : List Byte) : Instr := .rbWm b s

/-- Pseudo-instruction `rb.rdn b, M`: read with no end-marker stop (R82). -/
def pseudoRdn (b : Byte) (m : Half) : Instr := .rbRm b 0xFFFF m

/-- Pseudo-instruction `nop`: a request with no effect on state (R82). -/
def pseudoNop : Instr := .sysStatus

end Sys2Proof
end

