-- ==== Sys2Proof/Machine/State.lean ====
section
/-! DEFINITION. The state of the block (10_state.md R20 to R31), the model's own fields beside it, and the state after
reset (R35). -/

namespace Sys2Proof.Machine

/-- Ring-buffer storage: the written cells as (index, byte) pairs in canonical form, indices strictly rising and no pair
equal to what an unlisted cell reads as (R24, R35; log entry 7). -/
abbrev Memory := List Host.Cell

/-- A ring buffer: its write cursor (R21), read cursor (R22) and storage (R24). -/
structure Buf where
  wc : Nat
  rc : Nat
  mem : Memory
deriving DecidableEq, Repr

/-- A queue entry (R27): a line descriptor or a raw byte. -/
inductive Entry where
  | line (b : Byte) (e : Half)
  | byte (v : Byte)
deriving DecidableEq, Repr

/-- A message queue: creation flag, payload shape (NONE is `none`) and entries, oldest first (R26). -/
structure Queue where
  created : Bool
  shape : Option Shape
  fifo : List Entry
deriving DecidableEq, Repr

/-- The progress of a drain (R55, R103): buffer, end marker, maximum, the count and bytes copied so far, and the read
cursor it started from (R31). -/
structure Copy where
  b : Byte
  e : Half
  m : Half
  count : Nat
  out : List Byte
  r0 : Nat
deriving DecidableEq, Repr

/-- An outstanding-request record (R31): the three requests that wait (a), and the three multi-byte operations in
progress when ATOMIC_MULTIBYTE = false (b). -/
inductive Pend where
  /-- MQ.RECVL waiting (R142, R145). -/
  | recvl (q : Byte) (m : Half)
  /-- MQ.SENDB waiting (R142, R146). -/
  | sendb (q v : Byte)
  /-- MQ.RECVB waiting (R142, R147). -/
  | recvb (q : Byte)
  /-- RB.WM in progress: payload, next index k, starting write cursor w0 (R55). -/
  | wm (b : Byte) (data : List Byte) (k w0 : Nat)
  /-- RB.RM in progress (R55). -/
  | rm (c : Copy)
  /-- The drain of MQ.RECVL on queue `q` in progress (R55). -/
  | drain (q : Byte) (c : Copy)
deriving DecidableEq, Repr

/-- The block's three faults (R202). They are answers to a request, not stops of the machine. -/
inductive FaultCode where
  | illegalOp
  | ctxViol
  | roleViol
deriving DecidableEq, Repr

/-- The causes of Fail (R201). -/
inductive Cause where
  | badBuf | badQueue | shape | tooLong | zeroCount | full | empty | timeout | doubleInit
deriving DecidableEq, Repr

/-- How a request ended (R200). The port sees only whether it is `ok`; the rest is the internal tag R201 allows. -/
inductive Ending where
  | ok
  | fail (c : Cause)
  | fault (f : FaultCode)
deriving DecidableEq, Repr

/-- A response: how the request ended, VALUE and the data bytes (R77). -/
structure Response where
  ending : Ending
  value : Half
  data : List Byte
deriving DecidableEq, Repr

/-- A request port: its outstanding-request record (R31) and, the model's own fields, the requests the agent behind it
has still to issue (R32, R34; log entry 2), the responses it has received, oldest first (R37; log entry 4), and whether the
request it issued last has no response so far, which the end of a run asks for (R247; log entry 21). -/
structure Port where
  pend : Option Pend
  todo : List Request
  resps : List Response
  unanswered : Bool
deriving DecidableEq, Repr

/-- A choice of the environment: which step comes next in the one total order (R54, R142, R209). -/
inductive Choice where
  /-- Port `p` issues its next request (R208). -/
  | issue (p : Nat)
  /-- The waiting request of port `p` completes (R142). -/
  | complete (p : Nat)
  /-- The waiting request of port `p` times out (R4, R142). -/
  | timeout (p : Nat)
  /-- The split operation of port `p` takes its next micro-step (R55). -/
  | advance (p : Nat)
  /-- The block is reset (R230). -/
  | reset
deriving DecidableEq, Repr

/-- The machine. `bufs`, `queues`, `status` and each port's `pend` are the state of R20; `cfg` is the configuration of R7,
which no step changes (log entry 1); the rest is the model's own (log entries 2 to 5, 21). -/
structure State where
  /-- The parameters of R7. -/
  cfg : Config
  /-- wc, rc and S, one entry per buffer (R21, R22, R24). -/
  bufs : List Buf
  /-- created, shape and fifo, one entry per queue (R26). -/
  queues : List Queue
  /-- STATUS (R29). -/
  status : BitVec 16
  /-- PEND (R31), with the agents' requests and responses, one entry per port. -/
  ports : List Port
  /-- The port whose request is being performed: `p` of R10 (log entry 5). -/
  cur : Nat
  /-- The environment's choices still to come, first first (log entry 2). -/
  sched : List Choice
  /-- How many draws have been taken (R36; log entry 3). -/
  draws : Nat
deriving DecidableEq, Repr

/-- Why the machine stops. -/
inductive Fault where
  /-- Raised by the completion bodies of MQ.RECVL, MQ.RECVB and MQ.RECVB.ISR when the head entry of the queue is not of
  the queue's shape. R27 excludes it, and State.Inv rules it out in every state a run reaches. Safe (log entry 10). -/
  | entryShape
deriving DecidableEq, Repr

/-- Why an instruction has no meaning. -/
inductive Refusal where
  /-- Raised by exec for an instruction without a meaning; no arm raises it. Safe. -/
  | notModelled (mnemonic : String)
deriving DecidableEq, Repr

/-- A buffer after reset: cursors 0, no cell written (R35). -/
def Buf.blank : Buf := ⟨0, 0, []⟩

/-- A queue after reset: not created, shape NONE, no entries (R35). -/
def Queue.blank : Queue := ⟨false, none, []⟩

/-- A port after reset: nothing outstanding (R35), and nothing to issue and nothing answered (log entries 2, 4, 21). -/
def Port.blank : Port := ⟨none, [], [], false⟩

/-- The state after reset of a block with the configuration `c` (R35), with no environment choices to come. -/
def State.resetOf (c : Config) : State where
  cfg := c
  bufs := List.replicate c.nb Buf.blank
  queues := List.replicate c.nq Queue.blank
  status := 0
  ports := List.replicate c.np Port.blank
  cur := 0
  sched := []
  draws := 0

/-- The machine right after reset, with the standard configuration (R35; log entry 1). -/
def State.reset : State := State.resetOf Config.standard

end Sys2Proof.Machine
end

