-- ==== Sys2Proof/Machine/Flags.lean ====
section
/-! DEFINITION. The status register's bits (10_state.md R29, R30), the fault codes (60_exceptions.md R202) and the
response word (30_encoding.md R77). The block has no other flags (R33). -/

namespace Sys2Proof.Machine

/-- STATUS bit 0, DBLINIT (R29). -/
def statusDblinit : BitVec 16 := 0x0001

/-- STATUS bits 15:4 are hardwired to 0; these are the others (R29). -/
def statusImplemented : BitVec 16 := 0x000F

/-- The number of a fault (R202, column Code), which is also its STATUS bit. -/
def FaultCode.code : FaultCode → Nat
  | .illegalOp => 1
  | .ctxViol => 2
  | .roleViol => 3

/-- The sticky STATUS bit of a fault: ILLEGAL, CTXV or ROLEV (R29, R202). -/
def FaultCode.statusBit : FaultCode → BitVec 16
  | .illegalOp => 0x0002
  | .ctxViol => 0x0004
  | .roleViol => 0x0008

/-- STATUS as SYS.STATUS reads it: bits 15:4 read as 0 (R29, R190; log entry 8). -/
def State.statusValue (s : State) : Half := s.status &&& statusImplemented

/-- Set sticky bits of STATUS (R30): no bit is ever cleared. -/
def State.setStatus (bits : BitVec 16) (s : State) : State := { s with status := s.status ||| bits }

/-- The success bit OK of a response (R33, R77). -/
def Response.ok (r : Response) : Bool := r.ending == .ok

/-- The response word: bit 0 OK, bits 15:1 zero, bits 31:16 VALUE (R77). -/
def Response.word (r : Response) : RespWord :=
  r.value ++ (0 : BitVec 15) ++ BitVec.ofBool r.ok

/-- A response as it crosses a byte channel (R78). -/
def Response.toBytes (r : Response) : List Byte := leBytes 4 r.word.toNat ++ r.data

/-- The response of an operation that counts: a count of 0 means failure (R102, R103, R145; D21). -/
def countResponse (count : Nat) (data : List Byte) : Response :=
  if count = 0 then ⟨.fail .zeroCount, 0, []⟩ else ⟨.ok, BitVec.ofNat 16 count, data⟩

end Sys2Proof.Machine
end

