-- ==== Sys2Proof/Machine/Operands.lean ====
section
/-! DEFINITION. The operands of a request and the checks on them (30_encoding.md R72): buffer and queue identifiers, the
ignored bytes, the producer, consumer and context of a port. -/

namespace Sys2Proof.Machine

/-- The set IGN of ignored bytes (R8; log entry 9). -/
def isIgnored (v : Byte) : Bool := v == 0x0A || v == 0x20 || v == 0x09 || v == 0x00

/-- A buffer identifier is valid when it is below NB (R72). -/
def State.bufValid (s : State) (b : Byte) : Bool := decide (b.toNat < s.cfg.nb)

/-- Port `p` is the producer PROD[b] (R105). -/
def State.isProd (s : State) (p : Nat) (b : Byte) : Bool :=
  (s.cfg.bindings[b.toNat]?).map Binding.prod == some p

/-- Port `p` is the consumer CONS[b] (R105). -/
def State.isCons (s : State) (p : Nat) (b : Byte) : Bool :=
  (s.cfg.bindings[b.toNat]?).map Binding.cons == some p

/-- Port `p` has the class ISR (R3, R207). -/
def State.isIsr (s : State) (p : Nat) : Bool := s.cfg.portCtx[p]? == some .isr

/-- Queue `q` of the state; an index outside the queues reads as a queue that is not created. -/
def State.queue (s : State) (q : Byte) : Queue := s.queues.getD q.toNat Queue.blank

/-- qlive(q): the queue exists and is created (R140). -/
def State.qlive (s : State) (q : Byte) : Bool := decide (q.toNat < s.cfg.nq) && (s.queue q).created

/-- The invalid-input checks of a queue operation that needs shape `sh`, in the pseudocode's order: `none` exactly when
qok(q, sh) holds, else the cause of the Fail (R140, R201). -/
def State.queueFault (s : State) (q : Byte) (sh : Shape) : Option Cause :=
  if !s.qlive q then some .badQueue
  else if (s.queue q).shape ≠ some sh then some .shape
  else none

/-- full(q) (R141). -/
def State.full (s : State) (q : Byte) : Bool := decide (s.cfg.qcap ≤ (s.queue q).fifo.length)

/-- nonempty(q) (R141). -/
def State.nonempty (s : State) (q : Byte) : Bool := decide (0 < (s.queue q).fifo.length)

/-- The loop test of R103, made before each copy: the count has reached neither the end marker, nor the maximum, nor
the capacity `n`. -/
def Copy.more (c : Copy) (n : Nat) : Bool :=
  decide (c.count ≠ c.e.toNat) && decide (c.count < c.m.toNat) && decide (c.count < n)

end Sys2Proof.Machine
end

