-- ==== Sys2Proof/Machine/Ops.lean ====
section
/-! DEFINITION. The named operations over storage, cursors, queues, ports and STATUS: the primitives of 00_scope.md R10,
the drain of R103, and the one operation by which a request ends in a fault (60_exceptions.md R202, R205: the block
takes no trap, so there is nothing to save and no return). -/

namespace Sys2Proof.Machine

/-- The outcome of performing a request. -/
abbrev Result := Host.Outcome State Fault Refusal

/-- What a cell that nothing has written reads as: UNDEF (`none`) or 0x00, as STORAGE_RESET says (R24, R35). -/
def State.unlisted (s : State) : Option Byte :=
  match s.cfg.storageReset with
  | .undef => none
  | .zero => some 0

/-- The content of the cell at an index: `none` is UNDEF. `d` is what an unlisted cell reads as. -/
def Memory.get (d : Option Byte) : Memory → Nat → Option Byte
  | [], _ => d
  | (k, v) :: rest, a => if a = k then some v else Memory.get d rest a

/-- Write a cell and keep the canonical form: writing what an unlisted cell reads as removes the pair. -/
def Memory.put (d : Option Byte) : Memory → Nat → Byte → Memory
  | [], a, v => if d = some v then [] else [(a, v)]
  | (k, u) :: rest, a, v =>
    if a < k then (if d = some v then (k, u) :: rest else (a, v) :: (k, u) :: rest)
    else if a = k then (if d = some v then rest else (a, v) :: rest)
    else (k, u) :: Memory.put d rest a v

/-- The canonical form: indices strictly rising, no pair equal to what an unlisted cell reads as. -/
def Memory.wf (d : Option Byte) : Memory → Bool
  | [] => true
  | (k, v) :: rest => decide (d ≠ some v) && rest.all (fun c => decide (k < c.1)) && Memory.wf d rest

/-- Buffer `b` of the state; an index outside the buffers reads as a blank buffer. -/
def State.buf (s : State) (b : Byte) : Buf := s.bufs.getD b.toNat Buf.blank

/-- Replace buffer `b`. -/
def State.setBuf (s : State) (b : Byte) (x : Buf) : State := { s with bufs := s.bufs.set b.toNat x }

/-- wc[b] (R21). -/
def State.wc (s : State) (b : Byte) : Nat := (s.buf b).wc

/-- rc[b] (R22). -/
def State.rc (s : State) (b : Byte) : Nat := (s.buf b).rc

/-- wc[b] <- v, reduced modulo N (R10, R23). -/
def State.setWc (s : State) (b : Byte) (v : Nat) : State :=
  s.setBuf b { s.buf b with wc := v % s.cfg.n }

/-- rc[b] <- v, reduced modulo N (R10, R23). -/
def State.setRc (s : State) (b : Byte) (v : Nat) : State :=
  s.setBuf b { s.buf b with rc := v % s.cfg.n }

/-- fill(b) = (wc[b] - rc[b]) mod N (R25). -/
def State.fill (s : State) (b : Byte) : Nat := (s.wc b + (s.cfg.n - s.rc b % s.cfg.n)) % s.cfg.n

/-- The content of the cell S[b][i mod N]; `none` is UNDEF (R24). -/
def State.cell (s : State) (b : Byte) (i : Nat) : Option Byte :=
  Memory.get s.unlisted (s.buf b).mem (i % s.cfg.n)

/-- MemWrite(b, i, v) (R10, R24). -/
def State.memWrite (s : State) (b : Byte) (i : Nat) (v : Byte) : State :=
  s.setBuf b { s.buf b with mem := Memory.put s.unlisted (s.buf b).mem (i % s.cfg.n) v }

/-- MemRead(b, i) (R10, R24): the byte of the cell, or the next draw when the cell holds UNDEF, which changes no cell
(R36). -/
def State.memRead (s : State) (b : Byte) (i : Nat) : Byte × State :=
  match s.cell b i with
  | some v => (v, s)
  | none => (Config.drawByte s.draws, { s with draws := s.draws + 1 })

/-- Replace queue `q`. -/
def State.setQueue (s : State) (q : Byte) (x : Queue) : State := { s with queues := s.queues.set q.toNat x }

/-- enqueue(q, x): append to the tail (R141). -/
def State.enqueue (s : State) (q : Byte) (x : Entry) : State :=
  s.setQueue q { s.queue q with fifo := (s.queue q).fifo ++ [x] }

/-- fifo[q] <- tail(fifo[q]) (R141). -/
def State.dropHead (s : State) (q : Byte) : State :=
  s.setQueue q { s.queue q with fifo := (s.queue q).fifo.tail }

/-- Port `p` of the state; an index outside the ports reads as a blank port. -/
def State.port (s : State) (p : Nat) : Port := s.ports.getD p Port.blank

/-- Replace port `p`. -/
def State.setPort (s : State) (p : Nat) (x : Port) : State := { s with ports := s.ports.set p x }

/-- PEND[p] (R31). -/
def State.pend (s : State) (p : Nat) : Option Pend := (s.port p).pend

/-- PEND[p] <- x (R31). -/
def State.setPend (s : State) (p : Nat) (x : Option Pend) : State :=
  s.setPort p { s.port p with pend := x }

/-- The responses port `p` has received, oldest first (R37). -/
def State.resps (s : State) (p : Nat) : List Response := (s.port p).resps

/-- Hand port `p` its response (R77), which answers the request it issued last (R208, R247; log entry 21). -/
def State.respond (s : State) (p : Nat) (r : Response) : State :=
  s.setPort p { s.port p with resps := (s.port p).resps ++ [r], unanswered := false }

/-- return Ok(value, data) (R10). -/
def State.ok (s : State) (p : Nat) (value : Half) (data : List Byte) : State :=
  s.respond p ⟨.ok, value, data⟩

/-- return Fail(value) (R10, R200, R201). -/
def State.fail (s : State) (p : Nat) (c : Cause) (value : Half) : State :=
  s.respond p ⟨.fail c, value, []⟩

/-- raise Fault(code): set the fault's sticky STATUS bit, change nothing else, respond OK=0, VALUE=0 with no data (R10,
R202). Every fault of every request ends here. -/
def State.raise (s : State) (p : Nat) (f : FaultCode) : State :=
  (s.setStatus f.statusBit).respond p ⟨.fault f, 0, []⟩

/-- The write part of RB.WB and RB.PUSHL: an ignored byte is accepted and not stored, any other goes to the cell at the
write cursor, which advances (R100, R107, R180). -/
def State.storeFiltered (s : State) (b v : Byte) : State :=
  if isIgnored v then s
  else (s.memWrite b (s.wc b) v).setWc b (s.wc b + 1)

/-- Store bytes in the cells from index `i` on, wrapping at N (R51, R52, R102). -/
def State.storeFrom (s : State) (b : Byte) (i : Nat) : List Byte → State
  | [] => s
  | v :: vs => (s.memWrite b i v).storeFrom b (i + 1) vs

/-- One copy of the loop of R103: read the cell at the read cursor, advance the cursor and the count. -/
def State.copyOne (s : State) (c : Copy) : State × Copy :=
  ((s.memRead c.b (s.rc c.b)).2.setRc c.b (s.rc c.b + 1),
    { c with count := c.count + 1, out := c.out ++ [(s.memRead c.b (s.rc c.b)).1] })

/-- The loop of R103. `fuel` bounds the copies; N is always enough, since the count stays below N. -/
def State.copyRun (s : State) (c : Copy) : Nat → State × Copy
  | 0 => (s, c)
  | fuel + 1 => if c.more s.cfg.n then (s.copyOne c).1.copyRun (s.copyOne c).2 fuel else (s, c)

/-- A drain that starts now at rc[b] (R55, R103). -/
def State.newCopy (s : State) (b : Byte) (e m : Half) : Copy := ⟨b, e, m, 0, [], s.rc b⟩

/-- The drain of RB.RM and MQ.RECVL for port `p`: run to its end and answer the count in this step, or, when
ATOMIC_MULTIBYTE = false, record it with `record` for its micro-steps (R54, R55, R103, R145). -/
def State.startDrain (s : State) (p : Nat) (record : Copy → Pend) (c : Copy) : State :=
  if s.cfg.atomicMultibyte then
    (s.copyRun c s.cfg.n).1.respond p (countResponse (s.copyRun c s.cfg.n).2.count (s.copyRun c s.cfg.n).2.out)
  else s.setPend p (some (record c))

end Sys2Proof.Machine
end

