-- ==== Sys2Proof/Machine/Control.lean ====
section
/-! DEFINITION. SYS.STATUS (43_control.md R190). -/

namespace Sys2Proof.Machine

/-- SYS.STATUS (R190): read STATUS; it clears no bit. -/
def execSysStatus (s : State) : Result := .next (s.ok s.cur s.statusValue [])

end Sys2Proof.Machine
end

