-- ==== Sys2Proof/Machine/RingBuffer.lean ====
section
/-! DEFINITION. The ring-buffer operations RB.WB, RB.RB, RB.WM, RB.RM and RB.EMPTY (40_ringbuffer.md R100 to R104), with
the order of their checks: identifier, role, the operation's own (R106). The issuing port is `cur`. -/

namespace Sys2Proof.Machine

/-- The identifier check and the producer's role check (R105, R106), before the body `k`. -/
def State.asProducer (s : State) (b : Byte) (k : State) : Result :=
  if !s.bufValid b then .next (s.fail s.cur .badBuf 0)
  else if !s.isProd s.cur b then .next (s.raise s.cur .roleViol)
  else .next k

/-- The identifier check and the consumer's role check (R105, R106), before the body `k`. -/
def State.asConsumer (s : State) (b : Byte) (k : State) : Result :=
  if !s.bufValid b then .next (s.fail s.cur .badBuf 0)
  else if !s.isCons s.cur b then .next (s.raise s.cur .roleViol)
  else .next k

/-- RB.WB (R100). -/
def execRbWb (b v : Byte) (s : State) : Result :=
  s.asProducer b ((s.storeFiltered b v).ok s.cur 1 [])

/-- RB.RB (R101): the read does not look at the write cursor. -/
def execRbRb (b : Byte) (s : State) : Result :=
  s.asConsumer b
    (((s.memRead b (s.rc b)).2.setRc b (s.rc b + 1)).ok s.cur ((s.memRead b (s.rc b)).1.setWidth 16) [])

/-- RB.WM (R102). When ATOMIC_MULTIBYTE = false an accepted message is recorded and stored by micro-steps (R55). -/
def execRbWm (b : Byte) (data : List Byte) (s : State) : Result :=
  s.asProducer b
    (if s.cfg.n - 1 ≤ data.length then s.fail s.cur .tooLong 0
     else if s.cfg.atomicMultibyte then
       ((s.storeFrom b (s.wc b) data).setWc b (s.wc b + data.length)).respond s.cur (countResponse data.length [])
     else s.setPend s.cur (some (.wm b data 0 (s.wc b))))

/-- RB.RM (R103). -/
def execRbRm (b : Byte) (e m : Half) (s : State) : Result :=
  s.asConsumer b (s.startDrain s.cur .rm (s.newCopy b e m))

/-- RB.EMPTY (R104): no role check; an invalid identifier reports "empty" with OK = 0. -/
def execRbEmpty (b : Byte) (s : State) : Result :=
  if !s.bufValid b then .next (s.fail s.cur .badBuf 1)
  else .next (s.ok s.cur (if s.wc b = s.rc b then 1 else 0) [])

end Sys2Proof.Machine
end

