-- ==== Sys2Proof/Machine/Snapshot.lean ====
section
/-! DEFINITION. The line cursor snapshot RB.PUSHL (42_line_snapshot.md R180, R181). -/

namespace Sys2Proof.Machine

/-- The terminator's part of RB.PUSHL, after the write: snapshot the write cursor and send it on queue `q`, or lose the
descriptor and keep the byte (R180). VALUE bit 0 = accepted, bit 1 = terminator, bit 2 = descriptor enqueued. -/
def State.sendSnapshot (s : State) (p : Nat) (b q : Byte) : State :=
  match s.queueFault q .line with
  | some c => s.fail p c 3
  | none =>
    if s.full q then s.fail p .full 3
    else (s.enqueue q (.line b (BitVec.ofNat 16 (s.wc b)))).ok p 7 []

/-- RB.PUSHL (R180). The queue is looked at only when the byte is LINE_TERM. -/
def execRbPushl (b q v : Byte) (s : State) : Result :=
  s.asProducer b
    (if v = s.cfg.lineTerm then (s.storeFiltered b v).sendSnapshot s.cur b q
     else (s.storeFiltered b v).ok s.cur 1 [])

end Sys2Proof.Machine
end

