-- ==== Sys2Proof/Machine/MessageQueue.lean ====
section
/-! DEFINITION. The message-queue operations (41_messagequeue.md R140 to R154), with the completion bodies of the three
blocking ones (R142). The issuing port is `cur`; a completion is for the port `p` it is given. -/

namespace Sys2Proof.Machine

/-- What MQ.INIT has done so far (R143): the state, how many queues it created, whether it met a created one. -/
structure InitRun where
  st : State
  made : Nat
  dbl : Bool

/-- MQ.INIT's step for queue `q` (R143): create it with the shape QSHAPE[q], or leave it and set STATUS.DBLINIT. -/
def initQueue (a : InitRun) (q : Nat) : InitRun :=
  if (a.st.queues.getD q Queue.blank).created then ⟨a.st.setStatus statusDblinit, a.made, true⟩
  else ⟨{ a.st with queues := a.st.queues.set q ⟨true, a.st.cfg.qshapes[q]?, []⟩ }, a.made + 1, a.dbl⟩

/-- MQ.INIT's loop over the queues 0 .. NQ-1 (R143). -/
def initAll (s : State) : InitRun := (List.range s.cfg.nq).foldl initQueue ⟨s, 0, false⟩

/-- MQ.INIT (R143): double initialization is a Fail that reports, not a fault (R213). -/
def execMqInit (s : State) : Result :=
  if (initAll s).dbl then .next ((initAll s).st.fail s.cur .doubleInit (BitVec.ofNat 16 (initAll s).made))
  else .next ((initAll s).st.ok s.cur (BitVec.ofNat 16 (initAll s).made) [])

/-- MQ.SENDL.ISR (R144): the end position is stored as given (R72). -/
def execMqSendlIsr (q b : Byte) (e : Half) (s : State) : Result :=
  if !s.qlive q then .next (s.fail s.cur .badQueue 0)
  else if !s.bufValid b then .next (s.fail s.cur .badBuf 0)
  else if (s.queue q).shape ≠ some .line then .next (s.fail s.cur .shape 0)
  else if s.full q then .next (s.fail s.cur .full 0)
  else .next ((s.enqueue q (.line b e)).ok s.cur 1 [])

/-- The checks of a blocking operation, in order (R151): invalid input, context, then either the record and no response
yet, or the completion in this step (R142). -/
def State.blocking (s : State) (q : Byte) (sh : Shape) (ready : Bool) (record : Pend) (body : Result) : Result :=
  match s.queueFault q sh with
  | some c => .next (s.fail s.cur c 0)
  | none =>
    if s.isIsr s.cur then .next (s.raise s.cur .ctxViol)
    else if ready then body
    else .next (s.setPend s.cur (some record))

/-- RECVL_COMPLETE (R145) for port `p`: the role check, then the dequeue, then the drain. -/
def State.recvlComplete (s : State) (p : Nat) (q : Byte) (m : Half) : Result :=
  match (s.queue q).fifo.head? with
  | some (.line b e) =>
    if !s.isCons p b then .next (s.raise p .roleViol)
    else .next ((s.dropHead q).startDrain p (.drain q) ((s.dropHead q).newCopy b e m))
  | _ => .fault .entryShape

/-- The completion body of MQ.SENDB (R146) for port `p`. -/
def State.sendbComplete (s : State) (p : Nat) (q v : Byte) : Result :=
  .next ((s.enqueue q (.byte v)).ok p 1 [])

/-- The completion body of MQ.RECVB (R147), and the effect of MQ.RECVB.ISR (R149), for port `p`. -/
def State.recvbComplete (s : State) (p : Nat) (q : Byte) : Result :=
  match (s.queue q).fifo.head? with
  | some (.byte v) => .next ((s.dropHead q).ok p (v.setWidth 16) [])
  | _ => .fault .entryShape

/-- MQ.RECVL (R145). -/
def execMqRecvl (q : Byte) (m : Half) (s : State) : Result :=
  s.blocking q .line (s.nonempty q) (.recvl q m) (s.recvlComplete s.cur q m)

/-- MQ.SENDB (R146). -/
def execMqSendb (q v : Byte) (s : State) : Result :=
  s.blocking q .byte (!s.full q) (.sendb q v) (s.sendbComplete s.cur q v)

/-- MQ.RECVB (R147). -/
def execMqRecvb (q : Byte) (s : State) : Result :=
  s.blocking q .byte (s.nonempty q) (.recvb q) (s.recvbComplete s.cur q)

/-- MQ.SENDB.ISR (R148): never waits. -/
def execMqSendbIsr (q v : Byte) (s : State) : Result :=
  match s.queueFault q .byte with
  | some c => .next (s.fail s.cur c 0)
  | none => if s.full q then .next (s.fail s.cur .full 0) else s.sendbComplete s.cur q v

/-- MQ.RECVB.ISR (R149): never waits. -/
def execMqRecvbIsr (q : Byte) (s : State) : Result :=
  match s.queueFault q .byte with
  | some c => .next (s.fail s.cur c 0)
  | none => if s.nonempty q then s.recvbComplete s.cur q else .next (s.fail s.cur .empty 0)

/-- MQ.PEND.ISR (R150): works on either shape. -/
def execMqPendIsr (q : Byte) (s : State) : Result :=
  if !s.qlive q then .next (s.fail s.cur .badQueue 0)
  else .next (s.ok s.cur (BitVec.ofNat 16 (s.queue q).fifo.length) [])

end Sys2Proof.Machine
end

