-- ==== Sys2Proof/Machine/Dispatch.lean ====
section
/-! DEFINITION. The meaning of each operation, one arm per constructor of Instr. The port is the state's `cur`. -/

namespace Sys2Proof.Machine

/-- Perform a decoded operation for the port `cur`. -/
def exec (i : Instr) (s : State) : Host.Outcome State Fault Refusal :=
  match i with
  | .rbWb b v => Sys2Proof.Machine.execRbWb b v s
  | .rbRb b => Sys2Proof.Machine.execRbRb b s
  | .rbWm b data => Sys2Proof.Machine.execRbWm b data s
  | .rbRm b e m => Sys2Proof.Machine.execRbRm b e m s
  | .rbEmpty b => Sys2Proof.Machine.execRbEmpty b s
  | .rbPushl b q v => Sys2Proof.Machine.execRbPushl b q v s
  | .mqInit => Sys2Proof.Machine.execMqInit s
  | .mqSendlIsr q b e => Sys2Proof.Machine.execMqSendlIsr q b e s
  | .mqRecvl q m => Sys2Proof.Machine.execMqRecvl q m s
  | .mqSendb q v => Sys2Proof.Machine.execMqSendb q v s
  | .mqRecvb q => Sys2Proof.Machine.execMqRecvb q s
  | .mqSendbIsr q v => Sys2Proof.Machine.execMqSendbIsr q v s
  | .mqRecvbIsr q => Sys2Proof.Machine.execMqRecvbIsr q s
  | .mqPendIsr q => Sys2Proof.Machine.execMqPendIsr q s
  | .sysStatus => Sys2Proof.Machine.execSysStatus s

end Sys2Proof.Machine
end

