-- ==== Sys2Proof/Machine/Environment.lean ====
section
/-! DEFINITION. The steps that are not the issue of a request: completion and timeout of a waiting request
(41_messagequeue.md R142), the micro-steps of a split operation (20_memory.md R55) and reset (70_reset_and_hazards.md R230).
A choice that is not enabled does not happen: it is passed over and nothing changes (log entry 2). -/

namespace Sys2Proof.Machine

/-- The environment timeout of port `p`'s waiting request: no record, Fail(0), nothing else (R4, R142). It is enabled at
every step of the wait; an operation in progress does not time out. -/
def State.timeoutAt (s : State) (p : Nat) : State :=
  match s.pend p with
  | some (.recvl _ _) | some (.sendb _ _) | some (.recvb _) => (s.setPend p none).fail p .timeout 0
  | _ => s

/-- The completion of port `p`'s waiting request, enabled exactly when its readiness condition holds (R142). -/
def State.completeAt (s : State) (p : Nat) : Result :=
  match s.pend p with
  | some (.recvl q m) => if s.nonempty q then (s.setPend p none).recvlComplete p q m else .next s
  | some (.sendb q v) => if s.full q then .next s else (s.setPend p none).sendbComplete p q v
  | some (.recvb q) => if s.nonempty q then (s.setPend p none).recvbComplete p q else .next s
  | _ => .next s

/-- A micro-step of a drain in progress (R55): one copy, or the end with its response. -/
def State.advanceDrain (s : State) (p : Nat) (record : Copy → Pend) (c : Copy) : State :=
  if c.more s.cfg.n then (s.copyOne c).1.setPend p (some (record (s.copyOne c).2))
  else (s.setPend p none).respond p (countResponse c.count c.out)

/-- A micro-step of an RB.WM in progress (R55): store byte k, or, after the last, move the write cursor and respond. -/
def State.advanceWrite (s : State) (p : Nat) (b : Byte) (data : List Byte) (k w0 : Nat) : State :=
  match data[k]? with
  | some v => (s.memWrite b (w0 + k) v).setPend p (some (.wm b data (k + 1) w0))
  | none => ((s.setWc b (w0 + data.length)).setPend p none).respond p (countResponse data.length [])

/-- The next micro-step of port `p`'s split operation (R55). -/
def State.advanceAt (s : State) (p : Nat) : State :=
  match s.pend p with
  | some (.wm b data k w0) => s.advanceWrite p b data k w0
  | some (.rm c) => s.advanceDrain p .rm c
  | some (.drain q c) => s.advanceDrain p (.drain q) c
  | _ => s

/-- Reset (R230): all of R20's state takes its value of R35, and an outstanding request is dropped without a response,
so that its port's last request stays unanswered (R247; log entry 21). What belongs to the agents and to the environment stays (log entry 12). -/
def State.blockReset (s : State) : State :=
  { s with
    bufs := List.replicate s.cfg.nb Buf.blank
    queues := List.replicate s.cfg.nq Queue.blank
    status := 0
    ports := s.ports.map (fun x => { x with pend := none }) }

end Sys2Proof.Machine
end

