-- ==== Sys2Proof/Machine/Fetch.lean ====
section
/-! DEFINITION. What the next step is: the environment's next choice, and, for the issue of a request, its decoding
(30_encoding.md R79, 60_exceptions.md R203, R208). The block fetches nothing itself (20_memory.md R63). -/

namespace Sys2Proof.Machine

/-- What the next step does. -/
inductive Fetched where
  /-- A port issues a request that decodes: perform the operation in the state given. -/
  | perform (i : Instr) (s : State)
  /-- Any other step, with its outcome. -/
  | settled (r : Result)

/-- Port `p` issues the request `r`, the first of its sequence, which has no response so far; `rest` is what it has still to
issue. A request that does
not decode raises ILLEGAL_OP before any other check (R79, R203). -/
def State.issue (s : State) (p : Nat) (r : Request) (rest : List Request) : Fetched :=
  let s' := { s.setPort p { s.port p with todo := rest, unanswered := true } with cur := p }
  match decode r.word r.payload with
  | .op i => .perform i s'
  | .illegal _ => .settled (.next (s'.raise p .illegalOp))

/-- Port `p`'s turn to issue: it can when it has a request and none outstanding (R208). -/
def State.issueAt (s : State) (p : Nat) : Fetched :=
  match s.pend p, (s.port p).todo with
  | none, r :: rest => s.issue p r rest
  | _, _ => .settled (.next s)

/-- The environment's next choice, taken off the schedule. With no choice to come nothing happens (log entry 2). -/
def State.fetch (s : State) : Fetched :=
  match s.sched with
  | [] => .settled (.next s)
  | c :: rest =>
    let s' := { s with sched := rest }
    match c with
    | .issue p => s'.issueAt p
    | .complete p => .settled (s'.completeAt p)
    | .timeout p => .settled (.next (s'.timeoutAt p))
    | .advance p => .settled (.next (s'.advanceAt p))
    | .reset => .settled (.next s'.blockReset)

/-- `s` with the request `r` next to be issued, by the port `p`, in the very next step. -/
def State.placeRequest (s : State) (p : Nat) (r : Request) : State :=
  { s.setPort p { s.port p with pend := none, todo := r :: (s.port p).todo } with sched := .issue p :: s.sched }

end Sys2Proof.Machine
end

