-- ==== Sys2Proof/Machine/Step.lean ====
section
/-! DEFINITION. One step of the block: one element of the total order of 20_memory.md R54, R60. -/

namespace Sys2Proof.Machine

/-- One step: what the environment's next choice is, performed. -/
def step (s : State) : Host.Outcome State Fault Refusal :=
  match s.fetch with
  | .perform i s' => exec i s'
  | .settled r => r

/-- `s` with the request of an opcode-table word next to be issued by the port `cur` (by port 0 where `cur` is no port),
that port having nothing outstanding (log entries 6, 15). -/
def State.withFetchWord (s : State) (nbits w : Nat) : State :=
  s.placeRequest (if s.cur < s.ports.length then s.cur else 0) (tableRequest nbits w)

end Sys2Proof.Machine
end

