-- ==== Sys2Proof/Machine/Assembler.lean ====
section
/-! DEFINITION. The assembler syntax (30_encoding.md R81, R82): one line of text to one operation, and an operation written
out as a line. It is a notation for requests; no step of the block reads it (log entry 20). -/

namespace Sys2Proof.Machine

/-- A token of a line (R81). -/
inductive Tok where
  | port
  | comma
  | opening
  | closing
  | name (cs : List Char)
  | num (n : Nat)
  | str (codes : List Nat)
deriving DecidableEq, Repr

/-- Where the reading of a line stands. -/
inductive Lex where
  | idle
  | name (cs : List Char)
  | zero
  | dec (n : Nat)
  | prefixOnly
  | hex (n : Nat)
  | quoted
  | escaped
  | quoteEnd (n : Nat)
  | str (codes : List Nat)
  | comment
deriving DecidableEq, Repr

/-- The value of a decimal digit. -/
def decDigit (c : Char) : Option Nat :=
  if '0' ≤ c ∧ c ≤ '9' then some (c.toNat - 48) else none

/-- The value of a hexadecimal digit, of either case. -/
def hexDigit (c : Char) : Option Nat :=
  if '0' ≤ c ∧ c ≤ '9' then some (c.toNat - 48)
  else if 'a' ≤ c ∧ c ≤ 'f' then some (c.toNat - 87)
  else if 'A' ≤ c ∧ c ≤ 'F' then some (c.toNat - 55)
  else none

/-- A character of a mnemonic: a lower-case letter or a dot (R81). -/
def isNameChar (c : Char) : Bool := (decide ('a' ≤ c) && decide (c ≤ 'z')) || c == '.'

/-- The double quote, which opens and closes a string payload (R81). -/
def doubleQuote : Char := Char.ofNat 0x22

/-- The first character of a token, or one between tokens: tokens ended here, and where the reading stands. -/
def lexStart (c : Char) : Option (List Tok × Lex) :=
  if c = ' ' ∨ c = '\t' then some ([], .idle)
  else if c = ';' then some ([], .comment)
  else if c = '@' then some ([.port], .idle)
  else if c = ',' then some ([.comma], .idle)
  else if c = '[' then some ([.opening], .idle)
  else if c = ']' then some ([.closing], .idle)
  else if c = '\'' then some ([], .quoted)
  else if c = doubleQuote then some ([], .str [])
  else if c = '0' then some ([], .zero)
  else match decDigit c with
    | some d => some ([], .dec d)
    | none => if isNameChar c then some ([], .name [c]) else none

/-- A token ends before `c`, which starts the next. -/
def lexAfter (t : Tok) (c : Char) : Option (List Tok × Lex) :=
  (lexStart c).map (fun x => (t :: x.1, x.2))

/-- One character of a line: the tokens it ends, and where the reading stands after it; `none` where the syntax of R81 has no
such text. DESIGN CHOICE (log entry 20): a backslash or a quote between quotes is R81's general literal of that character; no
escape but R81's three is read, and only a character of ASCII stands between quotes; a character of a string stands for its
Unicode code point, from 0x80 to 0xFF too, where R81 gives no code. -/
def lexChar (st : Lex) (c : Char) : Option (List Tok × Lex) :=
  match st with
  | .idle => lexStart c
  | .name cs => if isNameChar c then some ([], .name (cs ++ [c])) else lexAfter (.name cs) c
  | .zero =>
    if c = 'x' then some ([], .prefixOnly)
    else match decDigit c with
      | some d => some ([], .dec d)
      | none => lexAfter (.num 0) c
  | .dec n =>
    match decDigit c with
    | some d => some ([], .dec (10 * n + d))
    | none => lexAfter (.num n) c
  | .prefixOnly => (hexDigit c).map (fun d => ([], .hex d))
  | .hex n =>
    match hexDigit c with
    | some d => some ([], .hex (16 * n + d))
    | none => lexAfter (.num n) c
  | .quoted =>
    if c = '\\' then some ([], .escaped)
    else if c.toNat < 128 then some ([], .quoteEnd c.toNat) else none
  | .escaped =>
    if c = 'n' then some ([], .quoteEnd 0x0A)
    else if c = 't' then some ([], .quoteEnd 0x09)
    else if c = '0' then some ([], .quoteEnd 0x00)
    else if c = '\'' then some ([.num 0x5C], .idle)
    else none
  | .quoteEnd n => if c = '\'' then some ([.num n], .idle) else none
  | .str codes => if c = doubleQuote then some ([.str codes], .idle) else some ([], .str (codes ++ [c.toNat]))
  | .comment => some ([], .comment)

/-- The token a line's end ends; `none` inside an unfinished literal. -/
def lexEnd (st : Lex) : Option (List Tok) :=
  match st with
  | .idle | .comment => some []
  | .name cs => some [.name cs]
  | .zero => some [.num 0]
  | .dec n | .hex n => some [.num n]
  | .prefixOnly | .quoted | .escaped | .quoteEnd _ | .str _ => none

/-- The tokens of a line from where the reading stands. -/
def lexLine (st : Lex) (cs : List Char) : Option (List Tok) :=
  match cs with
  | [] => lexEnd st
  | c :: rest =>
    match lexChar st c with
    | none => none
    | some (ts, st') => (lexLine st' rest).map (fun us => ts ++ us)

/-- An operand: a number, or a payload's bytes (R81). -/
inductive Operand where
  | num (n : Nat)
  | bytes (ns : List Nat)
deriving DecidableEq, Repr

/-- Where the reading of the operands stands; every form carries the operands read so far. -/
inductive OpsAt where
  /-- right after the mnemonic -/
  | first
  /-- after a comma: an operand must follow -/
  | need (acc : List Operand)
  /-- after an operand -/
  | got (acc : List Operand)
  /-- after the opening bracket -/
  | opened (acc : List Operand)
  /-- after a byte of a bracketed list -/
  | item (acc : List Operand) (ns : List Nat)
  /-- after a comma of a bracketed list -/
  | needItem (acc : List Operand) (ns : List Nat)
deriving DecidableEq, Repr

/-- An operand starts with the token `t`. -/
def opsStart (acc : List Operand) (t : Tok) : Option OpsAt :=
  match t with
  | .num n => some (.got (acc ++ [.num n]))
  | .str ns => some (.got (acc ++ [.bytes ns]))
  | .opening => some (.opened acc)
  | _ => none

/-- One token of the operands, which are separated by commas (R81). -/
def opsTok (st : OpsAt) (t : Tok) : Option OpsAt :=
  match st with
  | .first => opsStart [] t
  | .need acc => opsStart acc t
  | .got acc => if t = .comma then some (.need acc) else none
  | .opened acc =>
    match t with
    | .num n => some (.item acc [n])
    | .closing => some (.got (acc ++ [.bytes []]))
    | _ => none
  | .item acc ns =>
    match t with
    | .comma => some (.needItem acc ns)
    | .closing => some (.got (acc ++ [.bytes ns]))
    | _ => none
  | .needItem acc ns =>
    match t with
    | .num n => some (.item acc (ns ++ [n]))
    | _ => none

/-- The operands from where the reading stands. -/
def opsLine (st : OpsAt) (ts : List Tok) : Option (List Operand) :=
  match ts with
  | [] =>
    match st with
    | .first => some []
    | .got acc => some acc
    | _ => none
  | t :: rest =>
    match opsTok st t with
    | none => none
    | some st' => opsLine st' rest

/-- A number as an 8-bit operand; one that does not fit is an assembler error (R81). -/
def asByte (n : Nat) : Option Byte := if n < 256 then some (BitVec.ofNat 8 n) else none

/-- A number as a 16-bit operand; one that does not fit is an assembler error (R81). -/
def asHalf (n : Nat) : Option Half := if n < 65536 then some (BitVec.ofNat 16 n) else none

/-- Numbers as payload bytes. -/
def asBytes (ns : List Nat) : Option (List Byte) :=
  match ns with
  | [] => some []
  | n :: rest => (asByte n).bind (fun b => (asBytes rest).map (fun bs => b :: bs))

/-- A syntax with the operands b or q alone. -/
def asm1 (f : Byte → Instr) (ops : List Operand) : Option Instr :=
  match ops with
  | [.num x] => (asByte x).map f
  | _ => none

/-- A syntax with two 8-bit operands. -/
def asm2 (f : Byte → Byte → Instr) (ops : List Operand) : Option Instr :=
  match ops with
  | [.num x, .num y] => (asByte x).bind (fun a => (asByte y).map (f a))
  | _ => none

/-- A syntax with an 8-bit and a 16-bit operand. -/
def asm1h (f : Byte → Half → Instr) (ops : List Operand) : Option Instr :=
  match ops with
  | [.num x, .num y] => (asByte x).bind (fun a => (asHalf y).map (f a))
  | _ => none

/-- A message is at most as long as its length field allows (R76, R81); each of its numbers is a byte (R81). -/
def asMessage (f : Byte → List Byte → Instr) (b : Nat) (ns : List Nat) : Option Instr :=
  if ns.length < 65536 then (asByte b).bind (fun b => (asBytes ns).map (f b)) else none

/-- The operation of a mnemonic and its operands: the table of R81 and the pseudo-instructions of R82. -/
def asmOp (m : List Char) (ops : List Operand) : Option Instr :=
  if m = "rb.wb".toList then asm2 .rbWb ops
  else if m = "rb.rb".toList then asm1 .rbRb ops
  else if m = "rb.wm".toList then
    match ops with
    | [.num b, .num l, .bytes ns] => if l = ns.length then asMessage .rbWm b ns else none
    | _ => none
  else if m = "rb.rm".toList then
    match ops with
    | [.num b, .num e, .num m] => (asByte b).bind (fun b => (asHalf e).bind (fun e => (asHalf m).map (.rbRm b e)))
    | _ => none
  else if m = "rb.empty".toList then asm1 .rbEmpty ops
  else if m = "rb.pushl".toList then
    match ops with
    | [.num b, .num q, .num v] => (asByte b).bind (fun b => (asByte q).bind (fun q => (asByte v).map (.rbPushl b q)))
    | _ => none
  else if m = "mq.init".toList then (if ops = [] then some .mqInit else none)
  else if m = "mq.sendl.isr".toList then
    match ops with
    | [.num q, .num b, .num e] => (asByte q).bind (fun q => (asByte b).bind (fun b => (asHalf e).map (.mqSendlIsr q b)))
    | _ => none
  else if m = "mq.recvl".toList then asm1h .mqRecvl ops
  else if m = "mq.sendb".toList then asm2 .mqSendb ops
  else if m = "mq.recvb".toList then asm1 .mqRecvb ops
  else if m = "mq.sendb.isr".toList then asm2 .mqSendbIsr ops
  else if m = "mq.recvb.isr".toList then asm1 .mqRecvbIsr ops
  else if m = "mq.pend.isr".toList then asm1 .mqPendIsr ops
  else if m = "sys.status".toList then (if ops = [] then some .sysStatus else none)
  else if m = "rb.wstr".toList then
    match ops with
    | [.num b, .bytes ns] => asMessage pseudoWstr b ns
    | _ => none
  else if m = "rb.rdn".toList then asm1h pseudoRdn ops
  else if m = "nop".toList then (if ops = [] then some pseudoNop else none)
  else none

/-- What a line of assembler text is (R81): a request with its port where the line names one, nothing, or an error. -/
inductive AsmLine where
  | request (port : Option Nat) (i : Instr)
  | blank
  | error
deriving DecidableEq, Repr

/-- A line's request from its tokens after the port. -/
def asmTokens (port : Option Nat) (ts : List Tok) : AsmLine :=
  match ts with
  | .name m :: rest =>
    match (opsLine .first rest).bind (asmOp m) with
    | some i => .request port i
    | none => .error
  | _ => .error

/-- R81: one line of assembler text. -/
def assemble (cs : List Char) : AsmLine :=
  match lexLine .idle cs with
  | none => .error
  | some [] => .blank
  | some (.port :: .num p :: ts) => if p < 256 then asmTokens (some p) ts else .error
  | some ts => asmTokens none ts

/-- A hexadecimal digit's character. -/
def hexChar (d : Nat) : Char := Char.ofNat (if d < 10 then 48 + d else 87 + d)

/-- A number below 65536 as text: 0x and four digits. -/
def numText (n : Nat) : List Char :=
  ['0', 'x', hexChar (n / 4096 % 16), hexChar (n / 256 % 16), hexChar (n / 16 % 16), hexChar (n % 16)]

/-- Operands separated by commas, each written with `f`. -/
def operandsText (f : Nat → List Char) (ns : List Nat) : List Char :=
  match ns with
  | [] => []
  | [n] => f n
  | n :: rest => f n ++ ',' :: ' ' :: operandsText f rest

/-- Numbers below 65536 separated by commas. -/
def numsText (ns : List Nat) : List Char := operandsText numText ns

/-- An operation as a line of assembler text (R81). -/
def asmText (i : Instr) : List Char :=
  match i with
  | .rbWb b v => "rb.wb ".toList ++ numsText [b.toNat, v.toNat]
  | .rbRb b => "rb.rb ".toList ++ numsText [b.toNat]
  | .rbWm b data =>
    "rb.wm ".toList ++ numsText [b.toNat, data.length] ++ ", [".toList ++ numsText (data.map BitVec.toNat) ++ [']']
  | .rbRm b e m => "rb.rm ".toList ++ numsText [b.toNat, e.toNat, m.toNat]
  | .rbEmpty b => "rb.empty ".toList ++ numsText [b.toNat]
  | .rbPushl b q v => "rb.pushl ".toList ++ numsText [b.toNat, q.toNat, v.toNat]
  | .mqInit => "mq.init".toList
  | .mqSendlIsr q b e => "mq.sendl.isr ".toList ++ numsText [q.toNat, b.toNat, e.toNat]
  | .mqRecvl q m => "mq.recvl ".toList ++ numsText [q.toNat, m.toNat]
  | .mqSendb q v => "mq.sendb ".toList ++ numsText [q.toNat, v.toNat]
  | .mqRecvb q => "mq.recvb ".toList ++ numsText [q.toNat]
  | .mqSendbIsr q v => "mq.sendb.isr ".toList ++ numsText [q.toNat, v.toNat]
  | .mqRecvbIsr q => "mq.recvb.isr ".toList ++ numsText [q.toNat]
  | .mqPendIsr q => "mq.pend.isr ".toList ++ numsText [q.toNat]
  | .sysStatus => "sys.status".toList

/-- A number in decimal, of any size (R81). -/
def decText (n : Nat) : List Char := Nat.toDigits 10 n

/-- A number in hexadecimal after 0x, of any size (R81). -/
def hexText (n : Nat) : List Char := '0' :: 'x' :: Nat.toDigits 16 n

/-- A row of R81 or R82 whose operands are numbers: the mnemonic, the bound of each operand's field (R71, R72) and the
operation. -/
structure AsmForm where
  mnemonic : String
  bounds : List Nat
  build : List Nat → Instr

/-- The k-th operand as an 8-bit field. -/
def operandByte (ns : List Nat) (k : Nat) : Byte := BitVec.ofNat 8 (ns.getD k 0)

/-- The k-th operand as a 16-bit field. -/
def operandHalf (ns : List Nat) (k : Nat) : Half := BitVec.ofNat 16 (ns.getD k 0)

/-- The rows of R81 and R82 whose operands are numbers: all but rb.wm and rb.wstr. -/
def asmForms : List AsmForm := [
  ⟨"rb.wb", [256, 256], fun ns => .rbWb (operandByte ns 0) (operandByte ns 1)⟩,
  ⟨"rb.rb", [256], fun ns => .rbRb (operandByte ns 0)⟩,
  ⟨"rb.rm", [256, 65536, 65536], fun ns => .rbRm (operandByte ns 0) (operandHalf ns 1) (operandHalf ns 2)⟩,
  ⟨"rb.empty", [256], fun ns => .rbEmpty (operandByte ns 0)⟩,
  ⟨"rb.pushl", [256, 256, 256], fun ns => .rbPushl (operandByte ns 0) (operandByte ns 1) (operandByte ns 2)⟩,
  ⟨"mq.init", [], fun _ => .mqInit⟩,
  ⟨"mq.sendl.isr", [256, 256, 65536],
    fun ns => .mqSendlIsr (operandByte ns 0) (operandByte ns 1) (operandHalf ns 2)⟩,
  ⟨"mq.recvl", [256, 65536], fun ns => .mqRecvl (operandByte ns 0) (operandHalf ns 1)⟩,
  ⟨"mq.sendb", [256, 256], fun ns => .mqSendb (operandByte ns 0) (operandByte ns 1)⟩,
  ⟨"mq.recvb", [256], fun ns => .mqRecvb (operandByte ns 0)⟩,
  ⟨"mq.sendb.isr", [256, 256], fun ns => .mqSendbIsr (operandByte ns 0) (operandByte ns 1)⟩,
  ⟨"mq.recvb.isr", [256], fun ns => .mqRecvbIsr (operandByte ns 0)⟩,
  ⟨"mq.pend.isr", [256], fun ns => .mqPendIsr (operandByte ns 0)⟩,
  ⟨"sys.status", [], fun _ => .sysStatus⟩,
  ⟨"rb.rdn", [256, 65536], fun ns => .rbRm (operandByte ns 0) 0xFFFF (operandHalf ns 1)⟩,
  ⟨"nop", [], fun _ => .sysStatus⟩]

/-- There are as many operands as bounds, and each is below its own. -/
def fits (ns bounds : List Nat) : Bool :=
  match ns, bounds with
  | [], [] => true
  | n :: ns, b :: bounds => decide (n < b) && fits ns bounds
  | _, _ => false

end Sys2Proof.Machine
end

