-- ==== Sys2Proof/Safety.lean ====
section
/-! DEFINITION. What claims about the block are stated in: the invariant of its states, a faulted state (10_state.md R30),
the end of a run (70_reset_and_hazards.md R247), what a port observes (10_state.md R37) and what a step leaves as it was. -/

namespace Sys2Proof.Machine

/-- Every array has the length its parameter says (R20). -/
abbrev State.Sized (s : State) : Prop :=
  s.bufs.length = s.cfg.nb ∧ s.queues.length = s.cfg.nq ∧ s.ports.length = s.cfg.np

/-- The cursors are below N (R21, R22), storage is in canonical form, and every written cell is one of 0 .. N-1 (R24). -/
def State.bufOk (s : State) (x : Buf) : Bool :=
  decide (x.wc < s.cfg.n) && decide (x.rc < s.cfg.n) && Memory.wf s.unlisted x.mem &&
    x.mem.all (fun c => decide (c.1 < s.cfg.n))

/-- An entry of the shape `sh`, its buffer identifier valid (R27). -/
def State.entryOk (s : State) (sh : Option Shape) : Entry → Bool
  | .line b _ => sh == some .line && s.bufValid b
  | .byte _ => sh == some .byte

/-- A queue is not created and blank, or created with the shape `sh` and entries of that shape (R26 to R28); at most QCAP
entries either way. -/
def State.queueOk (s : State) (sh : Option Shape) (x : Queue) : Bool :=
  (if x.created then x.shape == sh else x == Queue.blank) &&
    decide (x.fifo.length ≤ s.cfg.qcap) && x.fifo.all (s.entryOk sh)

/-- A drain in progress for port `p`: p is the buffer's consumer, the count has not passed what the loop of R103 copies,
and the read cursor is the starting one advanced by the count (R55, R110). -/
def State.copyOk (s : State) (p : Nat) (c : Copy) : Bool :=
  !s.cfg.atomicMultibyte && s.bufValid c.b && s.isCons p c.b &&
    decide (c.count ≤ min c.e.toNat (min c.m.toNat s.cfg.n)) && decide (c.out.length = c.count) &&
    decide (s.rc c.b = (c.r0 + c.count) % s.cfg.n)

/-- Port `p`'s outstanding record is one its request can have left (R31, R55, R142). -/
def State.pendOk (s : State) (p : Nat) : Bool :=
  match s.pend p with
  | none => true
  | some (.recvl q _) => !s.isIsr p && s.queueFault q .line == none
  | some (.sendb q _) => !s.isIsr p && s.queueFault q .byte == none
  | some (.recvb q) => !s.isIsr p && s.queueFault q .byte == none
  | some (.wm b data k w0) =>
    !s.cfg.atomicMultibyte && s.bufValid b && s.isProd p b && decide (data.length < s.cfg.n - 1) &&
      decide (k ≤ data.length) && decide (w0 = s.wc b)
  | some (.rm c) => s.copyOk p c
  | some (.drain _ c) => !s.isIsr p && s.copyOk p c

/-- The invariant of the block's states: a legal configuration, arrays of its sizes, cursors in range, canonical storage,
queues bounded and of one shape, STATUS's reserved bits 0, and outstanding records that fit. -/
abbrev State.Inv (s : State) : Prop :=
  s.cfg.Legal ∧ s.Sized ∧ s.cur < s.cfg.np ∧
  (∀ b < s.cfg.nb, s.bufOk (s.bufs.getD b Buf.blank) = true) ∧
  (∀ q < s.cfg.nq, s.queueOk s.cfg.qshapes[q]? (s.queues.getD q Queue.blank) = true) ∧
  s.status &&& 0xFFF0 = 0 ∧
  (∀ p < s.cfg.np, s.pendOk p = true)

/-- A faulted state: one of STATUS[3:1] is set (R30, R204). DBLINIT does not count (R213). -/
def State.faulted (s : State) : Bool := s.statusValue &&& 0x000E != 0

/-- The end of a run: every port has issued its last request and received its response, and every record is NONE (R247). A
last request that reset dropped has no response, so the run does not end (R230). It says nothing of the buffers, the queues
or STATUS. -/
def State.runEnded (s : State) : Bool := s.ports.all (fun x => x.pend == none && x.todo == [] && !x.unanswered)

/-- A port whose record is not NONE has had no response to the request it issued last (R31; log entry 21). -/
abbrev State.PendUnanswered (s : State) : Prop := ∀ p, s.pend p ≠ none → (s.port p).unanswered = true

/-- What port `p` observes: the response words and data of its own requests, in order (R37). -/
def State.observes (s : State) (p : Nat) : List (RespWord × List Byte) :=
  (s.resps p).map (fun r => (r.word, r.data))

/-- Port `p`'s request was answered with `r`, and nothing else of any port changed. -/
abbrev Answered (s t : State) (p : Nat) (r : Response) : Prop :=
  t.resps p = s.resps p ++ [r] ∧ t.pend p = s.pend p ∧ (t.port p).todo = (s.port p).todo ∧
  (∀ p', p' ≠ p → t.port p' = s.port p') ∧ t.ports.length = s.ports.length ∧ (t.port p).unanswered = false

/-- Buffer `b` has the same cursors and the same byte in every cell. -/
abbrev SameBuf (s t : State) (b : Byte) : Prop :=
  t.wc b = s.wc b ∧ t.rc b = s.rc b ∧ ∀ i, t.cell b i = s.cell b i

/-- Every buffer but `b` is as before. -/
abbrev SameOtherBufs (s t : State) (b : Byte) : Prop := ∀ b', b' ≠ b → SameBuf s t b'

/-- Every buffer is as before. -/
abbrev SameBufs (s t : State) : Prop := ∀ b', SameBuf s t b'

/-- Every queue but `q` is as before. -/
abbrev SameOtherQueues (s t : State) (q : Byte) : Prop := ∀ q', q' ≠ q → t.queue q' = s.queue q'

/-- Every queue is as before. -/
abbrev SameQueues (s t : State) : Prop := ∀ q', t.queue q' = s.queue q'

/-- The configuration and the model's own fields are as before, but for the draws taken. -/
abbrev SameModel (s t : State) : Prop := t.cfg = s.cfg ∧ t.cur = s.cur ∧ t.sched = s.sched

/-- Port `p`'s request was answered with `r` and nothing else changed: no cursor, cell, queue, STATUS bit or other port,
and no draw was taken. -/
abbrev OnlyAnswered (s t : State) (p : Nat) (r : Response) : Prop :=
  Answered s t p r ∧ SameBufs s t ∧ SameQueues s t ∧ t.status = s.status ∧ SameModel s t ∧ t.draws = s.draws

/-- Port `p`'s request ended in the fault `f`: its sticky STATUS bit is set, the answer is OK = 0, VALUE = 0 with no data,
and nothing else changed (R202). -/
abbrev OnlyFaulted (s t : State) (p : Nat) (f : FaultCode) : Prop :=
  Answered s t p ⟨.fault f, 0, []⟩ ∧ SameBufs s t ∧ SameQueues s t ∧ t.status = s.status ||| f.statusBit ∧
  SameModel s t ∧ t.draws = s.draws

/-- Port `p`'s request was recorded in PEND and not answered, and nothing else changed (R31, R142). -/
abbrev OnlyRecorded (s t : State) (p : Nat) (x : Pend) : Prop :=
  t.pend p = some x ∧ t.resps p = s.resps p ∧ (t.port p).todo = (s.port p).todo ∧
  (∀ p', p' ≠ p → t.port p' = s.port p') ∧ SameBufs s t ∧ SameQueues s t ∧ t.status = s.status ∧ SameModel s t ∧
  t.draws = s.draws ∧ (t.port p).unanswered = (s.port p).unanswered

/-- Buffer `b` took the byte `v` at its write cursor, which advanced by one; no other cell and no read cursor changed. -/
abbrev StoredByte (s t : State) (b v : Byte) : Prop :=
  t.cell b (s.wc b) = some v ∧ t.wc b = (s.wc b + 1) % s.cfg.n ∧ t.rc b = s.rc b ∧
  ∀ i, i % s.cfg.n ≠ s.wc b % s.cfg.n → t.cell b i = s.cell b i

/-- Buffer `b`'s read cursor advanced by `k`; no cell and no write cursor changed. -/
abbrev ReadOn (s t : State) (b : Byte) (k : Nat) : Prop :=
  t.rc b = (s.rc b + k) % s.cfg.n ∧ t.wc b = s.wc b ∧ ∀ i, t.cell b i = s.cell b i

/-- `out` is what `k` reads from buffer `b`'s read cursor on return: `k` bytes, each the cell's own where the cell holds a
byte (an UNDEF cell returns a draw, R36). -/
abbrev BytesRead (s : State) (b : Byte) (k : Nat) (out : List Byte) : Prop :=
  out.length = k ∧ ∀ (j : Nat) (v : Byte), j < k → s.cell b (s.rc b + j) = some v → out[j]? = some v

/-- The port a choice of the environment is about; none for reset. -/
def Choice.port : Choice → Option Nat
  | .issue p => some p
  | .complete p => some p
  | .timeout p => some p
  | .advance p => some p
  | .reset => none

/-- Every word with this pattern under this mask, and a payload of the length R76 requires, decodes to what `f` builds from
them (R71 to R74, R79). -/
abbrev DecodesAs (pattern mask : CmdWord) (f : CmdWord → List Byte → Instr) : Prop :=
  ∀ (w : CmdWord) (d : List Byte), w &&& mask = pattern → d.length = payloadLength w → decode w d = .op (f w d)

/-- `k` micro-steps of port `p`'s split operation, one after the other (R55). -/
def State.advances (p : Nat) : Nat → State → State
  | 0, s => s
  | k + 1, s => State.advances p k (s.advanceAt p)

end Sys2Proof.Machine
end

