-- ==== Sys2Proof/Certificates/Slice0/Obligations.lean ====
section
/-! DEFINITION. The statements about the block, from the spec's numbered rules. A statement about every state holds for every
configuration of R7 and every schedule of the environment, since both are fields of the state. -/

open Sys2Proof Sys2Proof.Machine

/-! ## Encoding -/

/-- R74, R79: the request an operation is encoded as decodes to that operation, with every operand at every value. -/
def Obligations.EncodedInstructionDecodesToItself : Prop :=
  ∀ i : Instr, i.wellFormed = true → decode (encode i).word (encode i).payload = .op i

/-- R74, R75: a request that decodes is the one encoding of what it decodes to, so its must-be-zero fields are zero. -/
def Obligations.DecodedRequestIsTheEncoding : Prop :=
  ∀ (w : CmdWord) (d : List Byte) (i : Instr), decode w d = .op i → i.wellFormed = true ∧ encode i = ⟨w, d⟩

/-- R74: no two rows of the opcode table match the same word. -/
def Obligations.OpcodeRowsAreDisjoint : Prop :=
  ∀ (w : CmdWord), ∀ r ∈ opcodeTable, ∀ r' ∈ opcodeTable,
    w &&& r.mask = r.pattern → w &&& r'.mask = r'.pattern → r = r'

/-- R75, R76, R79: a reserved OPC, a non-zero must-be-zero field or a payload of another length is illegal, and nothing
else is. -/
def Obligations.IllegalRequestsAreExactlyTheReservedOnes : Prop :=
  ∀ (w : CmdWord) (d : List Byte), (∃ why, decode w d = .illegal why) ↔
    ((∀ r ∈ opcodeTable, w &&& r.mask ≠ r.pattern) ∨
      d.length ≠ (if w.extractLsb' 0 8 = 0x03#8 then (w.extractLsb' 32 16).toNat else 0))

/-- R75: the OPC values 0x00, 0x07 to 0x0F, 0x18 to 0x1F and 0x21 to 0xFF are reserved, and no word with the field RSV
non-zero is legal. -/
def Obligations.ReservedOpcodesAndFieldAreIllegal : Prop :=
  ∀ (w : CmdWord) (d : List Byte),
    ((w.extractLsb' 0 8 = 0x00#8 ∨ (0x07#8 ≤ w.extractLsb' 0 8 ∧ w.extractLsb' 0 8 ≤ 0x0F#8) ∨
        (0x18#8 ≤ w.extractLsb' 0 8 ∧ w.extractLsb' 0 8 ≤ 0x1F#8) ∨ 0x21#8 ≤ w.extractLsb' 0 8) →
      decode w d = .illegal .reservedOpcode) ∧
    (w.extractLsb' 24 8 ≠ 0#8 → ∃ why, decode w d = .illegal why)

/-- R78, R80: byte i of a request on a byte channel is bits 8i+7 to 8i of its word for i below 8, and the payload follows;
byte i of a response is bits 8i+7 to 8i of its word for i below 4, and the data follow. A request sent this way is received
as it was sent, with whatever follows it left over. -/
def Obligations.ByteChannelRoundTrip : Prop :=
  (∀ r : Request, (∀ i < 8, r.toBytes[i]? = some (r.word.extractLsb' (8 * i) 8)) ∧ r.toBytes.drop 8 = r.payload) ∧
  (∀ r : Response, (∀ i < 4, r.toBytes[i]? = some (r.word.extractLsb' (8 * i) 8)) ∧ r.toBytes.drop 4 = r.data) ∧
  ∀ (r : Request) (rest : List Byte), r.payload.length = payloadLength r.word →
    Request.ofBytes (r.toBytes ++ rest) = some (r, rest)

/-- R83: each line of the worked encodings assembles to its operation, whose word is the one given, and that word decodes to
the operation. -/
def Obligations.WorkedEncodingsDecode : Prop :=
  ∀ x ∈ [("rb.wb 0, 0x41", Instr.rbWb 0 0x41, (0x0000004100000001 : CmdWord)),
    ("rb.rm 0, 5, 16", .rbRm 0 5 16, 0x0010000500000004),
    ("rb.pushl 0, 0, 0x0A", .rbPushl 0 0 0x0A, 0x0000000A00000006),
    ("mq.sendl.isr 0, 1, 0x0002", .mqSendlIsr 0 1 2, 0x0000000200010011),
    ("mq.recvl 0, 64", .mqRecvl 0 64, 0x0040000000000012),
    ("sys.status", .sysStatus, 0x0000000000000020)],
    assemble x.1.toList = .request none x.2.1 ∧ encode x.2.1 = ⟨x.2.2, []⟩ ∧ decode x.2.2 [] = .op x.2.1

/-- R81: an operation written out as a line of assembler text is read back as that operation, with every operand at every
value. The line is the model's own printed form (asmText), in which hexadecimal digits are lower case; that such a digit is
read, R81 saying nothing of its case, is the model's choice (DESIGN CHOICE, log entry 20). -/
def Obligations.AssembledTextIsTheInstruction : Prop :=
  ∀ i : Instr, i.wellFormed = true → assemble (asmText i) = .request none i

/-- R81, R82: whatever line the assembler accepts, pseudo-instructions included, it emits a request that decodes to the
operation read. That a port it names is below 256, the most ports R7 allows, is the model's choice (DESIGN CHOICE, log
entry 20). -/
def Obligations.AssemblerEmitsOnlyLegalRequests : Prop :=
  ∀ (cs : List Char) (port : Option Nat) (i : Instr), assemble cs = .request port i →
    decode (encode i).word (encode i).payload = .op i ∧ ∀ p, port = some p → p < 256

/-- R81, R82: a line with the operands written in decimal or after 0x in hexadecimal is the operation with those operands
when there are as many as the row has and each fits its field, and an assembler error otherwise: a byte or an identifier
above 255 and a 16-bit operand above 0xFFFF are errors, not encodings. The same holds of rb.wm, whose length must be that of its
bracketed bytes, and of rb.wstr with a string of one character per byte. That lower-case hexadecimal digits and these blanks
are read, that strings have no escapes, and that a character of a string from 0x80 to 0xFF stands for its Unicode code point,
is the model's choice (DESIGN CHOICE, log entry 20); that a length L other than
the payload's and a character above 0xFF are errors is read from R81 and R76 (DEDUCED, log entry 20). -/
def Obligations.OperandsThatDoNotFitAreAssemblerErrors : Prop :=
  (∀ num ∈ [decText, hexText],
    (∀ x ∈ asmForms, ∀ ns : List Nat,
      assemble (x.mnemonic.toList ++ ' ' :: operandsText num ns) =
        if fits ns x.bounds = true then .request none (x.build ns) else .error) ∧
    ∀ (b l : Nat) (ds : List Nat),
      assemble ("rb.wm ".toList ++ operandsText num [b, l] ++ ", [".toList ++ operandsText num ds ++ [']']) =
        if b < 256 ∧ l < 65536 ∧ l = ds.length ∧ ∀ d ∈ ds, d < 256 then
          .request none (.rbWm (BitVec.ofNat 8 b) (ds.map (BitVec.ofNat 8)))
        else .error) ∧
  ∀ (b : Nat) (cs : List Char), doubleQuote ∉ cs →
    assemble ("rb.wstr ".toList ++ decText b ++ [',', ' ', doubleQuote] ++ cs ++ [doubleQuote]) =
      if b < 256 ∧ cs.length < 65536 ∧ ∀ c ∈ cs, c.toNat < 256 then
        .request none (.rbWm (BitVec.ofNat 8 b) (cs.map (fun c => BitVec.ofNat 8 c.toNat)))
      else .error

/-- R77: bit 0 of the response word is OK, bits 15:1 are zero, bits 31:16 are VALUE. -/
def Obligations.ResponseWordFields : Prop :=
  ∀ r : Response,
    (r.word.getLsbD 0 = true ↔ r.ending = .ok) ∧ r.word.extractLsb' 1 15 = 0 ∧ r.word.extractLsb' 16 16 = r.value

/-! ## The step -/

/-- R79, R208: when the environment lets port p issue, p has nothing outstanding, and its next request decodes, the step is
exec of that operation, with p the issuing port, the request taken off p's sequence and not answered so far, and the choice
off the schedule (the schedule, the sequences and the note that the request has no response are the model's: log entries 2,
21). -/
def Obligations.StepPerformsTheDecodedRequest : Prop :=
  ∀ (s : State) (p : Nat) (sched : List Choice) (r : Request) (todo : List Request) (i : Instr),
    s.sched = .issue p :: sched → s.pend p = none → (s.port p).todo = r :: todo →
    decode r.word r.payload = .op i →
    step s = exec i { s with
      sched := sched, cur := p, ports := s.ports.set p { s.port p with todo := todo, unanswered := true } }

/-- R75, R202: the issue of a request that does not decode sets STATUS.ILLEGAL and nothing else, and answers OK = 0,
VALUE = 0. -/
def Obligations.UndecodableRequestOnlySetsIllegal : Prop :=
  ∀ (s : State) (p : Nat) (sched : List Choice) (r : Request) (todo : List Request) (why : Illegal),
    s.Inv → s.sched = .issue p :: sched → s.pend p = none → (s.port p).todo = r :: todo →
    decode r.word r.payload = .illegal why →
    ∃ t, step s = .next t ∧ t.status = s.status ||| 0x0002 ∧ SameBufs s t ∧ SameQueues s t ∧
      t.resps p = s.resps p ++ [⟨.fault .illegalOp, 0, []⟩] ∧ t.pend p = none ∧ (t.port p).todo = todo ∧
      (t.port p).unanswered = false ∧
      (∀ p', p' ≠ p → t.port p' = s.port p') ∧ t.cfg = s.cfg ∧ t.sched = sched ∧ t.draws = s.draws

/-- R208: a port whose request is outstanding issues nothing: its turn to issue passes and nothing else changes (that it passes is the model's choice, log entry 2). -/
def Obligations.OutstandingPortIssuesNothing : Prop :=
  ∀ (s : State) (p : Nat) (sched : List Choice) (x : Pend),
    s.sched = .issue p :: sched → s.pend p = some x → step s = .next { s with sched := sched }

/-! ## Ring-buffer operations -/

/-- R100: RB.WB, whole, its encoding included. An invalid identifier fails; a port that is not the producer faults; an ignored byte is accepted and
not stored; any other byte goes to the cell at the write cursor, which advances by one modulo N. -/
def Obligations.RbWbStoresFiltersOrRefuses : Prop :=
  DecodesAs 0x0000000000000001 0xFFFFFF00FFFF00FF (fun w _ => .rbWb (fieldId w) (fieldV w)) ∧
  ∀ (s : State) (b v : Byte), s.Inv → ∃ t, exec (.rbWb b v) s = .next t ∧
    if s.cfg.nb ≤ b.toNat then OnlyAnswered s t s.cur ⟨.fail .badBuf, 0, []⟩
    else if s.isProd s.cur b = false then OnlyFaulted s t s.cur .roleViol
    else if v ∈ [0x0A#8, 0x20#8, 0x09#8, 0x00#8] then OnlyAnswered s t s.cur ⟨.ok, 1, []⟩
    else
      StoredByte s t b v ∧ SameOtherBufs s t b ∧ SameQueues s t ∧ t.status = s.status ∧ SameModel s t ∧
      t.draws = s.draws ∧ Answered s t s.cur ⟨.ok, 1, []⟩

/-- R101, R36: RB.RB, whole, its encoding included. An invalid identifier fails with the zero byte; a port that is not the consumer faults;
otherwise the byte of the cell at the read cursor is answered (a fresh draw where the cell holds UNDEF) and the cursor
advances by one modulo N, whether or not the buffer is empty. -/
def Obligations.RbRbReadsAndAdvancesOrRefuses : Prop :=
  DecodesAs 0x0000000000000002 0xFFFFFFFFFFFF00FF (fun w _ => .rbRb (fieldId w)) ∧
  ∀ (s : State) (b : Byte), s.Inv → ∃ t, exec (.rbRb b) s = .next t ∧
    if s.cfg.nb ≤ b.toNat then OnlyAnswered s t s.cur ⟨.fail .badBuf, 0, []⟩
    else if s.isCons s.cur b = false then OnlyFaulted s t s.cur .roleViol
    else
      ReadOn s t b 1 ∧ SameOtherBufs s t b ∧ SameQueues s t ∧ t.status = s.status ∧ SameModel s t ∧
      match s.cell b (s.rc b) with
      | some v => t.draws = s.draws ∧ Answered s t s.cur ⟨.ok, v.setWidth 16, []⟩
      | none => t.draws = s.draws + 1 ∧ Answered s t s.cur ⟨.ok, (Config.drawByte s.draws).setWidth 16, []⟩

/-- R102: RB.WM, whole, its encoding included. An invalid identifier fails; a port that is not the producer faults; N-1 bytes or more are rejected;
otherwise byte i is stored verbatim in the cell i past the write cursor modulo N, the cursor advances by the length, and the
length is answered (0 bytes: nothing changes and the answer is Fail). With ATOMIC_MULTIBYTE = false the accepted message is
recorded for the micro-steps of R55 with no byte stored so far, as log entry 13 reads that rule (DEDUCED). -/
def Obligations.RbWmStoresVerbatimOrRefuses : Prop :=
  DecodesAs 0x0000000000000003 0xFFFF0000FFFF00FF (fun w d => .rbWm (fieldId w) d) ∧
  ∀ (s : State) (b : Byte) (data : List Byte), s.Inv → ∃ t, exec (.rbWm b data) s = .next t ∧
    if s.cfg.nb ≤ b.toNat then OnlyAnswered s t s.cur ⟨.fail .badBuf, 0, []⟩
    else if s.isProd s.cur b = false then OnlyFaulted s t s.cur .roleViol
    else if s.cfg.n - 1 ≤ data.length then OnlyAnswered s t s.cur ⟨.fail .tooLong, 0, []⟩
    else if s.cfg.atomicMultibyte = false then OnlyRecorded s t s.cur (.wm b data 0 (s.wc b))
    else if data = [] then OnlyAnswered s t s.cur ⟨.fail .zeroCount, 0, []⟩
    else
      (∀ k (h : k < data.length), t.cell b (s.wc b + k) = some data[k]) ∧
      (∀ i, (∀ k < data.length, i % s.cfg.n ≠ (s.wc b + k) % s.cfg.n) → t.cell b i = s.cell b i) ∧
      t.wc b = (s.wc b + data.length) % s.cfg.n ∧ t.rc b = s.rc b ∧ SameOtherBufs s t b ∧ SameQueues s t ∧
      t.status = s.status ∧ SameModel s t ∧ t.draws = s.draws ∧
      Answered s t s.cur ⟨.ok, BitVec.ofNat 16 data.length, []⟩

/-- R103: RB.RM, whole, its encoding included. An invalid identifier fails; a port that is not the consumer faults; otherwise min(E, M, N) bytes are
copied from the read cursor on, which advances by that count, and the count and bytes are answered (a count of 0: nothing
changes and the answer is Fail). The write cursor does not matter. With ATOMIC_MULTIBYTE = false the drain is recorded for
the micro-steps of R55 with no byte copied so far, as log entry 13 reads that rule (DEDUCED). -/
def Obligations.RbRmCopiesTheLeastOrRefuses : Prop :=
  DecodesAs 0x0000000000000004 0x00000000FFFF00FF (fun w _ => .rbRm (fieldId w) (fieldA w) (fieldB w)) ∧
  ∀ (s : State) (b : Byte) (e m : Half), s.Inv → ∃ t, exec (.rbRm b e m) s = .next t ∧
    if s.cfg.nb ≤ b.toNat then OnlyAnswered s t s.cur ⟨.fail .badBuf, 0, []⟩
    else if s.isCons s.cur b = false then OnlyFaulted s t s.cur .roleViol
    else if s.cfg.atomicMultibyte = false then OnlyRecorded s t s.cur (.rm ⟨b, e, m, 0, [], s.rc b⟩)
    else if min e.toNat (min m.toNat s.cfg.n) = 0 then OnlyAnswered s t s.cur ⟨.fail .zeroCount, 0, []⟩
    else
      ∃ out, BytesRead s b (min e.toNat (min m.toNat s.cfg.n)) out ∧
      ReadOn s t b (min e.toNat (min m.toNat s.cfg.n)) ∧ SameOtherBufs s t b ∧ SameQueues s t ∧ t.status = s.status ∧
      SameModel s t ∧ Answered s t s.cur ⟨.ok, BitVec.ofNat 16 (min e.toNat (min m.toNat s.cfg.n)), out⟩

/-- R104: RB.EMPTY, whole, its encoding included. It answers whether the cursors are equal, to any port, and "empty" with OK = 0 for an invalid
identifier; it changes no state. -/
def Obligations.RbEmptyComparesTheCursors : Prop :=
  DecodesAs 0x0000000000000005 0xFFFFFFFFFFFF00FF (fun w _ => .rbEmpty (fieldId w)) ∧
  ∀ (s : State) (b : Byte), s.Inv → ∃ t, exec (.rbEmpty b) s = .next t ∧
    if s.cfg.nb ≤ b.toNat then OnlyAnswered s t s.cur ⟨.fail .badBuf, 1, []⟩
    else OnlyAnswered s t s.cur ⟨.ok, if s.wc b = s.rc b then 1 else 0, []⟩

/-- R105: the role check. RB.WB, RB.WM and RB.PUSHL need the producer, RB.RB, RB.RM and the drain of MQ.RECVL the consumer;
a request that fails it sets STATUS.ROLEV, changes nothing else and answers OK = 0, VALUE = 0. RB.EMPTY has no role check. -/
def Obligations.WrongRoleOnlySetsRolev : Prop :=
  ∀ (s : State) (b q v : Byte) (e m : Half) (data : List Byte) (rest : List Entry), s.Inv → b.toNat < s.cfg.nb →
    (s.isProd s.cur b = false → ∀ i ∈ [Instr.rbWb b v, .rbWm b data, .rbPushl b q v],
      ∃ t, exec i s = .next t ∧ OnlyFaulted s t s.cur .roleViol ∧ t.status.getLsbD 3 = true) ∧
    (s.isCons s.cur b = false → ∀ i ∈ [Instr.rbRb b, .rbRm b e m],
      ∃ t, exec i s = .next t ∧ OnlyFaulted s t s.cur .roleViol ∧ t.status.getLsbD 3 = true) ∧
    (s.isCons s.cur b = false → s.qlive q = true → (s.queue q).shape = some .line → s.isIsr s.cur = false →
      (s.queue q).fifo = .line b e :: rest →
      ∃ t, exec (.mqRecvl q m) s = .next t ∧ OnlyFaulted s t s.cur .roleViol ∧ t.status.getLsbD 3 = true) ∧
    ∃ t r, exec (.rbEmpty b) s = .next t ∧ OnlyAnswered s t s.cur r ∧ r.ending = .ok

/-- R58: a message written to an empty buffer by its producer and read by its consumer with the length as end marker comes
back whole and in order, and the buffer is empty again. -/
def Obligations.WrittenMessageIsReadBack : Prop :=
  ∀ (s : State) (b : Byte) (data : List Byte) (p c : Nat), s.Inv → s.cfg.atomicMultibyte = true → s.bufValid b = true →
    p < s.cfg.np → c < s.cfg.np → s.isProd p b = true → s.isCons c b = true → s.wc b = s.rc b → data ≠ [] →
    data.length < s.cfg.n - 1 →
    ∃ t u, exec (.rbWm b data) { s with cur := p } = .next t ∧
      exec (.rbRm b (BitVec.ofNat 16 data.length) 0xFFFF) { t with cur := c } = .next u ∧
      u.resps c = t.resps c ++ [⟨.ok, BitVec.ofNat 16 data.length, data⟩] ∧ u.wc b = u.rc b

/-- R235: the byte that makes the fill reach N makes the cursors equal, so RB.EMPTY, from any port, answers "empty". -/
def Obligations.LappedBufferReadsAsEmpty : Prop :=
  ∀ (s : State) (b v : Byte) (p : Nat), s.Inv → s.bufValid b = true → s.isProd s.cur b = true → isIgnored v = false →
    s.fill b = s.cfg.n - 1 → p < s.cfg.np →
    ∃ t u, exec (.rbWb b v) s = .next t ∧ t.fill b = 0 ∧ exec (.rbEmpty b) { t with cur := p } = .next u ∧
      u.resps p = t.resps p ++ [⟨.ok, 1, []⟩]

/-- R236: RB.RB on an empty buffer leaves it with fill N-1, so it reads as non-empty. -/
def Obligations.ReadingAnEmptyBufferFillsIt : Prop :=
  ∀ (s : State) (b : Byte), s.Inv → s.bufValid b = true → s.isCons s.cur b = true → s.wc b = s.rc b →
    ∃ t, exec (.rbRb b) s = .next t ∧ t.fill b = s.cfg.n - 1 ∧ t.wc b ≠ t.rc b

/-! ## The line cursor snapshot -/

/-- R180: RB.PUSHL, whole, its encoding included. After the checks of RB.WB the byte is stored unless it is ignored. A byte that is not LINE_TERM
answers Ok(1) and the queue is not looked at. LINE_TERM appends a descriptor whose end position is the write cursor after
the write and answers Ok(7); with a queue that is not live, of the other shape or full the byte is kept, no descriptor is
sent and the answer is Fail(3). -/
def Obligations.PushlStoresAndSendsTheSnapshot : Prop :=
  DecodesAs 0x0000000000000006 0xFFFFFF00FF0000FF (fun w _ => .rbPushl (fieldId w) (fieldId2 w) (fieldV w)) ∧
  ∀ (s : State) (b q v : Byte), s.Inv → ∃ t, exec (.rbPushl b q v) s = .next t ∧
    if s.cfg.nb ≤ b.toNat then OnlyAnswered s t s.cur ⟨.fail .badBuf, 0, []⟩
    else if s.isProd s.cur b = false then OnlyFaulted s t s.cur .roleViol
    else
      (if v ∈ [0x0A#8, 0x20#8, 0x09#8, 0x00#8] then SameBuf s t b else StoredByte s t b v) ∧ SameOtherBufs s t b ∧
      t.status = s.status ∧ SameModel s t ∧ t.draws = s.draws ∧
      if v ≠ s.cfg.lineTerm then SameQueues s t ∧ Answered s t s.cur ⟨.ok, 1, []⟩
      else if s.qlive q = true ∧ (s.queue q).shape = some .line ∧ (s.queue q).fifo.length < s.cfg.qcap then
        (∃ e, t.queue q = { s.queue q with fifo := (s.queue q).fifo ++ [.line b e] } ∧ e.toNat = t.wc b) ∧
        SameOtherQueues s t q ∧ Answered s t s.cur ⟨.ok, 7, []⟩
      else SameQueues s t ∧ ∃ c, Answered s t s.cur ⟨.fail c, 3, []⟩

/-! ## Message-queue operations -/

/-- R143: MQ.INIT, whole, its encoding included. Every queue that was not created is created with its configured shape and no entries; the created
ones are left; VALUE is how many it created. It answers Ok when it found none created, and otherwise Fail with
STATUS.DBLINIT set. -/
def Obligations.MqInitCreatesTheUncreatedQueues : Prop :=
  DecodesAs 0x0000000000000010 0xFFFFFFFFFFFFFFFF (fun _ _ => .mqInit) ∧
  ∀ (s : State), s.Inv →
    ∃ t, exec .mqInit s = .next t ∧
      (∀ q : Byte, q.toNat < s.cfg.nq → t.queue q =
        if (s.queue q).created = true then s.queue q else ⟨true, s.cfg.qshapes[q.toNat]?, []⟩) ∧
      t.queues.length = s.queues.length ∧ SameBufs s t ∧ SameModel s t ∧ t.draws = s.draws ∧
      if s.queues.any (fun x => x.created) = true then
        t.status = s.status ||| 0x0001 ∧ Answered s t s.cur
          ⟨.fail .doubleInit, BitVec.ofNat 16 (s.queues.filter (fun x => !x.created)).length, []⟩
      else
        t.status = s.status ∧ Answered s t s.cur ⟨.ok, BitVec.ofNat 16 s.cfg.nq, []⟩

/-- R144: MQ.SENDL.ISR, whole, its encoding included. A queue that is not live, an invalid buffer, a queue of the other shape or a full queue fails;
otherwise the descriptor is appended with the end position as given. -/
def Obligations.SendlIsrAppendsOrFails : Prop :=
  DecodesAs 0x0000000000000011 0xFFFF0000FF0000FF (fun w _ => .mqSendlIsr (fieldId w) (fieldId2 w) (fieldA w)) ∧
  ∀ (s : State) (q b : Byte) (e : Half), s.Inv → ∃ t, exec (.mqSendlIsr q b e) s = .next t ∧
    if s.qlive q = false then OnlyAnswered s t s.cur ⟨.fail .badQueue, 0, []⟩
    else if s.cfg.nb ≤ b.toNat then OnlyAnswered s t s.cur ⟨.fail .badBuf, 0, []⟩
    else if (s.queue q).shape ≠ some .line then OnlyAnswered s t s.cur ⟨.fail .shape, 0, []⟩
    else if s.cfg.qcap ≤ (s.queue q).fifo.length then OnlyAnswered s t s.cur ⟨.fail .full, 0, []⟩
    else
      t.queue q = { s.queue q with fifo := (s.queue q).fifo ++ [.line b e] } ∧ SameOtherQueues s t q ∧ SameBufs s t ∧
      t.status = s.status ∧ SameModel s t ∧ t.draws = s.draws ∧ Answered s t s.cur ⟨.ok, 1, []⟩

/-- R145: MQ.RECVL, whole, its encoding included. A queue that is not live or of the other shape fails; an ISR port faults; an empty queue makes it
wait; a head descriptor of a buffer whose consumer is another port faults and stays; otherwise the descriptor is removed and
min(e, M, N) bytes are copied from that buffer's read cursor on and answered (none: Fail). With ATOMIC_MULTIBYTE = false the
descriptor is removed and the drain recorded, with no byte copied so far, for the micro-steps of R55, as log entry 13 reads that
rule (DEDUCED). A timeout while it waits ends it with Fail(0). -/
def Obligations.RecvlDrainsTheNamedBuffer : Prop :=
  DecodesAs 0x0000000000000012 0x0000FFFFFFFF00FF (fun w _ => .mqRecvl (fieldId w) (fieldB w)) ∧
  (∀ (s : State) (p : Nat) (q : Byte) (m : Half), s.Inv → s.pend p = some (.recvl q m) →
    s.timeoutAt p = (s.setPend p none).fail p .timeout 0) ∧
  ∀ (s : State) (q : Byte) (m : Half), s.Inv → ∃ t, exec (.mqRecvl q m) s = .next t ∧
    if s.qlive q = false then OnlyAnswered s t s.cur ⟨.fail .badQueue, 0, []⟩
    else if (s.queue q).shape ≠ some .line then OnlyAnswered s t s.cur ⟨.fail .shape, 0, []⟩
    else if s.isIsr s.cur = true then OnlyFaulted s t s.cur .ctxViol
    else if (s.queue q).fifo = [] then OnlyRecorded s t s.cur (.recvl q m)
    else
      ∃ b e rest, (s.queue q).fifo = .line b e :: rest ∧
        if s.isCons s.cur b = false then OnlyFaulted s t s.cur .roleViol
        else
          t.queue q = { s.queue q with fifo := rest } ∧ SameOtherQueues s t q ∧ t.status = s.status ∧ SameModel s t ∧
          SameOtherBufs s t b ∧
          if s.cfg.atomicMultibyte = false then
            SameBuf s t b ∧ t.draws = s.draws ∧ t.resps s.cur = s.resps s.cur ∧
            (t.port s.cur).todo = (s.port s.cur).todo ∧ (∀ p', p' ≠ s.cur → t.port p' = s.port p') ∧
            (t.port s.cur).unanswered = (s.port s.cur).unanswered ∧
            t.pend s.cur = some (.drain q ⟨b, e, m, 0, [], s.rc b⟩)
          else if min e.toNat (min m.toNat s.cfg.n) = 0 then
            SameBuf s t b ∧ t.draws = s.draws ∧ Answered s t s.cur ⟨.fail .zeroCount, 0, []⟩
          else
            ∃ out, BytesRead s b (min e.toNat (min m.toNat s.cfg.n)) out ∧
              ReadOn s t b (min e.toNat (min m.toNat s.cfg.n)) ∧
              Answered s t s.cur ⟨.ok, BitVec.ofNat 16 (min e.toNat (min m.toNat s.cfg.n)), out⟩

/-- R146: MQ.SENDB, whole, its encoding included. A queue that is not live or of the other shape fails; an ISR port faults; a full queue makes it
wait; otherwise the byte, any byte, is appended unchanged. A timeout while it waits ends it with Fail(0). -/
def Obligations.SendbAppendsWaitsOrRefuses : Prop :=
  DecodesAs 0x0000000000000013 0xFFFFFF00FFFF00FF (fun w _ => .mqSendb (fieldId w) (fieldV w)) ∧
  (∀ (s : State) (p : Nat) (q v : Byte), s.Inv → s.pend p = some (.sendb q v) →
    s.timeoutAt p = (s.setPend p none).fail p .timeout 0) ∧
  ∀ (s : State) (q v : Byte), s.Inv → ∃ t, exec (.mqSendb q v) s = .next t ∧
    if s.qlive q = false then OnlyAnswered s t s.cur ⟨.fail .badQueue, 0, []⟩
    else if (s.queue q).shape ≠ some .byte then OnlyAnswered s t s.cur ⟨.fail .shape, 0, []⟩
    else if s.isIsr s.cur = true then OnlyFaulted s t s.cur .ctxViol
    else if s.cfg.qcap ≤ (s.queue q).fifo.length then OnlyRecorded s t s.cur (.sendb q v)
    else
      t.queue q = { s.queue q with fifo := (s.queue q).fifo ++ [.byte v] } ∧ SameOtherQueues s t q ∧ SameBufs s t ∧
      t.status = s.status ∧ SameModel s t ∧ t.draws = s.draws ∧ Answered s t s.cur ⟨.ok, 1, []⟩

/-- R147: MQ.RECVB, whole, its encoding included. A queue that is not live or of the other shape fails; an ISR port faults; an empty queue makes it
wait; otherwise the oldest byte is removed and answered. A timeout while it waits ends it with Fail(0). -/
def Obligations.RecvbRemovesTheOldestWaitsOrRefuses : Prop :=
  DecodesAs 0x0000000000000014 0xFFFFFFFFFFFF00FF (fun w _ => .mqRecvb (fieldId w)) ∧
  (∀ (s : State) (p : Nat) (q : Byte), s.Inv → s.pend p = some (.recvb q) →
    s.timeoutAt p = (s.setPend p none).fail p .timeout 0) ∧
  ∀ (s : State) (q : Byte), s.Inv → ∃ t, exec (.mqRecvb q) s = .next t ∧
    if s.qlive q = false then OnlyAnswered s t s.cur ⟨.fail .badQueue, 0, []⟩
    else if (s.queue q).shape ≠ some .byte then OnlyAnswered s t s.cur ⟨.fail .shape, 0, []⟩
    else if s.isIsr s.cur = true then OnlyFaulted s t s.cur .ctxViol
    else if (s.queue q).fifo = [] then OnlyRecorded s t s.cur (.recvb q)
    else
      ∃ v rest, (s.queue q).fifo = .byte v :: rest ∧ t.queue q = { s.queue q with fifo := rest } ∧
      SameOtherQueues s t q ∧ SameBufs s t ∧ t.status = s.status ∧ SameModel s t ∧ t.draws = s.draws ∧
      Answered s t s.cur ⟨.ok, v.setWidth 16, []⟩

/-- R148: MQ.SENDB.ISR, whole, its encoding included. From a port of either class: a queue that is not live, of the other shape or full fails;
otherwise the byte is appended. It never waits. -/
def Obligations.SendbIsrAppendsOrFails : Prop :=
  DecodesAs 0x0000000000000015 0xFFFFFF00FFFF00FF (fun w _ => .mqSendbIsr (fieldId w) (fieldV w)) ∧
  ∀ (s : State) (q v : Byte), s.Inv → ∃ t, exec (.mqSendbIsr q v) s = .next t ∧
    if s.qlive q = false then OnlyAnswered s t s.cur ⟨.fail .badQueue, 0, []⟩
    else if (s.queue q).shape ≠ some .byte then OnlyAnswered s t s.cur ⟨.fail .shape, 0, []⟩
    else if s.cfg.qcap ≤ (s.queue q).fifo.length then OnlyAnswered s t s.cur ⟨.fail .full, 0, []⟩
    else
      t.queue q = { s.queue q with fifo := (s.queue q).fifo ++ [.byte v] } ∧ SameOtherQueues s t q ∧ SameBufs s t ∧
      t.status = s.status ∧ SameModel s t ∧ t.draws = s.draws ∧ Answered s t s.cur ⟨.ok, 1, []⟩

/-- R149: MQ.RECVB.ISR, whole, its encoding included. From a port of either class: a queue that is not live, of the other shape or empty fails;
otherwise the oldest byte is removed and answered. It never waits. -/
def Obligations.RecvbIsrRemovesTheOldestOrFails : Prop :=
  DecodesAs 0x0000000000000016 0xFFFFFFFFFFFF00FF (fun w _ => .mqRecvbIsr (fieldId w)) ∧
  ∀ (s : State) (q : Byte), s.Inv → ∃ t, exec (.mqRecvbIsr q) s = .next t ∧
    if s.qlive q = false then OnlyAnswered s t s.cur ⟨.fail .badQueue, 0, []⟩
    else if (s.queue q).shape ≠ some .byte then OnlyAnswered s t s.cur ⟨.fail .shape, 0, []⟩
    else if (s.queue q).fifo = [] then OnlyAnswered s t s.cur ⟨.fail .empty, 0, []⟩
    else
      ∃ v rest, (s.queue q).fifo = .byte v :: rest ∧ t.queue q = { s.queue q with fifo := rest } ∧
      SameOtherQueues s t q ∧ SameBufs s t ∧ t.status = s.status ∧ SameModel s t ∧ t.draws = s.draws ∧
      Answered s t s.cur ⟨.ok, v.setWidth 16, []⟩

/-- R150: MQ.PEND.ISR, whole, its encoding included. A queue that is not live fails; otherwise the number of its entries, 0 .. QCAP, is answered,
for either shape. It changes no state. -/
def Obligations.PendIsrCountsTheEntries : Prop :=
  DecodesAs 0x0000000000000017 0xFFFFFFFFFFFF00FF (fun w _ => .mqPendIsr (fieldId w)) ∧
  ∀ (s : State) (q : Byte), s.Inv → ∃ t, exec (.mqPendIsr q) s = .next t ∧
    if s.qlive q = false then OnlyAnswered s t s.cur ⟨.fail .badQueue, 0, []⟩
    else ∃ v : Half, OnlyAnswered s t s.cur ⟨.ok, v, []⟩ ∧ v.toNat = (s.queue q).fifo.length ∧ v.toNat ≤ s.cfg.qcap

/-- R207: a blocking operation from a port of class ISR on a live queue of its shape, ready or not, sets STATUS.CTXV, answers
OK = 0, VALUE = 0 and changes nothing else; on any other queue it gives only the Fail of its invalid input; and every other
operation from such a port leaves STATUS.CTXV as it was and answers no CTX_VIOL. -/
def Obligations.OnlyBlockingFromIsrRaisesCtxViol : Prop :=
  ∀ (s : State) (q v : Byte) (m : Half), s.Inv → s.isIsr s.cur = true →
    (∀ x ∈ [(Instr.mqRecvl q m, Shape.line), (.mqSendb q v, .byte), (.mqRecvb q, .byte)],
      match s.queueFault q x.2 with
      | none =>
        exec x.1 s = .next (s.raise s.cur .ctxViol) ∧ OnlyFaulted s (s.raise s.cur .ctxViol) s.cur .ctxViol ∧
        (s.raise s.cur .ctxViol).status.getLsbD 2 = true
      | some c => exec x.1 s = .next (s.fail s.cur c 0) ∧ OnlyAnswered s (s.fail s.cur c 0) s.cur ⟨.fail c, 0, []⟩) ∧
    ∀ i : Instr, i.opcode ∉ [Opcode.mqRecvl, .mqSendb, .mqRecvb] →
      ∃ t, exec i s = .next t ∧ t.status.getLsbD 2 = s.status.getLsbD 2 ∧
        ∀ r, t.resps s.cur = s.resps s.cur ++ [r] → r.ending ≠ .fault .ctxViol

/-! ## Control -/

/-- R190: SYS.STATUS, whole, its encoding included. It answers STATUS with bits 15:4 zero and changes no state; it clears no bit. -/
def Obligations.SysStatusReadsTheStickyBits : Prop :=
  DecodesAs 0x0000000000000020 0xFFFFFFFFFFFFFFFF (fun _ _ => .sysStatus) ∧
  ∀ (s : State), s.Inv → ∃ t v, exec .sysStatus s = .next t ∧ OnlyAnswered s t s.cur ⟨.ok, v, []⟩ ∧ v = s.status ∧
    v.extractLsb' 4 12 = 0

/-- R82: the pseudo-instructions: rb.wstr is RB.WM of the string's bytes; rb.rdn is RB.RM with the end marker 0xFFFF, which
copies min(M, N) bytes (in this step when ATOMIC_MULTIBYTE = true); nop is SYS.STATUS, which has no effect on state. -/
def Obligations.PseudoInstructionsDoWhatTheyAreFor : Prop :=
  ∀ (s : State) (b : Byte) (str : List Byte) (m : Half), s.Inv →
    pseudoWstr b str = .rbWm b str ∧ pseudoRdn b m = .rbRm b 0xFFFF m ∧ pseudoNop = .sysStatus ∧
    (s.bufValid b = true → s.isCons s.cur b = true → s.cfg.atomicMultibyte = true → 0 < m.toNat →
      ∃ t out, exec (pseudoRdn b m) s = .next t ∧ BytesRead s b (min m.toNat s.cfg.n) out ∧
        ReadOn s t b (min m.toNat s.cfg.n) ∧
        Answered s t s.cur ⟨.ok, BitVec.ofNat 16 (min m.toNat s.cfg.n), out⟩) ∧
    ∃ t r, exec pseudoNop s = .next t ∧ OnlyAnswered s t s.cur r

/-! ## Waiting, micro-steps and reset -/

/-- R142: the timeout of a waiting request, at any step of the wait and ready or not, ends it with Fail(0) and changes
nothing else. -/
def Obligations.TimeoutEndsTheWait : Prop :=
  ∀ (s : State) (p : Nat) (sched : List Choice) (q v : Byte) (m : Half), s.Inv → s.sched = .timeout p :: sched →
    s.pend p = some (.recvl q m) ∨ s.pend p = some (.sendb q v) ∨ s.pend p = some (.recvb q) →
    ∃ t, step s = .next t ∧ t.pend p = none ∧ t.resps p = s.resps p ++ [⟨.fail .timeout, 0, []⟩] ∧
      (t.port p).todo = (s.port p).todo ∧ (t.port p).unanswered = false ∧
      (∀ p', p' ≠ p → t.port p' = s.port p') ∧ SameBufs s t ∧ SameQueues s t ∧
      t.status = s.status ∧ t.cfg = s.cfg ∧ t.sched = sched ∧ t.draws = s.draws

/-- R142: a waiting request that is ready completes as the same request issued by a port with nothing outstanding would,
and its record is gone before its body runs. -/
def Obligations.ReadyWaiterCompletesAsIfIssued : Prop :=
  ∀ (s : State) (p : Nat) (sched : List Choice) (q v : Byte) (m : Half) (i : Instr), s.Inv →
    s.sched = .complete p :: sched →
    (s.pend p = some (.recvl q m) ∧ i = .mqRecvl q m ∧ (s.queue q).fifo ≠ []) ∨
    (s.pend p = some (.sendb q v) ∧ i = .mqSendb q v ∧ (s.queue q).fifo.length < s.cfg.qcap) ∨
    (s.pend p = some (.recvb q) ∧ i = .mqRecvb q ∧ (s.queue q).fifo ≠ []) →
    ∃ t, exec i { s.setPend p none with sched := sched, cur := p } = .next t ∧ step s = .next { t with cur := s.cur }

/-- R142: completion is enabled only when the readiness condition holds: a waiting request that is not ready goes on
waiting (that the disabled choice is passed over is the model's choice, log entry 2). -/
def Obligations.UnreadyWaiterGoesOnWaiting : Prop :=
  ∀ (s : State) (p : Nat) (sched : List Choice) (q v : Byte) (m : Half), s.sched = .complete p :: sched →
    ((s.pend p = some (.recvl q m) ∨ s.pend p = some (.recvb q)) ∧ (s.queue q).fifo = []) ∨
    (s.pend p = some (.sendb q v) ∧ s.cfg.qcap ≤ (s.queue q).fifo.length) →
    step s = .next { s with sched := sched }

/-- R55: a micro-step of an RB.WM in progress stores the next byte in its cell and moves no cursor; after the last byte one
more step, its own as log entry 13 reads the rule (DEDUCED), moves the write cursor by the length, ends the record and answers. -/
def Obligations.SplitWriteMicroSteps : Prop :=
  ∀ (s : State) (p : Nat) (sched : List Choice) (b : Byte) (data : List Byte) (k w0 : Nat), s.Inv →
    s.sched = .advance p :: sched → s.pend p = some (.wm b data k w0) →
    ∃ t, step s = .next t ∧ SameOtherBufs s t b ∧ SameQueues s t ∧ t.status = s.status ∧ t.rc b = s.rc b ∧
      (∀ p', p' ≠ p → t.port p' = s.port p') ∧ t.cfg = s.cfg ∧ t.sched = sched ∧
      if h : k < data.length then
        t.cell b (w0 + k) = some data[k] ∧
        (∀ i, i % s.cfg.n ≠ (w0 + k) % s.cfg.n → t.cell b i = s.cell b i) ∧ t.wc b = s.wc b ∧
        t.pend p = some (.wm b data (k + 1) w0) ∧ t.resps p = s.resps p
      else
        (∀ i, t.cell b i = s.cell b i) ∧ t.wc b = (w0 + data.length) % s.cfg.n ∧ t.pend p = none ∧
        t.resps p = s.resps p ++
          [if data = [] then ⟨.fail .zeroCount, 0, []⟩ else ⟨.ok, BitVec.ofNat 16 data.length, []⟩]

/-- R55: a micro-step of an RB.RM, or of the drain of an MQ.RECVL, in progress copies one byte and advances the read cursor
while the count has not reached min(E, M, N), and otherwise ends the record and answers the bytes copied, in a step of its own
as log entry 13 reads the rule (DEDUCED). -/
def Obligations.SplitReadMicroSteps : Prop :=
  ∀ (s : State) (p : Nat) (sched : List Choice) (c : Copy) (record : Copy → Pend),
    (record = .rm ∨ ∃ q, record = .drain q) → s.Inv → s.sched = .advance p :: sched → s.pend p = some (record c) →
    ∃ t, step s = .next t ∧ SameOtherBufs s t c.b ∧ SameQueues s t ∧ t.status = s.status ∧
      (∀ p', p' ≠ p → t.port p' = s.port p') ∧ t.cfg = s.cfg ∧ t.sched = sched ∧
      if c.count < min c.e.toNat (min c.m.toNat s.cfg.n) then
        ReadOn s t c.b 1 ∧ t.resps p = s.resps p ∧
        ∃ v, t.pend p = some (record { c with count := c.count + 1, out := c.out ++ [v] }) ∧
          ∀ x, s.cell c.b (s.rc c.b) = some x → v = x
      else
        SameBuf s t c.b ∧ t.pend p = none ∧
        t.resps p = s.resps p ++
          [if c.count = 0 then ⟨.fail .zeroCount, 0, []⟩ else ⟨.ok, BitVec.ofNat 16 c.count, c.out⟩]

/-- R54, R55: an RB.WM split into micro-steps (their number as log entry 13 reads R55, DEDUCED) that nothing interleaves
leaves the state the indivisible one leaves. -/
def Obligations.SplitWriteMatchesTheIndivisibleOne : Prop :=
  ∀ (s : State) (b : Byte) (data : List Byte), s.Inv → s.cfg.atomicMultibyte = false → s.pend s.cur = none →
    s.bufValid b = true → s.isProd s.cur b = true → data.length < s.cfg.n - 1 →
    ∃ t u, exec (.rbWm b data) s = .next t ∧
      exec (.rbWm b data) { s with cfg := { s.cfg with atomicMultibyte := true } } = .next u ∧
      { State.advances s.cur (data.length + 1) t with cfg := u.cfg } = u

/-- R54, R55: an RB.RM split into micro-steps (their number as log entry 13 reads R55, DEDUCED) that nothing interleaves
leaves the state the indivisible one leaves, the bytes it answers included. -/
def Obligations.SplitReadMatchesTheIndivisibleOne : Prop :=
  ∀ (s : State) (b : Byte) (e m : Half), s.Inv → s.cfg.atomicMultibyte = false → s.pend s.cur = none →
    s.bufValid b = true → s.isCons s.cur b = true →
    ∃ t u, exec (.rbRm b e m) s = .next t ∧
      exec (.rbRm b e m) { s with cfg := { s.cfg with atomicMultibyte := true } } = .next u ∧
      { State.advances s.cur (min e.toNat (min m.toNat s.cfg.n) + 1) t with cfg := u.cfg } = u

/-- R54, R55: an MQ.RECVL whose drain is split into micro-steps (their number as log entry 13 reads R55, DEDUCED) that nothing
interleaves leaves the state the indivisible one leaves, the bytes it answers included. -/
def Obligations.SplitDrainMatchesTheIndivisibleOne : Prop :=
  ∀ (s : State) (q b : Byte) (e m : Half) (rest : List Entry), s.Inv → s.cfg.atomicMultibyte = false →
    s.pend s.cur = none → s.queueFault q .line = none → s.isIsr s.cur = false → (s.queue q).fifo = .line b e :: rest →
    s.isCons s.cur b = true →
    ∃ t u, exec (.mqRecvl q m) s = .next t ∧
      exec (.mqRecvl q m) { s with cfg := { s.cfg with atomicMultibyte := true } } = .next u ∧
      { State.advances s.cur (min e.toNat (min m.toNat s.cfg.n) + 1) t with cfg := u.cfg } = u

/-- R230, R35: reset sets every cursor to 0, every cell to UNDEF or 0x00, every queue to not created, STATUS to 0 and every
record to NONE; a request that was outstanding gets no response. -/
def Obligations.ResetEventClearsTheBlock : Prop :=
  ∀ (s : State) (sched : List Choice), s.sched = .reset :: sched →
    ∃ t, step s = .next t ∧ t.cfg = s.cfg ∧
      (∀ b, t.wc b = 0 ∧ t.rc b = 0 ∧
        ∀ i, t.cell b i = if s.cfg.storageReset = .zero then some 0 else none) ∧
      (∀ q, t.queue q = ⟨false, none, []⟩) ∧ t.status = 0 ∧
      (∀ p, t.pend p = none ∧ t.resps p = s.resps p ∧ (t.port p).unanswered = (s.port p).unanswered)

/-- R35: the state after reset, of every legal configuration. -/
def Obligations.ResetStateHoldsTheResetValues : Prop :=
  ∀ c : Config, c.Legal →
    (State.resetOf c).Sized ∧
    (∀ b, (State.resetOf c).wc b = 0 ∧ (State.resetOf c).rc b = 0 ∧
      ∀ i, (State.resetOf c).cell b i = if c.storageReset = .zero then some 0 else none) ∧
    (∀ q, ((State.resetOf c).queue q).created = false ∧ ((State.resetOf c).queue q).shape = none ∧
      ((State.resetOf c).queue q).fifo = []) ∧
    (State.resetOf c).status = 0 ∧ ∀ p, (State.resetOf c).pend p = none

/-! ## Invariants and whole-machine rules -/

/-- The state after reset of every legal configuration meets the invariant, the model's own reset state (whose configuration
is the model's choice, log entry 1) among them. -/
def Obligations.ResetStatesMeetInv : Prop :=
  (∀ c : Config, c.Legal → (State.resetOf c).Inv) ∧ State.reset.Inv

/-- Every step keeps the invariant: cursors below N (R21, R22), canonical storage of written cells 0 .. N-1 (R24), queues
of one shape with at most QCAP entries (R26 to R28), reserved STATUS bits 0 (R29), outstanding records that fit (R31). -/
def Obligations.EveryStepKeepsInv : Prop :=
  ∀ s t : State, s.Inv → step s = .next t → t.Inv

/-- R200, R204: in a state that meets the invariant the block always goes on: a step ends in a next state, never in a stop,
after a fault as before it. -/
def Obligations.TheBlockNeverStops : Prop :=
  ∀ s : State, s.Inv → ∃ t, step s = .next t

/-- R30: a STATUS bit once set stays set at every step that is not reset. -/
def Obligations.StatusBitsAreSticky : Prop :=
  ∀ s t : State, step s = .next t → s.sched.head? ≠ some .reset → s.status &&& t.status = s.status

/-- R7, R34: no step, reset included, changes the configuration (which stands in State by the model's choice, log entry 1). -/
def Obligations.ConfigurationIsFixed : Prop :=
  ∀ s t : State, step s = .next t → t.cfg = s.cfg

/-- R57: at a step that is not reset, a write cursor or a cell of buffer b changes only at a step of port PROD[b], and its
read cursor only at a step of port CONS[b]. -/
def Obligations.OnlyTheBoundPortsMoveABuffer : Prop :=
  ∀ (s t : State) (c : Choice) (sched : List Choice) (b : Byte), s.Inv → s.sched = c :: sched → c ≠ .reset →
    step s = .next t →
    (t.wc b ≠ s.wc b ∨ (∃ i, t.cell b i ≠ s.cell b i) → ∃ p, c.port = some p ∧ s.isProd p b = true) ∧
    (t.rc b ≠ s.rc b → ∃ p, c.port = some p ∧ s.isCons p b = true)

/-- R31, R208: a port whose record is not NONE has had no response to the request it issued last: so it is after reset, and
every step keeps it (the note of the unanswered request is the model's: log entry 21). -/
def Obligations.OutstandingRequestsAreUnanswered : Prop :=
  (∀ c : Config, (State.resetOf c).PendUnanswered) ∧
  ∀ s t : State, s.PendUnanswered → step s = .next t → t.PendUnanswered

/-- R247: a run has ended when no port has a request outstanding or still to issue, or one without its response (the note of
which is the model's: log entry 21); then it has ended for good: every step leaves it ended, and one that is not reset
changes nothing but the schedule (the model's: log entry 2). -/
def Obligations.EndedRunStaysEnded : Prop :=
  (∀ s : State, s.runEnded = true ↔
    ∀ p, s.pend p = none ∧ (s.port p).todo = [] ∧ (s.port p).unanswered = false) ∧
  ∀ s t : State, s.runEnded = true → step s = .next t →
    t.runEnded = true ∧ (s.sched.head? ≠ some .reset → t = { s with sched := s.sched.tail })

/-- R230, R247: where reset drops the last request of a port's sequence, the run has not ended, and no step after it ends it:
the request never gets its response. The note of the unanswered request is the model's (log entry 21). -/
def Obligations.DroppedLastRequestNeverEndsTheRun : Prop :=
  (∀ (s : State) (p : Nat) (sched : List Choice) (x : Pend), s.PendUnanswered → s.sched = .reset :: sched →
    s.pend p = some x → (s.port p).todo = [] →
    ∃ t, step s = .next t ∧ t.pend p = none ∧ (t.port p).todo = [] ∧ (t.port p).unanswered = true ∧
      t.runEnded = false) ∧
  ∀ (s t : State) (p : Nat), s.pend p = none → (s.port p).todo = [] → (s.port p).unanswered = true →
    step s = .next t → t.port p = s.port p ∧ t.runEnded = false

/-- R28, R59, R141: at a step that is not reset, a created queue stays created with its shape, and its entries stay, or get
one more at the tail when the queue was not full, or lose the head. -/
def Obligations.CreatedQueuesAreFifo : Prop :=
  ∀ (s t : State) (q : Byte), s.Inv → s.sched.head? ≠ some .reset → step s = .next t → s.qlive q = true →
    (t.queue q).created = true ∧ (t.queue q).shape = (s.queue q).shape ∧
    ((t.queue q).fifo = (s.queue q).fifo ∨
      (∃ x, (t.queue q).fifo = (s.queue q).fifo ++ [x] ∧ (s.queue q).fifo.length < s.cfg.qcap) ∨
      ∃ x, (s.queue q).fifo = x :: (t.queue q).fifo)

/-- R200: an operation other than MQ.INIT, MQ.RECVL and RB.PUSHL that answers Fail changes nothing else. -/
def Obligations.FailChangesNothingElse : Prop :=
  ∀ (i : Instr) (s t : State) (c : Cause) (v : Half) (d : List Byte), s.Inv →
    i.opcode ∉ [Opcode.mqInit, .mqRecvl, .rbPushl] → exec i s = .next t →
    t.resps s.cur = s.resps s.cur ++ [⟨.fail c, v, d⟩] → OnlyAnswered s t s.cur ⟨.fail c, v, []⟩

/-- R202, R205: an operation that answers a fault, whichever operation it is, has set that fault's STATUS bit and changed
nothing else. -/
def Obligations.FaultChangesOnlyStatus : Prop :=
  ∀ (i : Instr) (s t : State) (f : FaultCode) (v : Half) (d : List Byte), s.Inv → exec i s = .next t →
    t.resps s.cur = s.resps s.cur ++ [⟨.fault f, v, d⟩] → OnlyFaulted s t s.cur f
end

