-- ==== Sys2Proof/Laws/State.lean ====
section
/-! SUPPORT. One lemma per field per update of the state. -/

namespace Sys2Proof.Machine

variable (s : State)

@[simp] theorem State.cfg_setStatus (k : BitVec 16) : (s.setStatus k).cfg = s.cfg := rfl
@[simp] theorem State.bufs_setStatus (k : BitVec 16) : (s.setStatus k).bufs = s.bufs := rfl
@[simp] theorem State.queues_setStatus (k : BitVec 16) : (s.setStatus k).queues = s.queues := rfl
@[simp] theorem State.ports_setStatus (k : BitVec 16) : (s.setStatus k).ports = s.ports := rfl
@[simp] theorem State.cur_setStatus (k : BitVec 16) : (s.setStatus k).cur = s.cur := rfl
@[simp] theorem State.sched_setStatus (k : BitVec 16) : (s.setStatus k).sched = s.sched := rfl
@[simp] theorem State.draws_setStatus (k : BitVec 16) : (s.setStatus k).draws = s.draws := rfl

@[simp] theorem State.status_setStatus (k : BitVec 16) : (s.setStatus k).status = s.status ||| k := rfl

@[simp] theorem State.cfg_setBuf (b : Byte) (x : Buf) : (s.setBuf b x).cfg = s.cfg := rfl
@[simp] theorem State.queues_setBuf (b : Byte) (x : Buf) : (s.setBuf b x).queues = s.queues := rfl
@[simp] theorem State.status_setBuf (b : Byte) (x : Buf) : (s.setBuf b x).status = s.status := rfl
@[simp] theorem State.ports_setBuf (b : Byte) (x : Buf) : (s.setBuf b x).ports = s.ports := rfl
@[simp] theorem State.cur_setBuf (b : Byte) (x : Buf) : (s.setBuf b x).cur = s.cur := rfl
@[simp] theorem State.sched_setBuf (b : Byte) (x : Buf) : (s.setBuf b x).sched = s.sched := rfl
@[simp] theorem State.draws_setBuf (b : Byte) (x : Buf) : (s.setBuf b x).draws = s.draws := rfl

@[simp] theorem State.cfg_setQueue (q : Byte) (x : Queue) : (s.setQueue q x).cfg = s.cfg := rfl
@[simp] theorem State.bufs_setQueue (q : Byte) (x : Queue) : (s.setQueue q x).bufs = s.bufs := rfl
@[simp] theorem State.status_setQueue (q : Byte) (x : Queue) : (s.setQueue q x).status = s.status := rfl
@[simp] theorem State.ports_setQueue (q : Byte) (x : Queue) : (s.setQueue q x).ports = s.ports := rfl
@[simp] theorem State.cur_setQueue (q : Byte) (x : Queue) : (s.setQueue q x).cur = s.cur := rfl
@[simp] theorem State.sched_setQueue (q : Byte) (x : Queue) : (s.setQueue q x).sched = s.sched := rfl
@[simp] theorem State.draws_setQueue (q : Byte) (x : Queue) : (s.setQueue q x).draws = s.draws := rfl

@[simp] theorem State.cfg_setPort (p : Nat) (x : Port) : (s.setPort p x).cfg = s.cfg := rfl
@[simp] theorem State.bufs_setPort (p : Nat) (x : Port) : (s.setPort p x).bufs = s.bufs := rfl
@[simp] theorem State.queues_setPort (p : Nat) (x : Port) : (s.setPort p x).queues = s.queues := rfl
@[simp] theorem State.status_setPort (p : Nat) (x : Port) : (s.setPort p x).status = s.status := rfl
@[simp] theorem State.cur_setPort (p : Nat) (x : Port) : (s.setPort p x).cur = s.cur := rfl
@[simp] theorem State.sched_setPort (p : Nat) (x : Port) : (s.setPort p x).sched = s.sched := rfl
@[simp] theorem State.draws_setPort (p : Nat) (x : Port) : (s.setPort p x).draws = s.draws := rfl

@[simp] theorem State.cfg_setWc (b : Byte) (v : Nat) : (s.setWc b v).cfg = s.cfg := rfl
@[simp] theorem State.queues_setWc (b : Byte) (v : Nat) : (s.setWc b v).queues = s.queues := rfl
@[simp] theorem State.status_setWc (b : Byte) (v : Nat) : (s.setWc b v).status = s.status := rfl
@[simp] theorem State.ports_setWc (b : Byte) (v : Nat) : (s.setWc b v).ports = s.ports := rfl
@[simp] theorem State.cur_setWc (b : Byte) (v : Nat) : (s.setWc b v).cur = s.cur := rfl
@[simp] theorem State.sched_setWc (b : Byte) (v : Nat) : (s.setWc b v).sched = s.sched := rfl
@[simp] theorem State.draws_setWc (b : Byte) (v : Nat) : (s.setWc b v).draws = s.draws := rfl

@[simp] theorem State.cfg_setRc (b : Byte) (v : Nat) : (s.setRc b v).cfg = s.cfg := rfl
@[simp] theorem State.queues_setRc (b : Byte) (v : Nat) : (s.setRc b v).queues = s.queues := rfl
@[simp] theorem State.status_setRc (b : Byte) (v : Nat) : (s.setRc b v).status = s.status := rfl
@[simp] theorem State.ports_setRc (b : Byte) (v : Nat) : (s.setRc b v).ports = s.ports := rfl
@[simp] theorem State.cur_setRc (b : Byte) (v : Nat) : (s.setRc b v).cur = s.cur := rfl
@[simp] theorem State.sched_setRc (b : Byte) (v : Nat) : (s.setRc b v).sched = s.sched := rfl
@[simp] theorem State.draws_setRc (b : Byte) (v : Nat) : (s.setRc b v).draws = s.draws := rfl

@[simp] theorem State.cfg_memWrite (b : Byte) (i : Nat) (v : Byte) : (s.memWrite b i v).cfg = s.cfg := rfl
@[simp] theorem State.queues_memWrite (b : Byte) (i : Nat) (v : Byte) : (s.memWrite b i v).queues = s.queues := rfl
@[simp] theorem State.status_memWrite (b : Byte) (i : Nat) (v : Byte) : (s.memWrite b i v).status = s.status := rfl
@[simp] theorem State.ports_memWrite (b : Byte) (i : Nat) (v : Byte) : (s.memWrite b i v).ports = s.ports := rfl
@[simp] theorem State.cur_memWrite (b : Byte) (i : Nat) (v : Byte) : (s.memWrite b i v).cur = s.cur := rfl
@[simp] theorem State.sched_memWrite (b : Byte) (i : Nat) (v : Byte) : (s.memWrite b i v).sched = s.sched := rfl
@[simp] theorem State.draws_memWrite (b : Byte) (i : Nat) (v : Byte) : (s.memWrite b i v).draws = s.draws := rfl

@[simp] theorem State.cfg_enqueue (q : Byte) (x : Entry) : (s.enqueue q x).cfg = s.cfg := rfl
@[simp] theorem State.bufs_enqueue (q : Byte) (x : Entry) : (s.enqueue q x).bufs = s.bufs := rfl
@[simp] theorem State.status_enqueue (q : Byte) (x : Entry) : (s.enqueue q x).status = s.status := rfl
@[simp] theorem State.ports_enqueue (q : Byte) (x : Entry) : (s.enqueue q x).ports = s.ports := rfl
@[simp] theorem State.cur_enqueue (q : Byte) (x : Entry) : (s.enqueue q x).cur = s.cur := rfl
@[simp] theorem State.sched_enqueue (q : Byte) (x : Entry) : (s.enqueue q x).sched = s.sched := rfl
@[simp] theorem State.draws_enqueue (q : Byte) (x : Entry) : (s.enqueue q x).draws = s.draws := rfl

@[simp] theorem State.cfg_dropHead (q : Byte) : (s.dropHead q).cfg = s.cfg := rfl
@[simp] theorem State.bufs_dropHead (q : Byte) : (s.dropHead q).bufs = s.bufs := rfl
@[simp] theorem State.status_dropHead (q : Byte) : (s.dropHead q).status = s.status := rfl
@[simp] theorem State.ports_dropHead (q : Byte) : (s.dropHead q).ports = s.ports := rfl
@[simp] theorem State.cur_dropHead (q : Byte) : (s.dropHead q).cur = s.cur := rfl
@[simp] theorem State.sched_dropHead (q : Byte) : (s.dropHead q).sched = s.sched := rfl
@[simp] theorem State.draws_dropHead (q : Byte) : (s.dropHead q).draws = s.draws := rfl

@[simp] theorem State.cfg_setPend (p : Nat) (x : Option Pend) : (s.setPend p x).cfg = s.cfg := rfl
@[simp] theorem State.bufs_setPend (p : Nat) (x : Option Pend) : (s.setPend p x).bufs = s.bufs := rfl
@[simp] theorem State.queues_setPend (p : Nat) (x : Option Pend) : (s.setPend p x).queues = s.queues := rfl
@[simp] theorem State.status_setPend (p : Nat) (x : Option Pend) : (s.setPend p x).status = s.status := rfl
@[simp] theorem State.cur_setPend (p : Nat) (x : Option Pend) : (s.setPend p x).cur = s.cur := rfl
@[simp] theorem State.sched_setPend (p : Nat) (x : Option Pend) : (s.setPend p x).sched = s.sched := rfl
@[simp] theorem State.draws_setPend (p : Nat) (x : Option Pend) : (s.setPend p x).draws = s.draws := rfl

@[simp] theorem State.cfg_respond (p : Nat) (r : Response) : (s.respond p r).cfg = s.cfg := rfl
@[simp] theorem State.bufs_respond (p : Nat) (r : Response) : (s.respond p r).bufs = s.bufs := rfl
@[simp] theorem State.queues_respond (p : Nat) (r : Response) : (s.respond p r).queues = s.queues := rfl
@[simp] theorem State.status_respond (p : Nat) (r : Response) : (s.respond p r).status = s.status := rfl
@[simp] theorem State.cur_respond (p : Nat) (r : Response) : (s.respond p r).cur = s.cur := rfl
@[simp] theorem State.sched_respond (p : Nat) (r : Response) : (s.respond p r).sched = s.sched := rfl
@[simp] theorem State.draws_respond (p : Nat) (r : Response) : (s.respond p r).draws = s.draws := rfl

@[simp] theorem State.ok_eq_respond (p : Nat) (v : Half) (d : List Byte) : s.ok p v d = s.respond p ⟨.ok, v, d⟩ := rfl
@[simp] theorem State.fail_eq_respond (p : Nat) (c : Cause) (v : Half) : s.fail p c v = s.respond p ⟨.fail c, v, []⟩ := rfl
@[simp] theorem State.raise_eq_respond (p : Nat) (f : FaultCode) :
    s.raise p f = (s.setStatus f.statusBit).respond p ⟨.fault f, 0, []⟩ := rfl

end Sys2Proof.Machine
end

