-- ==== Sys2Proof/Laws/Access.lean ====
section
/-! SUPPORT. What the accessors read after an update that does not touch what they read. -/

namespace Sys2Proof.Machine

variable (s : State)

@[simp] theorem State.bufValid_setStatus (k : BitVec 16) (c : Byte) :
    (s.setStatus k : State).bufValid c = s.bufValid c := rfl
@[simp] theorem State.bufValid_setBuf (b : Byte) (x : Buf) (c : Byte) :
    (s.setBuf b x : State).bufValid c = s.bufValid c := rfl
@[simp] theorem State.bufValid_setQueue (q : Byte) (x : Queue) (c : Byte) :
    (s.setQueue q x : State).bufValid c = s.bufValid c := rfl
@[simp] theorem State.bufValid_setPort (p : Nat) (x : Port) (c : Byte) :
    (s.setPort p x : State).bufValid c = s.bufValid c := rfl
@[simp] theorem State.bufValid_setWc (b : Byte) (v : Nat) (c : Byte) :
    (s.setWc b v : State).bufValid c = s.bufValid c := rfl
@[simp] theorem State.bufValid_setRc (b : Byte) (v : Nat) (c : Byte) :
    (s.setRc b v : State).bufValid c = s.bufValid c := rfl
@[simp] theorem State.bufValid_memWrite (b : Byte) (i : Nat) (v : Byte) (c : Byte) :
    (s.memWrite b i v : State).bufValid c = s.bufValid c := rfl
@[simp] theorem State.bufValid_enqueue (q : Byte) (x : Entry) (c : Byte) :
    (s.enqueue q x : State).bufValid c = s.bufValid c := rfl
@[simp] theorem State.bufValid_dropHead (q : Byte) (c : Byte) :
    (s.dropHead q : State).bufValid c = s.bufValid c := rfl
@[simp] theorem State.bufValid_setPend (p : Nat) (x : Option Pend) (c : Byte) :
    (s.setPend p x : State).bufValid c = s.bufValid c := rfl
@[simp] theorem State.bufValid_respond (p : Nat) (r : Response) (c : Byte) :
    (s.respond p r : State).bufValid c = s.bufValid c := rfl
@[simp] theorem State.bufValid_withDraws (d : Nat) (c : Byte) :
    ({ s with draws := d } : State).bufValid c = s.bufValid c := rfl
@[simp] theorem State.bufValid_withSched (l : List Choice) (c : Byte) :
    ({ s with sched := l } : State).bufValid c = s.bufValid c := rfl
@[simp] theorem State.bufValid_withCur (p : Nat) (c : Byte) :
    ({ s with cur := p } : State).bufValid c = s.bufValid c := rfl

@[simp] theorem State.isProd_setStatus (k : BitVec 16) (p' : Nat) (c : Byte) :
    (s.setStatus k : State).isProd p' c = s.isProd p' c := rfl
@[simp] theorem State.isProd_setBuf (b : Byte) (x : Buf) (p' : Nat) (c : Byte) :
    (s.setBuf b x : State).isProd p' c = s.isProd p' c := rfl
@[simp] theorem State.isProd_setQueue (q : Byte) (x : Queue) (p' : Nat) (c : Byte) :
    (s.setQueue q x : State).isProd p' c = s.isProd p' c := rfl
@[simp] theorem State.isProd_setPort (p : Nat) (x : Port) (p' : Nat) (c : Byte) :
    (s.setPort p x : State).isProd p' c = s.isProd p' c := rfl
@[simp] theorem State.isProd_setWc (b : Byte) (v : Nat) (p' : Nat) (c : Byte) :
    (s.setWc b v : State).isProd p' c = s.isProd p' c := rfl
@[simp] theorem State.isProd_setRc (b : Byte) (v : Nat) (p' : Nat) (c : Byte) :
    (s.setRc b v : State).isProd p' c = s.isProd p' c := rfl
@[simp] theorem State.isProd_memWrite (b : Byte) (i : Nat) (v : Byte) (p' : Nat) (c : Byte) :
    (s.memWrite b i v : State).isProd p' c = s.isProd p' c := rfl
@[simp] theorem State.isProd_enqueue (q : Byte) (x : Entry) (p' : Nat) (c : Byte) :
    (s.enqueue q x : State).isProd p' c = s.isProd p' c := rfl
@[simp] theorem State.isProd_dropHead (q : Byte) (p' : Nat) (c : Byte) :
    (s.dropHead q : State).isProd p' c = s.isProd p' c := rfl
@[simp] theorem State.isProd_setPend (p : Nat) (x : Option Pend) (p' : Nat) (c : Byte) :
    (s.setPend p x : State).isProd p' c = s.isProd p' c := rfl
@[simp] theorem State.isProd_respond (p : Nat) (r : Response) (p' : Nat) (c : Byte) :
    (s.respond p r : State).isProd p' c = s.isProd p' c := rfl
@[simp] theorem State.isProd_withDraws (d : Nat) (p' : Nat) (c : Byte) :
    ({ s with draws := d } : State).isProd p' c = s.isProd p' c := rfl
@[simp] theorem State.isProd_withSched (l : List Choice) (p' : Nat) (c : Byte) :
    ({ s with sched := l } : State).isProd p' c = s.isProd p' c := rfl
@[simp] theorem State.isProd_withCur (p : Nat) (p' : Nat) (c : Byte) :
    ({ s with cur := p } : State).isProd p' c = s.isProd p' c := rfl

@[simp] theorem State.isCons_setStatus (k : BitVec 16) (p' : Nat) (c : Byte) :
    (s.setStatus k : State).isCons p' c = s.isCons p' c := rfl
@[simp] theorem State.isCons_setBuf (b : Byte) (x : Buf) (p' : Nat) (c : Byte) :
    (s.setBuf b x : State).isCons p' c = s.isCons p' c := rfl
@[simp] theorem State.isCons_setQueue (q : Byte) (x : Queue) (p' : Nat) (c : Byte) :
    (s.setQueue q x : State).isCons p' c = s.isCons p' c := rfl
@[simp] theorem State.isCons_setPort (p : Nat) (x : Port) (p' : Nat) (c : Byte) :
    (s.setPort p x : State).isCons p' c = s.isCons p' c := rfl
@[simp] theorem State.isCons_setWc (b : Byte) (v : Nat) (p' : Nat) (c : Byte) :
    (s.setWc b v : State).isCons p' c = s.isCons p' c := rfl
@[simp] theorem State.isCons_setRc (b : Byte) (v : Nat) (p' : Nat) (c : Byte) :
    (s.setRc b v : State).isCons p' c = s.isCons p' c := rfl
@[simp] theorem State.isCons_memWrite (b : Byte) (i : Nat) (v : Byte) (p' : Nat) (c : Byte) :
    (s.memWrite b i v : State).isCons p' c = s.isCons p' c := rfl
@[simp] theorem State.isCons_enqueue (q : Byte) (x : Entry) (p' : Nat) (c : Byte) :
    (s.enqueue q x : State).isCons p' c = s.isCons p' c := rfl
@[simp] theorem State.isCons_dropHead (q : Byte) (p' : Nat) (c : Byte) :
    (s.dropHead q : State).isCons p' c = s.isCons p' c := rfl
@[simp] theorem State.isCons_setPend (p : Nat) (x : Option Pend) (p' : Nat) (c : Byte) :
    (s.setPend p x : State).isCons p' c = s.isCons p' c := rfl
@[simp] theorem State.isCons_respond (p : Nat) (r : Response) (p' : Nat) (c : Byte) :
    (s.respond p r : State).isCons p' c = s.isCons p' c := rfl
@[simp] theorem State.isCons_withDraws (d : Nat) (p' : Nat) (c : Byte) :
    ({ s with draws := d } : State).isCons p' c = s.isCons p' c := rfl
@[simp] theorem State.isCons_withSched (l : List Choice) (p' : Nat) (c : Byte) :
    ({ s with sched := l } : State).isCons p' c = s.isCons p' c := rfl
@[simp] theorem State.isCons_withCur (p : Nat) (p' : Nat) (c : Byte) :
    ({ s with cur := p } : State).isCons p' c = s.isCons p' c := rfl

@[simp] theorem State.isIsr_setStatus (k : BitVec 16) (p' : Nat) :
    (s.setStatus k : State).isIsr p' = s.isIsr p' := rfl
@[simp] theorem State.isIsr_setBuf (b : Byte) (x : Buf) (p' : Nat) :
    (s.setBuf b x : State).isIsr p' = s.isIsr p' := rfl
@[simp] theorem State.isIsr_setQueue (q : Byte) (x : Queue) (p' : Nat) :
    (s.setQueue q x : State).isIsr p' = s.isIsr p' := rfl
@[simp] theorem State.isIsr_setPort (p : Nat) (x : Port) (p' : Nat) :
    (s.setPort p x : State).isIsr p' = s.isIsr p' := rfl
@[simp] theorem State.isIsr_setWc (b : Byte) (v : Nat) (p' : Nat) :
    (s.setWc b v : State).isIsr p' = s.isIsr p' := rfl
@[simp] theorem State.isIsr_setRc (b : Byte) (v : Nat) (p' : Nat) :
    (s.setRc b v : State).isIsr p' = s.isIsr p' := rfl
@[simp] theorem State.isIsr_memWrite (b : Byte) (i : Nat) (v : Byte) (p' : Nat) :
    (s.memWrite b i v : State).isIsr p' = s.isIsr p' := rfl
@[simp] theorem State.isIsr_enqueue (q : Byte) (x : Entry) (p' : Nat) :
    (s.enqueue q x : State).isIsr p' = s.isIsr p' := rfl
@[simp] theorem State.isIsr_dropHead (q : Byte) (p' : Nat) :
    (s.dropHead q : State).isIsr p' = s.isIsr p' := rfl
@[simp] theorem State.isIsr_setPend (p : Nat) (x : Option Pend) (p' : Nat) :
    (s.setPend p x : State).isIsr p' = s.isIsr p' := rfl
@[simp] theorem State.isIsr_respond (p : Nat) (r : Response) (p' : Nat) :
    (s.respond p r : State).isIsr p' = s.isIsr p' := rfl
@[simp] theorem State.isIsr_withDraws (d : Nat) (p' : Nat) :
    ({ s with draws := d } : State).isIsr p' = s.isIsr p' := rfl
@[simp] theorem State.isIsr_withSched (l : List Choice) (p' : Nat) :
    ({ s with sched := l } : State).isIsr p' = s.isIsr p' := rfl
@[simp] theorem State.isIsr_withCur (p : Nat) (p' : Nat) :
    ({ s with cur := p } : State).isIsr p' = s.isIsr p' := rfl

@[simp] theorem State.unlisted_setStatus (k : BitVec 16) :
    (s.setStatus k : State).unlisted = s.unlisted := rfl
@[simp] theorem State.unlisted_setBuf (b : Byte) (x : Buf) :
    (s.setBuf b x : State).unlisted = s.unlisted := rfl
@[simp] theorem State.unlisted_setQueue (q : Byte) (x : Queue) :
    (s.setQueue q x : State).unlisted = s.unlisted := rfl
@[simp] theorem State.unlisted_setPort (p : Nat) (x : Port) :
    (s.setPort p x : State).unlisted = s.unlisted := rfl
@[simp] theorem State.unlisted_setWc (b : Byte) (v : Nat) :
    (s.setWc b v : State).unlisted = s.unlisted := rfl
@[simp] theorem State.unlisted_setRc (b : Byte) (v : Nat) :
    (s.setRc b v : State).unlisted = s.unlisted := rfl
@[simp] theorem State.unlisted_memWrite (b : Byte) (i : Nat) (v : Byte) :
    (s.memWrite b i v : State).unlisted = s.unlisted := rfl
@[simp] theorem State.unlisted_enqueue (q : Byte) (x : Entry) :
    (s.enqueue q x : State).unlisted = s.unlisted := rfl
@[simp] theorem State.unlisted_dropHead (q : Byte) :
    (s.dropHead q : State).unlisted = s.unlisted := rfl
@[simp] theorem State.unlisted_setPend (p : Nat) (x : Option Pend) :
    (s.setPend p x : State).unlisted = s.unlisted := rfl
@[simp] theorem State.unlisted_respond (p : Nat) (r : Response) :
    (s.respond p r : State).unlisted = s.unlisted := rfl
@[simp] theorem State.unlisted_withDraws (d : Nat) :
    ({ s with draws := d } : State).unlisted = s.unlisted := rfl
@[simp] theorem State.unlisted_withSched (l : List Choice) :
    ({ s with sched := l } : State).unlisted = s.unlisted := rfl
@[simp] theorem State.unlisted_withCur (p : Nat) :
    ({ s with cur := p } : State).unlisted = s.unlisted := rfl

@[simp] theorem State.buf_setStatus (k : BitVec 16) (c : Byte) :
    (s.setStatus k : State).buf c = s.buf c := rfl
@[simp] theorem State.buf_setQueue (q : Byte) (x : Queue) (c : Byte) :
    (s.setQueue q x : State).buf c = s.buf c := rfl
@[simp] theorem State.buf_setPort (p : Nat) (x : Port) (c : Byte) :
    (s.setPort p x : State).buf c = s.buf c := rfl
@[simp] theorem State.buf_enqueue (q : Byte) (x : Entry) (c : Byte) :
    (s.enqueue q x : State).buf c = s.buf c := rfl
@[simp] theorem State.buf_dropHead (q : Byte) (c : Byte) :
    (s.dropHead q : State).buf c = s.buf c := rfl
@[simp] theorem State.buf_setPend (p : Nat) (x : Option Pend) (c : Byte) :
    (s.setPend p x : State).buf c = s.buf c := rfl
@[simp] theorem State.buf_respond (p : Nat) (r : Response) (c : Byte) :
    (s.respond p r : State).buf c = s.buf c := rfl
@[simp] theorem State.buf_withDraws (d : Nat) (c : Byte) :
    ({ s with draws := d } : State).buf c = s.buf c := rfl
@[simp] theorem State.buf_withSched (l : List Choice) (c : Byte) :
    ({ s with sched := l } : State).buf c = s.buf c := rfl
@[simp] theorem State.buf_withCur (p : Nat) (c : Byte) :
    ({ s with cur := p } : State).buf c = s.buf c := rfl

@[simp] theorem State.wc_setStatus (k : BitVec 16) (c : Byte) :
    (s.setStatus k : State).wc c = s.wc c := rfl
@[simp] theorem State.wc_setQueue (q : Byte) (x : Queue) (c : Byte) :
    (s.setQueue q x : State).wc c = s.wc c := rfl
@[simp] theorem State.wc_setPort (p : Nat) (x : Port) (c : Byte) :
    (s.setPort p x : State).wc c = s.wc c := rfl
@[simp] theorem State.wc_enqueue (q : Byte) (x : Entry) (c : Byte) :
    (s.enqueue q x : State).wc c = s.wc c := rfl
@[simp] theorem State.wc_dropHead (q : Byte) (c : Byte) :
    (s.dropHead q : State).wc c = s.wc c := rfl
@[simp] theorem State.wc_setPend (p : Nat) (x : Option Pend) (c : Byte) :
    (s.setPend p x : State).wc c = s.wc c := rfl
@[simp] theorem State.wc_respond (p : Nat) (r : Response) (c : Byte) :
    (s.respond p r : State).wc c = s.wc c := rfl
@[simp] theorem State.wc_withDraws (d : Nat) (c : Byte) :
    ({ s with draws := d } : State).wc c = s.wc c := rfl
@[simp] theorem State.wc_withSched (l : List Choice) (c : Byte) :
    ({ s with sched := l } : State).wc c = s.wc c := rfl
@[simp] theorem State.wc_withCur (p : Nat) (c : Byte) :
    ({ s with cur := p } : State).wc c = s.wc c := rfl

@[simp] theorem State.rc_setStatus (k : BitVec 16) (c : Byte) :
    (s.setStatus k : State).rc c = s.rc c := rfl
@[simp] theorem State.rc_setQueue (q : Byte) (x : Queue) (c : Byte) :
    (s.setQueue q x : State).rc c = s.rc c := rfl
@[simp] theorem State.rc_setPort (p : Nat) (x : Port) (c : Byte) :
    (s.setPort p x : State).rc c = s.rc c := rfl
@[simp] theorem State.rc_enqueue (q : Byte) (x : Entry) (c : Byte) :
    (s.enqueue q x : State).rc c = s.rc c := rfl
@[simp] theorem State.rc_dropHead (q : Byte) (c : Byte) :
    (s.dropHead q : State).rc c = s.rc c := rfl
@[simp] theorem State.rc_setPend (p : Nat) (x : Option Pend) (c : Byte) :
    (s.setPend p x : State).rc c = s.rc c := rfl
@[simp] theorem State.rc_respond (p : Nat) (r : Response) (c : Byte) :
    (s.respond p r : State).rc c = s.rc c := rfl
@[simp] theorem State.rc_withDraws (d : Nat) (c : Byte) :
    ({ s with draws := d } : State).rc c = s.rc c := rfl
@[simp] theorem State.rc_withSched (l : List Choice) (c : Byte) :
    ({ s with sched := l } : State).rc c = s.rc c := rfl
@[simp] theorem State.rc_withCur (p : Nat) (c : Byte) :
    ({ s with cur := p } : State).rc c = s.rc c := rfl

@[simp] theorem State.cell_setStatus (k : BitVec 16) (c : Byte) (i' : Nat) :
    (s.setStatus k : State).cell c i' = s.cell c i' := rfl
@[simp] theorem State.cell_setQueue (q : Byte) (x : Queue) (c : Byte) (i' : Nat) :
    (s.setQueue q x : State).cell c i' = s.cell c i' := rfl
@[simp] theorem State.cell_setPort (p : Nat) (x : Port) (c : Byte) (i' : Nat) :
    (s.setPort p x : State).cell c i' = s.cell c i' := rfl
@[simp] theorem State.cell_enqueue (q : Byte) (x : Entry) (c : Byte) (i' : Nat) :
    (s.enqueue q x : State).cell c i' = s.cell c i' := rfl
@[simp] theorem State.cell_dropHead (q : Byte) (c : Byte) (i' : Nat) :
    (s.dropHead q : State).cell c i' = s.cell c i' := rfl
@[simp] theorem State.cell_setPend (p : Nat) (x : Option Pend) (c : Byte) (i' : Nat) :
    (s.setPend p x : State).cell c i' = s.cell c i' := rfl
@[simp] theorem State.cell_respond (p : Nat) (r : Response) (c : Byte) (i' : Nat) :
    (s.respond p r : State).cell c i' = s.cell c i' := rfl
@[simp] theorem State.cell_withDraws (d : Nat) (c : Byte) (i' : Nat) :
    ({ s with draws := d } : State).cell c i' = s.cell c i' := rfl
@[simp] theorem State.cell_withSched (l : List Choice) (c : Byte) (i' : Nat) :
    ({ s with sched := l } : State).cell c i' = s.cell c i' := rfl
@[simp] theorem State.cell_withCur (p : Nat) (c : Byte) (i' : Nat) :
    ({ s with cur := p } : State).cell c i' = s.cell c i' := rfl

@[simp] theorem State.queue_setStatus (k : BitVec 16) (c : Byte) :
    (s.setStatus k : State).queue c = s.queue c := rfl
@[simp] theorem State.queue_setBuf (b : Byte) (x : Buf) (c : Byte) :
    (s.setBuf b x : State).queue c = s.queue c := rfl
@[simp] theorem State.queue_setPort (p : Nat) (x : Port) (c : Byte) :
    (s.setPort p x : State).queue c = s.queue c := rfl
@[simp] theorem State.queue_setWc (b : Byte) (v : Nat) (c : Byte) :
    (s.setWc b v : State).queue c = s.queue c := rfl
@[simp] theorem State.queue_setRc (b : Byte) (v : Nat) (c : Byte) :
    (s.setRc b v : State).queue c = s.queue c := rfl
@[simp] theorem State.queue_memWrite (b : Byte) (i : Nat) (v : Byte) (c : Byte) :
    (s.memWrite b i v : State).queue c = s.queue c := rfl
@[simp] theorem State.queue_setPend (p : Nat) (x : Option Pend) (c : Byte) :
    (s.setPend p x : State).queue c = s.queue c := rfl
@[simp] theorem State.queue_respond (p : Nat) (r : Response) (c : Byte) :
    (s.respond p r : State).queue c = s.queue c := rfl
@[simp] theorem State.queue_withDraws (d : Nat) (c : Byte) :
    ({ s with draws := d } : State).queue c = s.queue c := rfl
@[simp] theorem State.queue_withSched (l : List Choice) (c : Byte) :
    ({ s with sched := l } : State).queue c = s.queue c := rfl
@[simp] theorem State.queue_withCur (p : Nat) (c : Byte) :
    ({ s with cur := p } : State).queue c = s.queue c := rfl

@[simp] theorem State.qlive_setStatus (k : BitVec 16) (c : Byte) :
    (s.setStatus k : State).qlive c = s.qlive c := rfl
@[simp] theorem State.qlive_setBuf (b : Byte) (x : Buf) (c : Byte) :
    (s.setBuf b x : State).qlive c = s.qlive c := rfl
@[simp] theorem State.qlive_setPort (p : Nat) (x : Port) (c : Byte) :
    (s.setPort p x : State).qlive c = s.qlive c := rfl
@[simp] theorem State.qlive_setWc (b : Byte) (v : Nat) (c : Byte) :
    (s.setWc b v : State).qlive c = s.qlive c := rfl
@[simp] theorem State.qlive_setRc (b : Byte) (v : Nat) (c : Byte) :
    (s.setRc b v : State).qlive c = s.qlive c := rfl
@[simp] theorem State.qlive_memWrite (b : Byte) (i : Nat) (v : Byte) (c : Byte) :
    (s.memWrite b i v : State).qlive c = s.qlive c := rfl
@[simp] theorem State.qlive_setPend (p : Nat) (x : Option Pend) (c : Byte) :
    (s.setPend p x : State).qlive c = s.qlive c := rfl
@[simp] theorem State.qlive_respond (p : Nat) (r : Response) (c : Byte) :
    (s.respond p r : State).qlive c = s.qlive c := rfl
@[simp] theorem State.qlive_withDraws (d : Nat) (c : Byte) :
    ({ s with draws := d } : State).qlive c = s.qlive c := rfl
@[simp] theorem State.qlive_withSched (l : List Choice) (c : Byte) :
    ({ s with sched := l } : State).qlive c = s.qlive c := rfl
@[simp] theorem State.qlive_withCur (p : Nat) (c : Byte) :
    ({ s with cur := p } : State).qlive c = s.qlive c := rfl

@[simp] theorem State.queueFault_setStatus (k : BitVec 16) (c : Byte) (sh : Shape) :
    (s.setStatus k : State).queueFault c sh = s.queueFault c sh := rfl
@[simp] theorem State.queueFault_setBuf (b : Byte) (x : Buf) (c : Byte) (sh : Shape) :
    (s.setBuf b x : State).queueFault c sh = s.queueFault c sh := rfl
@[simp] theorem State.queueFault_setPort (p : Nat) (x : Port) (c : Byte) (sh : Shape) :
    (s.setPort p x : State).queueFault c sh = s.queueFault c sh := rfl
@[simp] theorem State.queueFault_setWc (b : Byte) (v : Nat) (c : Byte) (sh : Shape) :
    (s.setWc b v : State).queueFault c sh = s.queueFault c sh := rfl
@[simp] theorem State.queueFault_setRc (b : Byte) (v : Nat) (c : Byte) (sh : Shape) :
    (s.setRc b v : State).queueFault c sh = s.queueFault c sh := rfl
@[simp] theorem State.queueFault_memWrite (b : Byte) (i : Nat) (v : Byte) (c : Byte) (sh : Shape) :
    (s.memWrite b i v : State).queueFault c sh = s.queueFault c sh := rfl
@[simp] theorem State.queueFault_setPend (p : Nat) (x : Option Pend) (c : Byte) (sh : Shape) :
    (s.setPend p x : State).queueFault c sh = s.queueFault c sh := rfl
@[simp] theorem State.queueFault_respond (p : Nat) (r : Response) (c : Byte) (sh : Shape) :
    (s.respond p r : State).queueFault c sh = s.queueFault c sh := rfl
@[simp] theorem State.queueFault_withDraws (d : Nat) (c : Byte) (sh : Shape) :
    ({ s with draws := d } : State).queueFault c sh = s.queueFault c sh := rfl
@[simp] theorem State.queueFault_withSched (l : List Choice) (c : Byte) (sh : Shape) :
    ({ s with sched := l } : State).queueFault c sh = s.queueFault c sh := rfl
@[simp] theorem State.queueFault_withCur (p : Nat) (c : Byte) (sh : Shape) :
    ({ s with cur := p } : State).queueFault c sh = s.queueFault c sh := rfl

@[simp] theorem State.full_setStatus (k : BitVec 16) (c : Byte) :
    (s.setStatus k : State).full c = s.full c := rfl
@[simp] theorem State.full_setBuf (b : Byte) (x : Buf) (c : Byte) :
    (s.setBuf b x : State).full c = s.full c := rfl
@[simp] theorem State.full_setPort (p : Nat) (x : Port) (c : Byte) :
    (s.setPort p x : State).full c = s.full c := rfl
@[simp] theorem State.full_setWc (b : Byte) (v : Nat) (c : Byte) :
    (s.setWc b v : State).full c = s.full c := rfl
@[simp] theorem State.full_setRc (b : Byte) (v : Nat) (c : Byte) :
    (s.setRc b v : State).full c = s.full c := rfl
@[simp] theorem State.full_memWrite (b : Byte) (i : Nat) (v : Byte) (c : Byte) :
    (s.memWrite b i v : State).full c = s.full c := rfl
@[simp] theorem State.full_setPend (p : Nat) (x : Option Pend) (c : Byte) :
    (s.setPend p x : State).full c = s.full c := rfl
@[simp] theorem State.full_respond (p : Nat) (r : Response) (c : Byte) :
    (s.respond p r : State).full c = s.full c := rfl
@[simp] theorem State.full_withDraws (d : Nat) (c : Byte) :
    ({ s with draws := d } : State).full c = s.full c := rfl
@[simp] theorem State.full_withSched (l : List Choice) (c : Byte) :
    ({ s with sched := l } : State).full c = s.full c := rfl
@[simp] theorem State.full_withCur (p : Nat) (c : Byte) :
    ({ s with cur := p } : State).full c = s.full c := rfl

@[simp] theorem State.nonempty_setStatus (k : BitVec 16) (c : Byte) :
    (s.setStatus k : State).nonempty c = s.nonempty c := rfl
@[simp] theorem State.nonempty_setBuf (b : Byte) (x : Buf) (c : Byte) :
    (s.setBuf b x : State).nonempty c = s.nonempty c := rfl
@[simp] theorem State.nonempty_setPort (p : Nat) (x : Port) (c : Byte) :
    (s.setPort p x : State).nonempty c = s.nonempty c := rfl
@[simp] theorem State.nonempty_setWc (b : Byte) (v : Nat) (c : Byte) :
    (s.setWc b v : State).nonempty c = s.nonempty c := rfl
@[simp] theorem State.nonempty_setRc (b : Byte) (v : Nat) (c : Byte) :
    (s.setRc b v : State).nonempty c = s.nonempty c := rfl
@[simp] theorem State.nonempty_memWrite (b : Byte) (i : Nat) (v : Byte) (c : Byte) :
    (s.memWrite b i v : State).nonempty c = s.nonempty c := rfl
@[simp] theorem State.nonempty_setPend (p : Nat) (x : Option Pend) (c : Byte) :
    (s.setPend p x : State).nonempty c = s.nonempty c := rfl
@[simp] theorem State.nonempty_respond (p : Nat) (r : Response) (c : Byte) :
    (s.respond p r : State).nonempty c = s.nonempty c := rfl
@[simp] theorem State.nonempty_withDraws (d : Nat) (c : Byte) :
    ({ s with draws := d } : State).nonempty c = s.nonempty c := rfl
@[simp] theorem State.nonempty_withSched (l : List Choice) (c : Byte) :
    ({ s with sched := l } : State).nonempty c = s.nonempty c := rfl
@[simp] theorem State.nonempty_withCur (p : Nat) (c : Byte) :
    ({ s with cur := p } : State).nonempty c = s.nonempty c := rfl

@[simp] theorem State.port_setStatus (k : BitVec 16) (p' : Nat) :
    (s.setStatus k : State).port p' = s.port p' := rfl
@[simp] theorem State.port_setBuf (b : Byte) (x : Buf) (p' : Nat) :
    (s.setBuf b x : State).port p' = s.port p' := rfl
@[simp] theorem State.port_setQueue (q : Byte) (x : Queue) (p' : Nat) :
    (s.setQueue q x : State).port p' = s.port p' := rfl
@[simp] theorem State.port_setWc (b : Byte) (v : Nat) (p' : Nat) :
    (s.setWc b v : State).port p' = s.port p' := rfl
@[simp] theorem State.port_setRc (b : Byte) (v : Nat) (p' : Nat) :
    (s.setRc b v : State).port p' = s.port p' := rfl
@[simp] theorem State.port_memWrite (b : Byte) (i : Nat) (v : Byte) (p' : Nat) :
    (s.memWrite b i v : State).port p' = s.port p' := rfl
@[simp] theorem State.port_enqueue (q : Byte) (x : Entry) (p' : Nat) :
    (s.enqueue q x : State).port p' = s.port p' := rfl
@[simp] theorem State.port_dropHead (q : Byte) (p' : Nat) :
    (s.dropHead q : State).port p' = s.port p' := rfl
@[simp] theorem State.port_withDraws (d : Nat) (p' : Nat) :
    ({ s with draws := d } : State).port p' = s.port p' := rfl
@[simp] theorem State.port_withSched (l : List Choice) (p' : Nat) :
    ({ s with sched := l } : State).port p' = s.port p' := rfl
@[simp] theorem State.port_withCur (p : Nat) (p' : Nat) :
    ({ s with cur := p } : State).port p' = s.port p' := rfl

@[simp] theorem State.pend_setStatus (k : BitVec 16) (p' : Nat) :
    (s.setStatus k : State).pend p' = s.pend p' := rfl
@[simp] theorem State.pend_setBuf (b : Byte) (x : Buf) (p' : Nat) :
    (s.setBuf b x : State).pend p' = s.pend p' := rfl
@[simp] theorem State.pend_setQueue (q : Byte) (x : Queue) (p' : Nat) :
    (s.setQueue q x : State).pend p' = s.pend p' := rfl
@[simp] theorem State.pend_setWc (b : Byte) (v : Nat) (p' : Nat) :
    (s.setWc b v : State).pend p' = s.pend p' := rfl
@[simp] theorem State.pend_setRc (b : Byte) (v : Nat) (p' : Nat) :
    (s.setRc b v : State).pend p' = s.pend p' := rfl
@[simp] theorem State.pend_memWrite (b : Byte) (i : Nat) (v : Byte) (p' : Nat) :
    (s.memWrite b i v : State).pend p' = s.pend p' := rfl
@[simp] theorem State.pend_enqueue (q : Byte) (x : Entry) (p' : Nat) :
    (s.enqueue q x : State).pend p' = s.pend p' := rfl
@[simp] theorem State.pend_dropHead (q : Byte) (p' : Nat) :
    (s.dropHead q : State).pend p' = s.pend p' := rfl
@[simp] theorem State.pend_withDraws (d : Nat) (p' : Nat) :
    ({ s with draws := d } : State).pend p' = s.pend p' := rfl
@[simp] theorem State.pend_withSched (l : List Choice) (p' : Nat) :
    ({ s with sched := l } : State).pend p' = s.pend p' := rfl
@[simp] theorem State.pend_withCur (p : Nat) (p' : Nat) :
    ({ s with cur := p } : State).pend p' = s.pend p' := rfl

@[simp] theorem State.resps_setStatus (k : BitVec 16) (p' : Nat) :
    (s.setStatus k : State).resps p' = s.resps p' := rfl
@[simp] theorem State.resps_setBuf (b : Byte) (x : Buf) (p' : Nat) :
    (s.setBuf b x : State).resps p' = s.resps p' := rfl
@[simp] theorem State.resps_setQueue (q : Byte) (x : Queue) (p' : Nat) :
    (s.setQueue q x : State).resps p' = s.resps p' := rfl
@[simp] theorem State.resps_setWc (b : Byte) (v : Nat) (p' : Nat) :
    (s.setWc b v : State).resps p' = s.resps p' := rfl
@[simp] theorem State.resps_setRc (b : Byte) (v : Nat) (p' : Nat) :
    (s.setRc b v : State).resps p' = s.resps p' := rfl
@[simp] theorem State.resps_memWrite (b : Byte) (i : Nat) (v : Byte) (p' : Nat) :
    (s.memWrite b i v : State).resps p' = s.resps p' := rfl
@[simp] theorem State.resps_enqueue (q : Byte) (x : Entry) (p' : Nat) :
    (s.enqueue q x : State).resps p' = s.resps p' := rfl
@[simp] theorem State.resps_dropHead (q : Byte) (p' : Nat) :
    (s.dropHead q : State).resps p' = s.resps p' := rfl
@[simp] theorem State.resps_withDraws (d : Nat) (p' : Nat) :
    ({ s with draws := d } : State).resps p' = s.resps p' := rfl
@[simp] theorem State.resps_withSched (l : List Choice) (p' : Nat) :
    ({ s with sched := l } : State).resps p' = s.resps p' := rfl
@[simp] theorem State.resps_withCur (p : Nat) (p' : Nat) :
    ({ s with cur := p } : State).resps p' = s.resps p' := rfl

end Sys2Proof.Machine
end

