-- ==== Sys2Proof/Laws/Memory.lean ====
section
/-! SUPPORT. Ring-buffer storage: a read after a write, and every memory operation keeps the canonical form. -/

namespace Sys2Proof.Machine

/-- A canonical list: head not equal to the default, below every later index, tail canonical. -/
theorem Memory.wf_cons (d : Option Byte) (k : Nat) (v : Byte) (m : Memory) :
    Memory.wf d ((k, v) :: m) = true ↔ d ≠ some v ∧ (∀ c ∈ m, k < c.1) ∧ Memory.wf d m = true := by
  simp [Memory.wf, and_assoc]

theorem Memory.get_of_below (d : Option Byte) (m : Memory) (a : Nat) (h : ∀ c ∈ m, a < c.1) :
    Memory.get d m a = d := by
  induction m with
  | nil => rfl
  | cons c m ih =>
    have hc := h c (by simp)
    rw [Memory.get, if_neg (by omega)]
    exact ih (fun x hx => h x (by simp [hx]))

theorem Memory.get_put_other (d : Option Byte) (m : Memory) {a a' : Nat} (v : Byte) (h : a' ≠ a) :
    Memory.get d (Memory.put d m a v) a' = Memory.get d m a' := by
  induction m with
  | nil => by_cases hd : d = some v <;> simp [Memory.put, Memory.get, hd, h]
  | cons c m ih =>
    obtain ⟨k, u⟩ := c
    simp only [Memory.put]
    by_cases h1 : a < k
    · by_cases hd : d = some v <;> simp [h1, hd, Memory.get, h]
    · by_cases h2 : a = k
      · by_cases hd : d = some v <;> simp [h2, hd, Memory.get, h2 ▸ h]
      · simp [h1, h2, Memory.get, ih]

theorem Memory.get_put_same (d : Option Byte) (m : Memory) (a : Nat) (v : Byte) (h : Memory.wf d m = true) :
    Memory.get d (Memory.put d m a v) a = some v := by
  induction m with
  | nil => by_cases hd : d = some v <;> simp [Memory.put, Memory.get, hd]
  | cons c m ih =>
    obtain ⟨k, u⟩ := c
    obtain ⟨-, hlt, hm⟩ := (Memory.wf_cons d k u m).1 h
    simp only [Memory.put]
    by_cases h1 : a < k
    · by_cases hd : d = some v
      · rw [if_pos h1, if_pos hd, Memory.get_of_below d _ a, hd]
        intro c hc
        rcases List.mem_cons.1 hc with rfl | hc
        · exact h1
        · have := hlt c hc; omega
      · simp [h1, hd, Memory.get]
    · by_cases h2 : a = k
      · subst h2
        by_cases hd : d = some v
        · rw [if_neg h1, if_pos rfl, if_pos hd, Memory.get_of_below d m a hlt, hd]
        · simp [hd, Memory.get]
      · simp [h1, h2, Memory.get, ih hm]

theorem Memory.mem_put {d : Option Byte} {m : Memory} {a : Nat} {v : Byte} {c : Host.Cell}
    (h : c ∈ Memory.put d m a v) : c ∈ m ∨ c = (a, v) := by
  induction m with
  | nil =>
    simp only [Memory.put] at h
    split at h <;> simp_all
  | cons x m ih =>
    obtain ⟨k, u⟩ := x
    simp only [Memory.put] at h
    simp only [List.mem_cons] at ih ⊢
    split at h
    · split at h <;> simp only [List.mem_cons] at h <;> tauto
    · split at h
      · split at h
        · tauto
        · simp only [List.mem_cons] at h; tauto
      · simp only [List.mem_cons] at h; tauto

/-- A write keeps the canonical form. -/
theorem Memory.wf_put (d : Option Byte) (m : Memory) (a : Nat) (v : Byte) (h : Memory.wf d m = true) :
    Memory.wf d (Memory.put d m a v) = true := by
  induction m with
  | nil => by_cases hd : d = some v <;> simp [Memory.put, Memory.wf, hd]
  | cons c m ih =>
    obtain ⟨k, u⟩ := c
    obtain ⟨hu, hlt, hm⟩ := (Memory.wf_cons d k u m).1 h
    simp only [Memory.put]
    by_cases h1 : a < k
    · by_cases hd : d = some v
      · simpa [h1, hd] using (hd ▸ h)
      · rw [if_pos h1, if_neg hd]
        refine (Memory.wf_cons _ _ _ _).2 ⟨hd, ?_, h⟩
        intro c hc
        rcases List.mem_cons.1 hc with rfl | hc
        · exact h1
        · have := hlt c hc; omega
    · by_cases h2 : a = k
      · subst h2
        by_cases hd : d = some v
        · simpa [hd] using (hd ▸ hm)
        · rw [if_neg h1, if_pos rfl, if_neg hd]
          exact (Memory.wf_cons _ _ _ _).2 ⟨hd, hlt, hm⟩
      · rw [if_neg h1, if_neg h2]
        refine (Memory.wf_cons _ _ _ _).2 ⟨hu, ?_, ih hm⟩
        intro c hc
        rcases Memory.mem_put hc with hc | rfl
        · exact hlt c hc
        · simp only; omega

/-- A write at an index below `n` leaves every written index below `n`. -/
theorem Memory.put_below (d : Option Byte) (m : Memory) (a n : Nat) (v : Byte) (ha : a < n)
    (h : ∀ c ∈ m, c.1 < n) : ∀ c ∈ Memory.put d m a v, c.1 < n := by
  intro c hc
  rcases Memory.mem_put hc with hc | rfl
  · exact h c hc
  · exact ha

/-- The storage of reset is canonical. -/
theorem Memory.wf_blank (d : Option Byte) : Memory.wf d Buf.blank.mem = true := rfl

end Sys2Proof.Machine
end

