-- ==== Sys2Proof/Laws/Ops.lean ====
section
/-! SUPPORT. One lemma per shared operation that says what it does to what it touches and leaves alone. -/

namespace Sys2Proof.Machine

variable (s : State)

/-! ### Buffers -/

theorem State.buf_setBuf_same {s : State} {b : Byte} (x : Buf) (h : b.toNat < s.bufs.length) :
    (s.setBuf b x).buf b = x := by
  simp [State.buf, State.setBuf, List.getD_eq_getElem?_getD, h]

theorem State.buf_setBuf_other {b b' : Byte} (x : Buf) (h : b' ≠ b) : (s.setBuf b x).buf b' = s.buf b' := by
  have : b.toNat ≠ b'.toNat := fun e => h (BitVec.eq_of_toNat_eq e.symm)
  simp [State.buf, State.setBuf, List.getD_eq_getElem?_getD, List.getElem?_set_ne this]

/-- Outside the buffers a replacement changes nothing. -/
theorem State.setBuf_invalid {b : Byte} (x : Buf) (h : s.bufs.length ≤ b.toNat) : s.setBuf b x = s := by
  simp [State.setBuf, List.set_eq_of_length_le h]

/-- A replacement that keeps a projection of buffer `b` keeps it for every buffer. -/
theorem State.proj_setBuf {α : Type} (f : Buf → α) (b : Byte) (x : Buf) (h : f x = f (s.buf b)) (b' : Byte) :
    f ((s.setBuf b x).buf b') = f (s.buf b') := by
  by_cases hb : b' = b
  · subst hb
    by_cases hl : b'.toNat < s.bufs.length
    · rw [State.buf_setBuf_same x hl, h]
    · rw [State.setBuf_invalid s x (by omega)]
  · rw [State.buf_setBuf_other s x hb]

@[simp] theorem State.length_setBuf (b : Byte) (x : Buf) : (s.setBuf b x).bufs.length = s.bufs.length := by
  simp [State.setBuf]

@[simp] theorem State.length_setWc (b : Byte) (v : Nat) : (s.setWc b v).bufs.length = s.bufs.length := by
  simp [State.setWc]

@[simp] theorem State.length_setRc (b : Byte) (v : Nat) : (s.setRc b v).bufs.length = s.bufs.length := by
  simp [State.setRc]

@[simp] theorem State.length_memWrite (b : Byte) (i : Nat) (v : Byte) :
    (s.memWrite b i v).bufs.length = s.bufs.length := by
  simp [State.memWrite]

/-- wc[b] <- v writes v mod N. -/
theorem State.wc_setWc_same {s : State} {b : Byte} (v : Nat) (h : b.toNat < s.bufs.length) :
    (s.setWc b v).wc b = v % s.cfg.n := by
  simp [State.wc, State.setWc, State.buf_setBuf_same _ h]

theorem State.wc_setWc_other {b b' : Byte} (v : Nat) (h : b' ≠ b) : (s.setWc b v).wc b' = s.wc b' := by
  simp [State.wc, State.setWc, State.buf_setBuf_other s _ h]

@[simp] theorem State.rc_setWc (b : Byte) (v : Nat) (b' : Byte) : (s.setWc b v).rc b' = s.rc b' :=
  State.proj_setBuf s Buf.rc b
    { s.buf b with wc := v % s.cfg.n } rfl b'

theorem State.mem_setWc (b : Byte) (v : Nat) (b' : Byte) : ((s.setWc b v).buf b').mem = (s.buf b').mem :=
  State.proj_setBuf s Buf.mem b
    { s.buf b with wc := v % s.cfg.n } rfl b'

@[simp] theorem State.cell_setWc (b : Byte) (v : Nat) (b' : Byte) (i : Nat) :
    (s.setWc b v).cell b' i = s.cell b' i := by
  simp [State.cell, State.mem_setWc]

/-- rc[b] <- v writes v mod N. -/
theorem State.rc_setRc_same {s : State} {b : Byte} (v : Nat) (h : b.toNat < s.bufs.length) :
    (s.setRc b v).rc b = v % s.cfg.n := by
  simp [State.rc, State.setRc, State.buf_setBuf_same _ h]

theorem State.rc_setRc_other {b b' : Byte} (v : Nat) (h : b' ≠ b) : (s.setRc b v).rc b' = s.rc b' := by
  simp [State.rc, State.setRc, State.buf_setBuf_other s _ h]

@[simp] theorem State.wc_setRc (b : Byte) (v : Nat) (b' : Byte) : (s.setRc b v).wc b' = s.wc b' :=
  State.proj_setBuf s Buf.wc b
    { s.buf b with rc := v % s.cfg.n } rfl b'

theorem State.mem_setRc (b : Byte) (v : Nat) (b' : Byte) : ((s.setRc b v).buf b').mem = (s.buf b').mem :=
  State.proj_setBuf s Buf.mem b
    { s.buf b with rc := v % s.cfg.n } rfl b'

@[simp] theorem State.cell_setRc (b : Byte) (v : Nat) (b' : Byte) (i : Nat) :
    (s.setRc b v).cell b' i = s.cell b' i := by
  simp [State.cell, State.mem_setRc]

@[simp] theorem State.wc_memWrite (b : Byte) (i : Nat) (v : Byte) (b' : Byte) :
    (s.memWrite b i v).wc b' = s.wc b' :=
  State.proj_setBuf s Buf.wc b
    { s.buf b with mem := Memory.put s.unlisted (s.buf b).mem (i % s.cfg.n) v } rfl b'

@[simp] theorem State.rc_memWrite (b : Byte) (i : Nat) (v : Byte) (b' : Byte) :
    (s.memWrite b i v).rc b' = s.rc b' :=
  State.proj_setBuf s Buf.rc b
    { s.buf b with mem := Memory.put s.unlisted (s.buf b).mem (i % s.cfg.n) v } rfl b'

/-- Read after write: the cell written holds the byte. -/
theorem State.cell_memWrite_same {s : State} {b : Byte} {i i' : Nat} (v : Byte) (h : b.toNat < s.bufs.length)
    (hm : Memory.wf s.unlisted (s.buf b).mem = true) (hi : i' % s.cfg.n = i % s.cfg.n) :
    (s.memWrite b i v).cell b i' = some v := by
  simp only [State.cell, State.unlisted_memWrite, State.cfg_memWrite, hi]
  simp only [State.memWrite, State.buf_setBuf_same _ h]
  exact Memory.get_put_same _ _ _ _ hm

/-- A write leaves every other cell of its buffer alone. -/
theorem State.cell_memWrite_other {b : Byte} {i i' : Nat} (v : Byte) (hi : i' % s.cfg.n ≠ i % s.cfg.n) (b' : Byte) :
    (s.memWrite b i v).cell b' i' = s.cell b' i' := by
  simp only [State.cell, State.unlisted_memWrite, State.cfg_memWrite]
  by_cases hb : b' = b
  · subst hb
    by_cases hl : b'.toNat < s.bufs.length
    · simp only [State.memWrite, State.buf_setBuf_same _ hl]
      exact Memory.get_put_other _ _ _ hi
    · rw [State.memWrite, State.setBuf_invalid s _ (by omega)]
  · rw [State.memWrite, State.buf_setBuf_other s _ hb]

/-- A write leaves every cell of every other buffer alone. -/
theorem State.cell_memWrite_otherBuf {b b' : Byte} (i : Nat) (v : Byte) (h : b' ≠ b) (i' : Nat) :
    (s.memWrite b i v).cell b' i' = s.cell b' i' := by
  simp only [State.cell, State.unlisted_memWrite, State.cfg_memWrite]
  rw [State.memWrite, State.buf_setBuf_other s _ h]

/-- A write leaves the other buffers as they are. -/
theorem State.buf_memWrite_other {b b' : Byte} (i : Nat) (v : Byte) (h : b' ≠ b) :
    (s.memWrite b i v).buf b' = s.buf b' := State.buf_setBuf_other s _ h

theorem State.buf_memWrite_same {s : State} {b : Byte} (i : Nat) (v : Byte) (h : b.toNat < s.bufs.length) :
    (s.memWrite b i v).buf b = { s.buf b with mem := Memory.put s.unlisted (s.buf b).mem (i % s.cfg.n) v } :=
  State.buf_setBuf_same _ h

/-- A write keeps every buffer's storage canonical. -/
theorem State.wf_memWrite (b : Byte) (i : Nat) (v : Byte) (b' : Byte)
    (h : Memory.wf s.unlisted (s.buf b').mem = true) :
    Memory.wf s.unlisted ((s.memWrite b i v).buf b').mem = true := by
  by_cases hb : b' = b
  · subst hb
    by_cases hl : b'.toNat < s.bufs.length
    · rw [State.buf_memWrite_same i v hl]
      exact Memory.wf_put _ _ _ _ h
    · rwa [State.memWrite, State.setBuf_invalid s _ (by omega)]
  · rwa [State.buf_memWrite_other s i v hb]

/-! ### Reads and draws -/

/-- MemRead returns the cell's byte, or the next draw; nothing but the draw count changes. -/
theorem State.memRead_eq (b : Byte) (i : Nat) :
    s.memRead b i = ((s.cell b i).getD (Config.drawByte s.draws),
      { s with draws := s.draws + if s.cell b i = none then 1 else 0 }) := by
  unfold State.memRead
  split <;> rename_i h <;> simp [h]

/-! ### Queues -/

theorem State.queue_setQueue_same {s : State} {q : Byte} (x : Queue) (h : q.toNat < s.queues.length) :
    (s.setQueue q x).queue q = x := by
  simp [State.queue, State.setQueue, List.getD_eq_getElem?_getD, h]

theorem State.queue_setQueue_other {q q' : Byte} (x : Queue) (h : q' ≠ q) : (s.setQueue q x).queue q' = s.queue q' := by
  have : q.toNat ≠ q'.toNat := fun e => h (BitVec.eq_of_toNat_eq e.symm)
  simp [State.queue, State.setQueue, List.getD_eq_getElem?_getD, List.getElem?_set_ne this]

/-- Outside the queues a replacement changes nothing. -/
theorem State.setQueue_invalid {q : Byte} (x : Queue) (h : s.queues.length ≤ q.toNat) : s.setQueue q x = s := by
  simp [State.setQueue, List.set_eq_of_length_le h]

@[simp] theorem State.length_setQueue (q : Byte) (x : Queue) : (s.setQueue q x).queues.length = s.queues.length := by
  simp [State.setQueue]

@[simp] theorem State.length_enqueue (q : Byte) (x : Entry) : (s.enqueue q x).queues.length = s.queues.length := by
  simp [State.enqueue]

@[simp] theorem State.length_dropHead (q : Byte) : (s.dropHead q).queues.length = s.queues.length := by
  simp [State.dropHead]

/-- enqueue appends at the tail. -/
theorem State.queue_enqueue_same {s : State} {q : Byte} (x : Entry) (h : q.toNat < s.queues.length) :
    (s.enqueue q x).queue q = { s.queue q with fifo := (s.queue q).fifo ++ [x] } :=
  State.queue_setQueue_same _ h

theorem State.queue_enqueue_other {q q' : Byte} (x : Entry) (h : q' ≠ q) : (s.enqueue q x).queue q' = s.queue q' :=
  State.queue_setQueue_other s _ h

/-- A dequeue removes the head. -/
theorem State.queue_dropHead_same {s : State} {q : Byte} (h : q.toNat < s.queues.length) :
    (s.dropHead q).queue q = { s.queue q with fifo := (s.queue q).fifo.tail } :=
  State.queue_setQueue_same _ h

theorem State.queue_dropHead_other {q q' : Byte} (h : q' ≠ q) : (s.dropHead q).queue q' = s.queue q' :=
  State.queue_setQueue_other s _ h

/-- The invalid-input checks pass exactly when the queue is live and of the shape (R140). -/
theorem State.queueFault_eq_none (q : Byte) (sh : Shape) :
    s.queueFault q sh = none ↔ s.qlive q = true ∧ (s.queue q).shape = some sh := by
  unfold State.queueFault
  by_cases h : s.qlive q = true <;> simp [h]

/-! ### Ports -/

theorem State.port_setPort_same {s : State} {p : Nat} (x : Port) (h : p < s.ports.length) :
    (s.setPort p x).port p = x := by
  simp [State.port, State.setPort, List.getD_eq_getElem?_getD, h]

theorem State.port_setPort_other {p p' : Nat} (x : Port) (h : p' ≠ p) : (s.setPort p x).port p' = s.port p' := by
  simp [State.port, State.setPort, List.getD_eq_getElem?_getD, List.getElem?_set_ne (Ne.symm h)]

/-- Outside the ports a replacement changes nothing. -/
theorem State.setPort_invalid {p : Nat} (x : Port) (h : s.ports.length ≤ p) : s.setPort p x = s := by
  simp [State.setPort, List.set_eq_of_length_le h]

/-- A replacement that keeps a projection of port `p` keeps it for every port. -/
theorem State.proj_setPort {α : Type} (f : Port → α) (p : Nat) (x : Port) (h : f x = f (s.port p)) (p' : Nat) :
    f ((s.setPort p x).port p') = f (s.port p') := by
  by_cases hp : p' = p
  · subst hp
    by_cases hl : p' < s.ports.length
    · rw [State.port_setPort_same x hl, h]
    · rw [State.setPort_invalid s x (by omega)]
  · rw [State.port_setPort_other s x hp]

@[simp] theorem State.length_setPort (p : Nat) (x : Port) : (s.setPort p x).ports.length = s.ports.length := by
  simp [State.setPort]

@[simp] theorem State.length_setPend (p : Nat) (x : Option Pend) : (s.setPend p x).ports.length = s.ports.length := by
  simp [State.setPend]

@[simp] theorem State.length_respond (p : Nat) (r : Response) : (s.respond p r).ports.length = s.ports.length := by
  simp [State.respond]

/-- PEND[p] <- x. -/
theorem State.pend_setPend_same {s : State} {p : Nat} (x : Option Pend) (h : p < s.ports.length) :
    (s.setPend p x).pend p = x := by
  simp [State.pend, State.setPend, State.port_setPort_same _ h]

theorem State.port_setPend_other {p p' : Nat} (x : Option Pend) (h : p' ≠ p) : (s.setPend p x).port p' = s.port p' :=
  State.port_setPort_other s _ h

@[simp] theorem State.resps_setPend (p : Nat) (x : Option Pend) (p' : Nat) : (s.setPend p x).resps p' = s.resps p' :=
  State.proj_setPort s Port.resps p
    { s.port p with pend := x } rfl p'

@[simp] theorem State.todo_setPend (p : Nat) (x : Option Pend) (p' : Nat) :
    ((s.setPend p x).port p').todo = (s.port p').todo :=
  State.proj_setPort s Port.todo p
    { s.port p with pend := x } rfl p'

@[simp] theorem State.unanswered_setPend (p : Nat) (x : Option Pend) (p' : Nat) :
    ((s.setPend p x).port p').unanswered = (s.port p').unanswered :=
  State.proj_setPort s Port.unanswered p
    { s.port p with pend := x } rfl p'

theorem State.resps_respond_same {s : State} {p : Nat} (r : Response) (h : p < s.ports.length) :
    (s.respond p r).resps p = s.resps p ++ [r] := by
  simp [State.resps, State.respond, State.port_setPort_same _ h]

/-- After a response no port answered is unanswered (R247). -/
theorem State.unanswered_respond_same (p : Nat) (r : Response) : ((s.respond p r).port p).unanswered = false := by
  by_cases h : p < s.ports.length
  · simp [State.respond, State.port_setPort_same _ h]
  · rw [State.respond, State.setPort_invalid s _ (by omega)]
    rw [State.port, List.getD_eq_getElem?_getD, List.getElem?_eq_none (by omega : s.ports.length ≤ p)]
    rfl

theorem State.port_respond_other {p p' : Nat} (r : Response) (h : p' ≠ p) : (s.respond p r).port p' = s.port p' :=
  State.port_setPort_other s _ h

@[simp] theorem State.pend_respond (p : Nat) (r : Response) (p' : Nat) : (s.respond p r).pend p' = s.pend p' :=
  State.proj_setPort s Port.pend p
    { s.port p with resps := (s.port p).resps ++ [r], unanswered := false } rfl p'

@[simp] theorem State.todo_respond (p : Nat) (r : Response) (p' : Nat) :
    ((s.respond p r).port p').todo = (s.port p').todo :=
  State.proj_setPort s Port.todo p
    { s.port p with resps := (s.port p).resps ++ [r], unanswered := false } rfl p'

/-- A response goes to its port and changes nothing else of any port. -/
theorem State.answered_respond {s : State} {p : Nat} (r : Response) (h : p < s.ports.length) :
    Answered s (s.respond p r) p r :=
  ⟨State.resps_respond_same r h, by simp, by simp, fun _ hp => State.port_respond_other s r hp, by simp,
    State.unanswered_respond_same s p r⟩

/-- A response alone. -/
theorem State.onlyAnswered_respond {s : State} {p : Nat} (r : Response) (h : p < s.ports.length) :
    OnlyAnswered s (s.respond p r) p r :=
  ⟨State.answered_respond r h, fun _ => ⟨rfl, rfl, fun _ => rfl⟩, fun _ => rfl, rfl, ⟨rfl, rfl, rfl⟩, rfl⟩

/-- A fault sets its STATUS bit, answers, and changes nothing else (R202). -/
theorem State.onlyFaulted_raise {s : State} {p : Nat} (f : FaultCode) (h : p < s.ports.length) :
    OnlyFaulted s (s.raise p f) p f :=
  ⟨State.answered_respond (s := s.setStatus f.statusBit) ⟨.fault f, 0, []⟩ h,
    fun _ => ⟨rfl, rfl, fun _ => rfl⟩, fun _ => rfl, rfl, ⟨rfl, rfl, rfl⟩, rfl⟩

end Sys2Proof.Machine
end

