-- ==== Sys2Proof/Laws/Loops.lean ====
section
/-! SUPPORT. The loops: the stores of RB.WM (40_ringbuffer.md R102), the drain of RB.RM (R103) and the creation of the
queues (41_messagequeue.md R143). -/

namespace Sys2Proof.Machine

theorem Config.n_pos (c : Config) : 0 < c.n := Nat.two_pow_pos c.w

/-- Two updates that keep everything but buffers and draws. -/
structure SameOutside (s t : State) : Prop where
  cfg : t.cfg = s.cfg
  queues : t.queues = s.queues
  status : t.status = s.status
  ports : t.ports = s.ports
  cur : t.cur = s.cur
  sched : t.sched = s.sched
  length : t.bufs.length = s.bufs.length

theorem SameOutside.refl (s : State) : SameOutside s s := ⟨rfl, rfl, rfl, rfl, rfl, rfl, rfl⟩

theorem SameOutside.trans {s t u : State} (h : SameOutside s t) (k : SameOutside t u) : SameOutside s u :=
  ⟨k.cfg.trans h.cfg, k.queues.trans h.queues, k.status.trans h.status, k.ports.trans h.ports, k.cur.trans h.cur,
    k.sched.trans h.sched, k.length.trans h.length⟩

theorem SameOutside.setWc (s : State) (b : Byte) (v : Nat) : SameOutside s (s.setWc b v) :=
  ⟨rfl, rfl, rfl, rfl, rfl, rfl, by simp⟩

theorem SameOutside.setRc (s : State) (b : Byte) (v : Nat) : SameOutside s (s.setRc b v) :=
  ⟨rfl, rfl, rfl, rfl, rfl, rfl, by simp⟩

theorem SameOutside.memWrite (s : State) (b : Byte) (i : Nat) (v : Byte) : SameOutside s (s.memWrite b i v) :=
  ⟨rfl, rfl, rfl, rfl, rfl, rfl, by simp⟩

theorem SameOutside.memRead (s : State) (b : Byte) (i : Nat) : SameOutside s (s.memRead b i).2 := by
  rw [State.memRead_eq]; exact ⟨rfl, rfl, rfl, rfl, rfl, rfl, rfl⟩

theorem SameOutside.unlisted {s t : State} (h : SameOutside s t) : t.unlisted = s.unlisted := by
  simp [State.unlisted, h.cfg]

theorem SameOutside.queue {s t : State} (h : SameOutside s t) (q : Byte) : t.queue q = s.queue q := by
  simp [State.queue, h.queues]

theorem SameOutside.queueFault {s t : State} (h : SameOutside s t) (q : Byte) (sh : Shape) :
    t.queueFault q sh = s.queueFault q sh := by
  simp [State.queueFault, State.qlive, h.queue, h.cfg]

theorem SameOutside.full {s t : State} (h : SameOutside s t) (q : Byte) : t.full q = s.full q := by
  simp [State.full, h.queue, h.cfg]

theorem SameOutside.port {s t : State} (h : SameOutside s t) (p : Nat) : t.port p = s.port p := by
  simp [State.port, h.ports]

/-! ### The stores of RB.WM -/

theorem SameOutside.storeFrom (b : Byte) (data : List Byte) (s : State) (i : Nat) :
    SameOutside s (s.storeFrom b i data) := by
  induction data generalizing s i with
  | nil => exact SameOutside.refl s
  | cons v vs ih => exact (SameOutside.memWrite s b i v).trans (ih _ _)

theorem State.draws_storeFrom (b : Byte) (data : List Byte) (s : State) (i : Nat) :
    (s.storeFrom b i data).draws = s.draws := by
  induction data generalizing s i with
  | nil => rfl
  | cons v vs ih => exact ih _ _

theorem State.wc_storeFrom (b : Byte) (data : List Byte) (s : State) (i : Nat) (b' : Byte) :
    (s.storeFrom b i data).wc b' = s.wc b' := by
  induction data generalizing s i with
  | nil => rfl
  | cons v vs ih => exact (ih _ _).trans (by simp)

theorem State.rc_storeFrom (b : Byte) (data : List Byte) (s : State) (i : Nat) (b' : Byte) :
    (s.storeFrom b i data).rc b' = s.rc b' := by
  induction data generalizing s i with
  | nil => rfl
  | cons v vs ih => exact (ih _ _).trans (by simp)

/-- Stores in one buffer leave every other buffer's cells alone. -/
theorem State.cell_storeFrom_otherBuf {b b' : Byte} (h : b' ≠ b) (data : List Byte) (s : State) (i j : Nat) :
    (s.storeFrom b i data).cell b' j = s.cell b' j := by
  induction data generalizing s i with
  | nil => rfl
  | cons v vs ih => exact (ih _ _).trans (State.cell_memWrite_otherBuf s i v h j)

/-- A cell that none of the stores reaches is as before. -/
theorem State.cell_storeFrom_out (b : Byte) (data : List Byte) (s : State) (i j : Nat)
    (h : ∀ k < data.length, j % s.cfg.n ≠ (i + k) % s.cfg.n) : (s.storeFrom b i data).cell b j = s.cell b j := by
  induction data generalizing s i with
  | nil => rfl
  | cons v vs ih =>
    refine (ih (s.memWrite b i v) (i + 1) ?_).trans (State.cell_memWrite_other s v (by simpa using h 0 (by simp)) b)
    intro k hk
    simpa [Nat.add_comm, Nat.add_left_comm] using h (k + 1) (by simpa using hk)

theorem State.wf_storeFrom (b : Byte) (data : List Byte) (s : State) (i : Nat) (b' : Byte)
    (h : Memory.wf s.unlisted (s.buf b').mem = true) :
    Memory.wf s.unlisted ((s.storeFrom b i data).buf b').mem = true := by
  induction data generalizing s i with
  | nil => exact h
  | cons v vs ih => exact ih (s.memWrite b i v) (i + 1) (State.wf_memWrite s b i v b' h)

/-- Two offsets below N of one start are two cells. -/
theorem mod_add_ne {n i k l : Nat} (hk : k < n) (hl : l < n) (h : k ≠ l) : (i + k) % n ≠ (i + l) % n := by
  intro e
  have : k % n = l % n := Nat.ModEq.add_left_cancel' i e
  rw [Nat.mod_eq_of_lt hk, Nat.mod_eq_of_lt hl] at this
  exact h this

/-- The k-th byte stored is read back from the k-th cell (R51). -/
theorem State.cell_storeFrom_in {b : Byte} (data : List Byte) (s : State) (i k : Nat) (hb : b.toNat < s.bufs.length)
    (hm : Memory.wf s.unlisted (s.buf b).mem = true) (hn : data.length ≤ s.cfg.n) (hk : k < data.length) :
    (s.storeFrom b i data).cell b (i + k) = some data[k] := by
  induction data generalizing s i k with
  | nil => simp at hk
  | cons v vs ih =>
    rw [List.length_cons] at hn
    cases k with
    | zero =>
      refine (State.cell_storeFrom_out b vs _ _ _ ?_).trans (State.cell_memWrite_same v hb hm rfl)
      intro l hl
      have := mod_add_ne (n := s.cfg.n) (i := i) (k := 0) (l := l + 1) (by omega) (by omega) (by omega)
      simpa [Nat.add_comm, Nat.add_left_comm] using this
    | succ k =>
      have := ih (s.memWrite b i v) (i + 1) k (by simpa using hb)
        (State.wf_memWrite s b i v b hm) (by simp; omega) (by simpa using hk)
      simpa [State.storeFrom, Nat.add_comm, Nat.add_left_comm] using this

/-! ### The drain of RB.RM and MQ.RECVL -/

/-- What the loop of R103 stops at: min(E, M, N). -/
def Copy.limit (c : Copy) (n : Nat) : Nat := min c.e.toNat (min c.m.toNat n)

theorem Copy.more_iff (c : Copy) (n : Nat) (h : c.count ≤ c.limit n) : c.more n = true ↔ c.count < c.limit n := by
  simp only [Copy.more, Copy.limit, Bool.and_eq_true, decide_eq_true_eq] at *
  omega

theorem SameOutside.copyOne (s : State) (c : Copy) : SameOutside s (s.copyOne c).1 :=
  (SameOutside.memRead s _ _).trans (SameOutside.setRc _ _ _)

/-- One copy changes no write cursor, no cell and no other buffer's read cursor. -/
theorem State.copyOne_frame (s : State) (c : Copy) :
    (∀ b, (s.copyOne c).1.wc b = s.wc b) ∧ (∀ b i, (s.copyOne c).1.cell b i = s.cell b i) ∧
    (∀ b, b ≠ c.b → (s.copyOne c).1.rc b = s.rc b) := by
  refine ⟨fun b => ?_, fun b i => ?_, fun b hb => ?_⟩
  · simp only [State.copyOne, State.wc_setRc, State.memRead_eq]; rfl
  · simp only [State.copyOne, State.cell_setRc, State.memRead_eq]; rfl
  · simp only [State.copyOne, State.rc_setRc_other _ _ hb, State.memRead_eq]; rfl

theorem State.copyOne_rc {s : State} {c : Copy} (h : c.b.toNat < s.bufs.length) :
    (s.copyOne c).1.rc c.b = (s.rc c.b + 1) % s.cfg.n := by
  have : c.b.toNat < (s.memRead c.b (s.rc c.b)).2.bufs.length := by
    rw [(SameOutside.memRead s _ _).length]; exact h
  rw [State.copyOne, State.rc_setRc_same _ this, (SameOutside.memRead s _ _).cfg]

theorem SameOutside.copyRun (fuel : Nat) (s : State) (c : Copy) : SameOutside s (s.copyRun c fuel).1 := by
  induction fuel generalizing s c with
  | zero => exact SameOutside.refl s
  | succ fuel ih =>
    rw [State.copyRun]
    split
    · exact (SameOutside.copyOne s c).trans (ih _ _)
    · exact SameOutside.refl s

/-- A drain changes no write cursor, no cell and no other buffer's read cursor. -/
theorem State.copyRun_frame (fuel : Nat) (s : State) (c : Copy) :
    (∀ b, (s.copyRun c fuel).1.wc b = s.wc b) ∧ (∀ b i, (s.copyRun c fuel).1.cell b i = s.cell b i) ∧
    (∀ b, b ≠ c.b → (s.copyRun c fuel).1.rc b = s.rc b) := by
  induction fuel generalizing s c with
  | zero => exact ⟨fun _ => rfl, fun _ _ => rfl, fun _ _ => rfl⟩
  | succ fuel ih =>
    rw [State.copyRun]
    split
    · obtain ⟨h1, h2, h3⟩ := State.copyOne_frame s c
      obtain ⟨k1, k2, k3⟩ := ih (s.copyOne c).1 (s.copyOne c).2
      exact ⟨fun b => (k1 b).trans (h1 b), fun b i => (k2 b i).trans (h2 b i), fun b hb => (k3 b hb).trans (h3 b hb)⟩
    · exact ⟨fun _ => rfl, fun _ _ => rfl, fun _ _ => rfl⟩

/-- A drain copies up to its limit: the count, the read cursor, and the bytes copied, cell after cell (R103). A copied
byte is the cell's own where the cell holds one. -/
theorem State.copyRun_spec (fuel : Nat) (s : State) (c : Copy) (hb : c.b.toNat < s.bufs.length)
    (hr : s.rc c.b < s.cfg.n) (hc : c.count ≤ c.limit s.cfg.n) (hf : c.limit s.cfg.n - c.count ≤ fuel) :
    (s.copyRun c fuel).2.count = c.limit s.cfg.n ∧
    (s.copyRun c fuel).1.rc c.b = (s.rc c.b + (c.limit s.cfg.n - c.count)) % s.cfg.n ∧
    ∃ xs : List Byte, (s.copyRun c fuel).2.out = c.out ++ xs ∧ xs.length = c.limit s.cfg.n - c.count ∧
      ∀ (k : Nat) (v : Byte), k < xs.length → s.cell c.b (s.rc c.b + k) = some v → xs[k]? = some v := by
  induction fuel generalizing s c with
  | zero =>
    have : c.count = c.limit s.cfg.n := by omega
    refine ⟨this, ?_, [], by simp [State.copyRun], by simp; omega, by simp⟩
    simp [State.copyRun, this, Nat.mod_eq_of_lt hr]
  | succ fuel ih =>
    rw [State.copyRun]
    by_cases hm : c.count < c.limit s.cfg.n
    · rw [if_pos ((c.more_iff _ hc).2 hm)]
      have hcfg := (SameOutside.copyOne s c).cfg
      obtain ⟨-, hcell, -⟩ := State.copyOne_frame s c
      have hrc := State.copyOne_rc hb
      have hlim : (s.copyOne c).2.limit s.cfg.n = c.limit s.cfg.n := rfl
      have hcnt : (s.copyOne c).2.count = c.count + 1 := rfl
      obtain ⟨h1, h2, xs, h3, h4, h5⟩ := ih (s.copyOne c).1 (s.copyOne c).2
        (by rw [(SameOutside.copyOne s c).length]; exact hb)
        (by rw [hcfg]; exact hrc ▸ Nat.mod_lt _ (Config.n_pos _))
        (by rw [hcfg, hlim, hcnt]; exact hm) (by rw [hcfg, hlim, hcnt]; omega)
      have hb2 : (s.copyOne c).2.b = c.b := rfl
      rw [hcfg, hlim] at h1
      rw [hcfg, hlim, hb2, hrc, hcnt, Nat.mod_add_mod] at h2
      rw [hcfg, hlim, hcnt] at h4
      refine ⟨h1, h2.trans (by congr 1; omega), (s.memRead c.b (s.rc c.b)).1 :: xs, ?_, ?_, ?_⟩
      · rw [h3]; simp [State.copyOne]
      · rw [List.length_cons, h4]; omega
      · intro k v hk hv
        cases k with
        | zero =>
          rw [Nat.add_zero] at hv
          simp [State.memRead_eq, hv]
        | succ k =>
          rw [List.getElem?_cons_succ]
          refine h5 k v (by simpa using hk) ?_
          rw [hcell, hb2, hrc, ← hv]
          simp only [State.cell]
          congr 1
          rw [Nat.mod_add_mod]; congr 1; omega
    · rw [if_neg (by rw [c.more_iff _ hc]; exact hm)]
      have : c.count = c.limit s.cfg.n := by omega
      refine ⟨this, ?_, [], by simp, by simp; omega, by simp⟩
      simp [this, Nat.mod_eq_of_lt hr]

/-! ### The creation of the queues -/

/-- What MQ.INIT has done after the queues 0 .. k-1 (R143). -/
theorem initQueue_fold (s : State) (k : Nat) (hk : k ≤ s.queues.length) :
    let a := (List.range k).foldl initQueue ⟨s, 0, false⟩
    a.st.cfg = s.cfg ∧ a.st.bufs = s.bufs ∧ a.st.ports = s.ports ∧ a.st.cur = s.cur ∧ a.st.sched = s.sched ∧
    a.st.draws = s.draws ∧ a.st.queues.length = s.queues.length ∧
    (∀ q, a.st.queues.getD q Queue.blank =
      if q < k ∧ (s.queues.getD q Queue.blank).created = false then ⟨true, s.cfg.qshapes[q]?, []⟩
      else s.queues.getD q Queue.blank) ∧
    a.made = ((s.queues.take k).filter (fun x => !x.created)).length ∧
    a.dbl = (s.queues.take k).any (fun x => x.created) ∧
    a.st.status = if a.dbl then s.status ||| statusDblinit else s.status := by
  induction k with
  | zero => simp
  | succ k ih =>
    obtain ⟨h1, h2, h3, h4, h5, h6, h7, h8, h9, h10, h11⟩ := ih (by omega)
    rw [List.range_succ, List.foldl_append]
    simp only [List.foldl_cons, List.foldl_nil]
    generalize (List.range k).foldl initQueue ⟨s, 0, false⟩ = a at *
    have hkl : k < s.queues.length := hk
    have hq : a.st.queues.getD k Queue.blank = s.queues.getD k Queue.blank := by
      rw [h8]; simp
    have hel : s.queues.getD k Queue.blank = s.queues[k] := by
      simp [List.getD_eq_getElem?_getD, hkl]
    have htake : s.queues.take (k + 1) = s.queues.take k ++ [s.queues[k]] := by
      rw [List.take_succ_eq_append_getElem hkl]
    simp only [initQueue, hq, hel]
    by_cases hc : s.queues[k].created = true
    · rw [if_pos hc]
      refine ⟨h1, h2, h3, h4, h5, h6, h7, ?_, ?_, ?_, ?_⟩
      · intro q
        refine (h8 q).trans ?_
        by_cases hqk : q = k
        · subst hqk; simp [hkl, hc]
        · have : q < k + 1 ↔ q < k := by omega
          simp [this]
      · rw [htake, List.filter_append, List.length_append, ← h9]; simp [hc]
      · rw [htake, List.any_append]; simp [hc]
      · simp only [State.status_setStatus, h11]
        split <;> simp [BitVec.or_assoc]
    · rw [if_neg hc]
      refine ⟨h1, h2, h3, h4, h5, h6, by simp [h7], ?_, ?_, ?_, h11⟩
      · intro q
        by_cases hqk : q = k
        · subst hqk
          simp [List.getD_eq_getElem?_getD, h7, hkl, hc, h1]
        · have hlt : q < k + 1 ↔ q < k := by omega
          have := h8 q
          simp only [List.getD_eq_getElem?_getD] at this ⊢
          rw [List.getElem?_set_ne (Ne.symm hqk), this]
          simp [hlt]
      · rw [htake, List.filter_append, List.length_append, ← h9]; simp [hc]
      · rw [htake, List.any_append, ← h10]; simp [hc]

/-- What MQ.INIT does (R143): every field but the queues and STATUS is as before, each queue that was not created is now
created with its shape and no entries, `made` counts them, and `dbl` says whether some queue was created already. -/
theorem initAll_spec (s : State) (h : s.queues.length = s.cfg.nq) :
    (initAll s).st.cfg = s.cfg ∧ (initAll s).st.bufs = s.bufs ∧ (initAll s).st.ports = s.ports ∧
    (initAll s).st.cur = s.cur ∧ (initAll s).st.sched = s.sched ∧ (initAll s).st.draws = s.draws ∧
    (initAll s).st.queues.length = s.queues.length ∧
    (∀ q, (initAll s).st.queues.getD q Queue.blank =
      if q < s.cfg.nq ∧ (s.queues.getD q Queue.blank).created = false then ⟨true, s.cfg.qshapes[q]?, []⟩
      else s.queues.getD q Queue.blank) ∧
    (initAll s).made = (s.queues.filter (fun x => !x.created)).length ∧
    (initAll s).dbl = s.queues.any (fun x => x.created) ∧
    (initAll s).st.status = if (initAll s).dbl then s.status ||| statusDblinit else s.status := by
  have := initQueue_fold s s.cfg.nq (by omega)
  simp only [List.take_of_length_le (Nat.le_of_eq h)] at this
  exact this

/-! ### The snapshot -/

/-- The terminator's part of RB.PUSHL either sends the descriptor, on a live line queue that is not full, or answers
Fail(3) and changes nothing else (R180). -/
theorem State.sendSnapshot_cases (s : State) (p : Nat) (b q : Byte) :
    ((s.qlive q = true ∧ (s.queue q).shape = some .line ∧ (s.queue q).fifo.length < s.cfg.qcap) ∧
      s.sendSnapshot p b q = (s.enqueue q (.line b (BitVec.ofNat 16 (s.wc b)))).ok p 7 []) ∨
    (¬ (s.qlive q = true ∧ (s.queue q).shape = some .line ∧ (s.queue q).fifo.length < s.cfg.qcap) ∧
      ∃ c, s.sendSnapshot p b q = s.fail p c 3) := by
  unfold State.sendSnapshot
  have hiff := State.queueFault_eq_none s q .line
  cases hq : s.queueFault q .line with
  | some c =>
    refine .inr ⟨fun h => ?_, c, rfl⟩
    rw [hiff.2 ⟨h.1, h.2.1⟩] at hq
    cases hq
  | none =>
    obtain ⟨h1, h2⟩ := hiff.1 hq
    by_cases hf : s.cfg.qcap ≤ (s.queue q).fifo.length
    · exact .inr ⟨fun h => by omega, .full, if_pos (by simpa [State.full] using hf)⟩
    · exact .inl ⟨⟨h1, h2, by omega⟩, if_neg (by simpa [State.full] using hf)⟩

end Sys2Proof.Machine
end

