-- ==== Sys2Proof/Laws/Checks.lean ====
section
/-! SUPPORT. What the invariant gives about one buffer, queue or port,
    and what the shared checks and operations answer: the
role checks (40_ringbuffer.md R105, R106), the checks of the queue operations (41_messagequeue.md R140, R151),
    the filtered
store (R100, R180) and the drain (R103). -/

namespace Sys2Proof.Machine

/-- The current port is a port. -/
theorem Inv.cur {s : State} (h : s.Inv) : s.cur < s.ports.length := by
  obtain ⟨-, ⟨-, -, h3⟩, h4, -⟩ := h; omega

/-- A valid buffer exists, its cursors are below N and its storage is canonical. -/
theorem Inv.buf {s : State} (h : s.Inv) {b : Byte} (hb : b.toNat < s.cfg.nb) :
    b.toNat < s.bufs.length ∧ s.wc b < s.cfg.n ∧ s.rc b < s.cfg.n ∧ Memory.wf s.unlisted (s.buf b).mem = true := by
  obtain ⟨-, ⟨h1, -, -⟩, -, h4, -⟩ := h
  have := h4 b.toNat hb
  simp only [State.bufOk, Bool.and_eq_true, decide_eq_true_eq] at this
  exact ⟨by omega, this.1.1.1, this.1.1.2, this.1.2⟩

/-- A buffer identifier is valid when it is below NB (R72). -/
theorem valid_iff {s : State} {b : Byte} : s.bufValid b = true ↔ b.toNat < s.cfg.nb := by simp [State.bufValid]

/-- A live queue exists. -/
theorem Inv.qidx {s : State} (h : s.Inv) {q : Byte} (hq : s.qlive q = true) : q.toNat < s.queues.length := by
  obtain ⟨-, ⟨-, h2, -⟩, -⟩ := h
  simp [State.qlive] at hq; omega

/-- The set IGN (R8). -/
theorem ign_iff (v : Byte) : isIgnored v = true ↔ v ∈ [0x0A#8, 0x20#8, 0x09#8, 0x00#8] := by
  simp [isIgnored, or_assoc]

/-- A byte that is not ignored goes to the write cursor's cell, and the cursor advances (R100). -/
theorem storedByte {s : State} (h : s.Inv) {b v : Byte} (hb : b.toNat < s.cfg.nb) (hi : isIgnored v = false) :
    StoredByte s (s.storeFiltered b v) b v := by
  obtain ⟨h1, h2, h3, h4⟩ := Inv.buf h hb
  simp only [State.storeFiltered, hi, Bool.false_eq_true, if_false]
  refine ⟨?_, ?_, ?_, ?_⟩
  · rw [State.cell_setWc]; exact State.cell_memWrite_same v h1 h4 rfl
  · rw [State.wc_setWc_same _ (by simpa using h1)]; rfl
  · simp
  · intro i hi; rw [State.cell_setWc]; exact State.cell_memWrite_other s v hi b

/-- A filtered store leaves every other buffer as it was. -/
theorem filtered_other (s : State) (b v : Byte) : SameOtherBufs s (s.storeFiltered b v) b := by
  intro b' hb
  unfold State.storeFiltered
  split
  · exact ⟨rfl, rfl, fun _ => rfl⟩
  · exact ⟨by rw [State.wc_setWc_other _ _ hb]; simp, by simp, fun i => by
      rw [State.cell_setWc, State.cell_memWrite_otherBuf s _ _ hb]⟩

/-- A filtered store changes only its buffer. -/
theorem filtered_outside (s : State) (b v : Byte) : SameOutside s (s.storeFiltered b v) := by
  unfold State.storeFiltered
  split
  · exact SameOutside.refl s
  · exact (SameOutside.memWrite s b _ v).trans (SameOutside.setWc _ _ _)

/-- A filtered store takes no draw. -/
theorem filtered_draws (s : State) (b v : Byte) : (s.storeFiltered b v).draws = s.draws := by
  unfold State.storeFiltered; split <;> rfl

/-- An answer after an update that changes only buffers and draws is the port's only change. -/
theorem answered_after {s u : State} (h : SameOutside s u) {p : Nat} (r : Response) (hp : p < s.ports.length) :
    Answered s (u.respond p r) p r := by
  have hp' : p < u.ports.length := by rw [h.ports]; exact hp
  obtain ⟨h1, h2, h3, h4, h5, h6⟩ := State.answered_respond r hp'
  have := h.port
  refine ⟨?_, ?_, ?_, ?_, ?_, h6⟩
  · rw [h1]; simp [State.resps, this]
  · rw [h2]; simp [State.pend, this]
  · rw [h3, this]
  · intro p' hp; rw [h4 p' hp, this]
  · rw [h5, h.ports]

/-- A record alone. -/
theorem recorded {s : State} (x : Pend) (hc : s.cur < s.ports.length) :
    OnlyRecorded s (s.setPend s.cur (some x)) s.cur x :=
  ⟨State.pend_setPend_same _ hc, by simp, by simp, fun _ hp => State.port_setPend_other s _ hp,
    fun _ => ⟨rfl, rfl, fun _ => rfl⟩, fun _ => rfl, rfl, ⟨rfl, rfl, rfl⟩, rfl, by simp⟩

/-- The producer's checks: an invalid identifier, a wrong role, or the body's state (R105, R106). -/
theorem producer_whole {P : State → Prop} {s k : State} {b : Byte} (h : s.Inv)
    (hk : b.toNat < s.cfg.nb → s.isProd s.cur b = true → P k) :
    ∃ t, s.asProducer b k = .next t ∧
      if s.cfg.nb ≤ b.toNat then OnlyAnswered s t s.cur ⟨.fail .badBuf, 0, []⟩
      else if s.isProd s.cur b = false then OnlyFaulted s t s.cur .roleViol else P t := by
  have hc := Inv.cur h
  unfold State.asProducer
  by_cases hv : s.bufValid b = true
  · have hb := valid_iff.1 hv
    rw [if_neg (by simp [hv])]
    by_cases hp : s.isProd s.cur b = true
    · rw [if_neg (by simp [hp])]
      exact ⟨_, rfl, by rw [if_neg (by omega), if_neg (by simp [hp])]; exact hk hb hp⟩
    · rw [if_pos (by simp [hp])]
      exact ⟨_, rfl, by rw [if_neg (by omega), if_pos (by simpa using hp)]; exact State.onlyFaulted_raise _ hc⟩
  · rw [if_pos (by simp [hv])]
    exact ⟨_, rfl, by rw [if_pos (by simpa [State.bufValid] using hv)]; exact State.onlyAnswered_respond _ hc⟩

/-- The consumer's checks: an invalid identifier, a wrong role, or the body's state (R105, R106). -/
theorem consumer_whole {P : State → Prop} {s k : State} {b : Byte} (h : s.Inv)
    (hk : b.toNat < s.cfg.nb → s.isCons s.cur b = true → P k) :
    ∃ t, s.asConsumer b k = .next t ∧
      if s.cfg.nb ≤ b.toNat then OnlyAnswered s t s.cur ⟨.fail .badBuf, 0, []⟩
      else if s.isCons s.cur b = false then OnlyFaulted s t s.cur .roleViol else P t := by
  have hc := Inv.cur h
  unfold State.asConsumer
  by_cases hv : s.bufValid b = true
  · have hb := valid_iff.1 hv
    rw [if_neg (by simp [hv])]
    by_cases hp : s.isCons s.cur b = true
    · rw [if_neg (by simp [hp])]
      exact ⟨_, rfl, by rw [if_neg (by omega), if_neg (by simp [hp])]; exact hk hb hp⟩
    · rw [if_pos (by simp [hp])]
      exact ⟨_, rfl, by rw [if_neg (by omega), if_pos (by simpa using hp)]; exact State.onlyFaulted_raise _ hc⟩
  · rw [if_pos (by simp [hv])]
    exact ⟨_, rfl, by rw [if_pos (by simpa [State.bufValid] using hv)]; exact State.onlyAnswered_respond _ hc⟩

/-- The checks of a blocking operation, in order: bad queue, bad shape, context, readiness, then the body (R142,
    R151). -/
theorem blocking_whole {P : State → Prop} {s : State} {q : Byte} {sh : Shape} {ready : Bool} {rec : Pend} {body : Result} (h : s.Inv)
    (hk : ready = true → s.qlive q = true → (s.queue q).shape = some sh → s.isIsr s.cur = false → ∃ t,
        body = .next t ∧ P t) :
    ∃ t, s.blocking q sh ready rec body = .next t ∧
     if s.qlive q = false then OnlyAnswered s t s.cur ⟨.fail .badQueue, 0, []⟩
    else if (s.queue q).shape ≠ some sh then OnlyAnswered s t s.cur ⟨.fail .shape, 0, []⟩
    else if s.isIsr s.cur = true then OnlyFaulted s t s.cur .ctxViol
    else if ready = false then OnlyRecorded s t s.cur rec
    else P t := by
  have hc := Inv.cur h
  unfold State.blocking
  by_cases h1 : s.qlive q = true
  swap
  · have e : s.queueFault q sh = some .badQueue := by simp [State.queueFault, h1]
    rw [e]; exact ⟨_, rfl, by rw [if_pos (by simpa using h1)]; exact State.onlyAnswered_respond _ hc⟩
  by_cases h2 : (s.queue q).shape = some sh
  swap
  · have e : s.queueFault q sh = some .shape := by simp [State.queueFault, h1, h2]
    rw [e]; exact ⟨_, rfl, by rw [if_neg (by simp [h1]), if_pos h2]; exact State.onlyAnswered_respond _ hc⟩
  rw [(State.queueFault_eq_none s q sh).2 ⟨h1, h2⟩]
  simp only []
  by_cases h3 : s.isIsr s.cur = true
  · rw [if_pos h3]
    exact ⟨_, rfl, by rw [if_neg (by simp [h1]), if_neg (by simp [h2]), if_pos h3]; exact State.onlyFaulted_raise _ hc⟩
  rw [if_neg h3]
  by_cases h4 : ready = true
  swap
  · refine ⟨_, if_neg h4, ?_⟩
    rw [if_neg (by simp [h1]), if_neg (by simp [h2]), if_neg h3, if_pos (by simpa using h4)]
    exact recorded _ hc
  rw [if_pos h4]
  obtain ⟨t, e, ht⟩ := hk h4 h1 h2 (by simpa using h3)
  exact ⟨t, e, by rw [if_neg (by simp [h1]), if_neg (by simp [h2]), if_neg h3, if_neg (by simp [h4])]; exact ht⟩

/-- The checks of an operation that does not block: bad queue, bad shape, then the body (R140). -/
theorem nonblocking_whole {P : State → Prop} {s : State} {q : Byte} {sh : Shape} {body : Result} (h : s.Inv)
    (hk : s.qlive q = true → (s.queue q).shape = some sh → ∃ t, body = .next t ∧ P t) :
    ∃ t, (match s.queueFault q sh with | some c => .next (s.fail s.cur c 0) | none => body : Result) = .next t ∧
     if s.qlive q = false then OnlyAnswered s t s.cur ⟨.fail .badQueue, 0, []⟩
    else if (s.queue q).shape ≠ some sh then OnlyAnswered s t s.cur ⟨.fail .shape, 0, []⟩
    else P t := by
  have hc := Inv.cur h
  by_cases h1 : s.qlive q = true
  swap
  · have e : s.queueFault q sh = some .badQueue := by simp [State.queueFault, h1]
    rw [e]; exact ⟨_, rfl, by rw [if_pos (by simpa using h1)]; exact State.onlyAnswered_respond _ hc⟩
  by_cases h2 : (s.queue q).shape = some sh
  swap
  · have e : s.queueFault q sh = some .shape := by simp [State.queueFault, h1, h2]
    rw [e]; exact ⟨_, rfl, by rw [if_neg (by simp [h1]), if_pos h2]; exact State.onlyAnswered_respond _ hc⟩
  rw [(State.queueFault_eq_none s q sh).2 ⟨h1, h2⟩]
  obtain ⟨t, e, ht⟩ := hk h1 h2
  exact ⟨t, e, by rw [if_neg (by simp [h1]), if_neg (by simp [h2])]; exact ht⟩

/-- The entries of a live line queue are line descriptors of valid buffers (R27). -/
theorem fifo_line {s : State} (h : s.Inv) {q : Byte} (h1 : s.qlive q = true) (h2 : (s.queue q).shape = some .line) :
    ∀ x ∈ (s.queue q).fifo, ∃ b e, x = .line b e ∧ s.bufValid b = true := by
  obtain ⟨-, -, -, -, h5, -⟩ := h
  simp only [State.qlive, Bool.and_eq_true, decide_eq_true_eq] at h1
  have := h5 q.toNat h1.1
  change s.queueOk _ (s.queue q) = true at this
  simp only [State.queueOk, h1.2, if_true, Bool.and_eq_true, beq_iff_eq, List.all_eq_true] at this
  intro x hx
  have hx' := this.2 x hx
  rw [← this.1.1, h2] at hx'
  cases x with
  | line b e => exact ⟨b, e, rfl, by simpa [State.entryOk] using hx'⟩
  | byte v => simp [State.entryOk] at hx'

/-- The entries of a live byte queue are bytes (R27). -/
theorem fifo_byte {s : State} (h : s.Inv) {q : Byte} (h1 : s.qlive q = true) (h2 : (s.queue q).shape = some .byte) :
    ∀ x ∈ (s.queue q).fifo, ∃ v, x = .byte v := by
  obtain ⟨-, -, -, -, h5, -⟩ := h
  simp only [State.qlive, Bool.and_eq_true, decide_eq_true_eq] at h1
  have := h5 q.toNat h1.1
  change s.queueOk _ (s.queue q) = true at this
  simp only [State.queueOk, h1.2, if_true, Bool.and_eq_true, beq_iff_eq, List.all_eq_true] at this
  intro x hx
  have hx' := this.2 x hx
  rw [← this.1.1, h2] at hx'
  cases x with
  | line b e => simp [State.entryOk] at hx'
  | byte v => exact ⟨v, rfl⟩

/-- The drain that is one step copies min(e, m, N) bytes, or none and fails (R103, R145). -/
theorem drain_atomic {s : State} {p : Nat} {b : Byte} {e m : Half} (record : Copy → Pend)
    (hb : b.toNat < s.bufs.length) (hr : s.rc b < s.cfg.n) (hp : p < s.ports.length) (ha : s.cfg.atomicMultibyte = true) :
    let t := s.startDrain p record (s.newCopy b e m)
    if min e.toNat (min m.toNat s.cfg.n) = 0 then t = s.respond p ⟨.fail .zeroCount, 0, []⟩
    else ∃ out, BytesRead s b (min e.toNat (min m.toNat s.cfg.n)) out ∧
      ReadOn s t b (min e.toNat (min m.toNat s.cfg.n)) ∧ SameOtherBufs s t b ∧ t.queues = s.queues ∧ t.status = s.status ∧
      SameModel s t ∧ Answered s t p ⟨.ok, BitVec.ofNat 16 (min e.toNat (min m.toNat s.cfg.n)), out⟩ := by
  intro t
  have hlim : (s.newCopy b e m).limit s.cfg.n = min e.toNat (min m.toNat s.cfg.n) := rfl
  have ht : t = (s.copyRun (s.newCopy b e m) s.cfg.n).1.respond p (countResponse (s.copyRun (s.newCopy b e m) s.cfg.n).2.count
    (s.copyRun (s.newCopy b e m) s.cfg.n).2.out) := by simp only [t, State.startDrain, if_pos ha]
  split
  · rename_i hz
    have hn := Config.n_pos s.cfg
    have : (s.newCopy b e m).more s.cfg.n = false := by
      have := (s.newCopy b e m).more_iff s.cfg.n (by simp [State.newCopy])
      rw [hlim, hz] at this
      simpa [State.newCopy] using this
    obtain ⟨f, hf⟩ : ∃ f, s.cfg.n = f + 1 := ⟨s.cfg.n - 1, by omega⟩
    rw [ht, hf, State.copyRun, this]
    simp [State.newCopy, countResponse]
  · rename_i hz
    obtain ⟨k1, k2, xs, k3, k4, k5⟩ := State.copyRun_spec s.cfg.n s (s.newCopy b e m) hb hr (by simp [State.newCopy])
      (by rw [hlim]; omega)
    obtain ⟨f1, f2, f3⟩ := State.copyRun_frame s.cfg.n s (s.newCopy b e m)
    have ho := SameOutside.copyRun s.cfg.n s (s.newCopy b e m)
    have hcb : (s.newCopy b e m).b = b := rfl
    have hcc : (s.newCopy b e m).count = 0 := rfl
    have hco : (s.newCopy b e m).out = [] := rfl
    rw [hcb] at k2 k5 f3
    rw [hlim, hcc, Nat.sub_zero] at k2 k4
    rw [hlim] at k1
    rw [hco, List.nil_append] at k3
    have hcr : countResponse (min e.toNat (min m.toNat s.cfg.n)) xs = ⟨.ok,
        BitVec.ofNat 16 (min e.toNat (min m.toNat s.cfg.n)), xs⟩ := by
      rw [countResponse, if_neg hz]
    rw [k1, k3, hcr] at ht
    refine ⟨xs, ⟨k4, fun j v hj hv => k5 j v (by omega) hv⟩, ?_, ?_, ?_, ?_, ?_, ?_⟩
    · rw [ht]; exact ⟨k2, f1 b, f2 b⟩
    · rw [ht]; exact fun b' hb' => ⟨f1 b', f3 b' hb', f2 b'⟩
    · rw [ht]; exact ho.queues
    · rw [ht]; exact ho.status
    · rw [ht]; exact ⟨ho.cfg, ho.cur, ho.sched⟩
    · rw [ht]; exact answered_after ho _ hp

end Sys2Proof.Machine
end

