-- ==== Sys2Proof/Laws/Decode.lean ====
section
/-! SUPPORT. Decoding by the row of the opcode table that a word selects (30_encoding.md R74, R79). -/

namespace Sys2Proof

/-- The row a word selects decides its operation. -/
theorem decode_of_row {r : OpcodeRow} (hr : r ∈ opcodeTable) {w : CmdWord} {d : List Byte} (hw : w &&& r.mask = r.pattern)
    (hd : d.length = payloadLength w) : decode w d = .op (buildInstr r.op w d) := by
  have hall : ∀ a ∈ opcodeTable, ∀ b ∈ opcodeTable, a.pattern &&& b.mask = b.pattern &&& a.mask → a = b := by decide
  cases hf : opcodeTable.find? (fun x => x.selects w) with
  | none =>
    have := List.find?_eq_none.1 hf r hr
    simp [OpcodeRow.selects, hw] at this
  | some a =>
    have ha : a.selects w = true := by simpa using List.find?_some hf
    have ha' : w &&& a.mask = a.pattern := by simpa [OpcodeRow.selects] using ha
    have : a = r := hall a (List.mem_of_find?_eq_some hf) r hr (by rw [← ha', ← hw]; ac_rfl)
    subst this
    simp only [decode, hf, hd, if_true]

end Sys2Proof
end

