-- ==== Sys2Proof/Laws/ForPort.lean ====
section
/-! SUPPORT. What the primitive operations keep when a port performs them: the shape of the state (10_state.md R21 to R29), the
other ports' records (R31) and every buffer the port is not bound to (20_memory.md R57). -/

namespace Sys2Proof.Machine

/-- The parts of the invariant that do not speak of the ports' records. -/
structure Good (s : State) : Prop where
  legal : s.cfg.Legal
  sized : s.Sized
  bufs : ∀ b < s.cfg.nb, s.bufOk (s.bufs.getD b Buf.blank) = true
  queues : ∀ q < s.cfg.nq, s.queueOk s.cfg.qshapes[q]? (s.queues.getD q Queue.blank) = true
  st : s.status &&& 0xFFF0 = 0

theorem Inv.good {s : State} (h : s.Inv) : Good s := ⟨h.1, h.2.1, h.2.2.2.1, h.2.2.2.2.1, h.2.2.2.2.2.1⟩

theorem bufOk_cfg {s t : State} (h : t.cfg = s.cfg) (x : Buf) : t.bufOk x = s.bufOk x := by
  simp only [State.bufOk, State.unlisted, h]

theorem entryOk_cfg {s t : State} (h : t.cfg = s.cfg) (sh x) : t.entryOk sh x = s.entryOk sh x := by
  cases x <;> simp only [State.entryOk, State.bufValid, h]

theorem queueOk_cfg {s t : State} (h : t.cfg = s.cfg) (sh : Option Shape) (x : Queue) :
    t.queueOk sh x = s.queueOk sh x := by
  simp only [State.queueOk, h, funext (entryOk_cfg h sh)]

theorem Good.congr {s t : State} (g : Good s) (h1 : t.cfg = s.cfg) (h2 : t.bufs = s.bufs) (h3 : t.queues = s.queues)
    (h4 : t.ports.length = s.ports.length) (h5 : t.status &&& 0xFFF0 = 0) : Good t := by
  obtain ⟨a, b, c, d, e⟩ := g
  refine ⟨h1 ▸ a, ?_, ?_, ?_, h5⟩
  · simp only [State.Sized, h1, h2, h3, h4]; exact b
  · intro i hi; rw [bufOk_cfg h1, h2]; exact c i (by rw [← h1]; exact hi)
  · intro i hi; rw [queueOk_cfg h1, h3, h1]; exact d i (by rw [← h1]; exact hi)

theorem Good.setBuf {s : State} (g : Good s) {b : Byte} {x : Buf} (h : s.bufOk x = true) : Good (s.setBuf b x) := by
  obtain ⟨a, ⟨b1, b2, b3⟩, c, d, e⟩ := g
  refine ⟨a, ⟨by simpa using b1, b2, b3⟩, ?_, d, e⟩
  intro i hi
  show s.bufOk ((s.bufs.set b.toNat x).getD i Buf.blank) = true
  rw [List.getD_eq_getElem?_getD, List.getElem?_set]
  split
  · split
    · exact h
    · rename_i h1 h2; subst h1; have hi' : b.toNat < s.cfg.nb := hi; omega
  · rw [← List.getD_eq_getElem?_getD]; exact c i hi

theorem Good.setQueue {s : State} (g : Good s) {q : Byte} {x : Queue} (h : s.queueOk s.cfg.qshapes[q.toNat]? x = true) : Good (s.setQueue q x) := by
  obtain ⟨a, ⟨b1, b2, b3⟩, c, d, e⟩ := g
  refine ⟨a, ⟨b1, by simpa using b2, b3⟩, c, ?_, e⟩
  intro i hi
  show s.queueOk s.cfg.qshapes[i]? ((s.queues.set q.toNat x).getD i Queue.blank) = true
  rw [List.getD_eq_getElem?_getD, List.getElem?_set]
  split
  · split
    · rename_i h1 h2; subst h1; exact h
    · rename_i h1 h2; subst h1; have hi' : q.toNat < s.cfg.nq := hi; omega
  · rw [← List.getD_eq_getElem?_getD]; exact d i hi

theorem Good.buf {s : State} (g : Good s) {b : Byte} (hb : b.toNat < s.cfg.nb) : s.bufOk (s.buf b) = true := g.bufs _ hb

theorem Good.queue {s : State} (g : Good s) {q : Byte} (hb : q.toNat < s.cfg.nq) :
    s.queueOk s.cfg.qshapes[q.toNat]? (s.queue q) = true := g.queues _ hb

theorem prod_valid {s : State} {p b} (h : s.isProd p b = true) : b.toNat < s.cfg.nb := by
  unfold State.isProd at h
  by_contra hc
  rw [List.getElem?_eq_none (by simpa [Config.nb] using hc)] at h
  simp at h

theorem cons_valid {s : State} {p b} (h : s.isCons p b = true) : b.toNat < s.cfg.nb := by
  unfold State.isCons at h
  by_contra hc
  rw [List.getElem?_eq_none (by simpa [Config.nb] using hc)] at h
  simp at h

/-- A write below N keeps every written cell below N. -/
theorem put_lt (d : Option Byte) (n : Nat) (m : Memory) (a v) (ha : a < n) (h : m.all (fun c => decide (c.1 < n)) = true) :
    (Memory.put d m a v).all (fun c => decide (c.1 < n)) = true := by
  induction m with
  | nil => unfold Memory.put; split <;> simp [ha]
  | cons x xs ih =>
    obtain ⟨k, u⟩ := x
    simp only [List.all_cons, Bool.and_eq_true, decide_eq_true_eq] at h
    have := ih h.2
    unfold Memory.put
    split
    · split
      · simpa using ⟨h.1, by simpa using h.2⟩
      · simpa [ha, h.1] using h.2
    · split
      · split
        · exact h.2
        · simpa [ha] using h.2
      · simpa [h.1] using this

/-- What an operation performed for port `p` may do to the state: it keeps the invariant's parts,
    leaves the other ports' records
and every created queue's shape, and moves only what `p` is bound to (R57). -/
structure ForPort (p : Nat) (s t : State) : Prop where
  cfg : t.cfg = s.cfg
  good : Good s → Good t
  other : ∀ p', p' ≠ p → t.pend p' = s.pend p'
  qf : ∀ q sh, s.queueFault q sh = none → t.queueFault q sh = none
  wc : ∀ b, s.isProd p b = false → t.wc b = s.wc b ∧ ∀ i, t.cell b i = s.cell b i
  rc : ∀ b, s.isCons p b = false → t.rc b = s.rc b

theorem isProd_cfg {s t : State} (h : t.cfg = s.cfg) (p b) :
    t.isProd p b = s.isProd p b := by simp only [State.isProd, h]

theorem isCons_cfg {s t : State} (h : t.cfg = s.cfg) (p b) :
    t.isCons p b = s.isCons p b := by simp only [State.isCons, h]

theorem ForPort.refl (p s) :
    ForPort p s s := ⟨rfl, id, fun _ _ => rfl, fun _ _ => id, fun _ _ => ⟨rfl, fun _ => rfl⟩, fun _ _ => rfl⟩

theorem ForPort.trans {p} {s t u : State} (h : ForPort p s t) (k : ForPort p t u) : ForPort p s u where
  cfg := k.cfg.trans h.cfg
  good := k.good ∘ h.good
  other p' hp := (k.other p' hp).trans (h.other p' hp)
  qf q sh hq := k.qf q sh (h.qf q sh hq)
  wc b hb := by
    have h1 := h.wc b hb
    have h2 := k.wc b (by rw [isProd_cfg h.cfg]; exact hb)
    exact ⟨h2.1.trans h1.1, fun i => (h2.2 i).trans (h1.2 i)⟩
  rc b hb := (k.rc b (by rw [isCons_cfg h.cfg]; exact hb)).trans (h.rc b hb)

theorem ForPort.respond (p) (s : State) (r) : ForPort p s (s.respond p r) :=
  ⟨rfl, fun g => g.congr rfl rfl rfl (by simp) g.st, fun p' _ => by simp, fun _ _ => id, fun _ _ => ⟨rfl,
      fun _ => rfl⟩, fun _ _ => rfl⟩

theorem ForPort.setPend (p) (s : State) (r) : ForPort p s (s.setPend p r) :=
  ⟨rfl, fun g => g.congr rfl rfl rfl (by simp) g.st, fun p' hp => by simp only [State.pend,
      State.port_setPend_other _ _ hp], fun _ _ => id, fun _ _ => ⟨rfl, fun _ => rfl⟩, fun _ _ => rfl⟩

theorem ForPort.setStatus (p) (s : State) (k : BitVec 16) (hk : k &&& 0xFFF0 = 0) : ForPort p s (s.setStatus k) :=
  ⟨rfl, fun g => g.congr rfl rfl rfl rfl (by
    show (s.status ||| k) &&& 0xFFF0 = 0
    have h : (s.status ||| k) &&& 0xFFF0 = (s.status &&& 0xFFF0) ||| (k &&& 0xFFF0) := by
      ext i; simp [Bool.and_or_distrib_right]
    rw [h, g.st, hk]; rfl), fun _ _ => rfl, fun _ _ => id, fun _ _ => ⟨rfl, fun _ => rfl⟩, fun _ _ => rfl⟩

theorem ForPort.raise (p) (s : State) (f) : ForPort p s (s.raise p f) :=
  (ForPort.setStatus p s _ (by cases f <;> decide)).trans (ForPort.respond _ _ _)

theorem ForPort.model (p) (s t : State) (h1 : t.cfg = s.cfg) (h2 : t.bufs = s.bufs) (h3 : t.queues = s.queues) (h4 : t.status = s.status)
    (h5 : t.ports.length = s.ports.length) (h6 : ∀ p', p' ≠ p → t.pend p' = s.pend p') : ForPort p s t :=
  ⟨h1, fun g => g.congr h1 h2 h3 h5 (by rw [h4]; exact g.st), h6, fun q sh h => by
    rw [State.queueFault_eq_none] at h ⊢; simpa only [State.qlive, State.queue, h1, h3] using h,
        fun b _ => ⟨by simp only [State.wc, State.buf, h2], fun i => by simp only [State.cell, State.buf,
        State.unlisted, h2, h1]⟩, fun b _ => by simp only [State.rc, State.buf, h2]⟩

theorem ForPort.memWrite {p} {s : State} {b : Byte} (h : s.isProd p b = true) (i v) :
    ForPort p s (s.memWrite b i v) := by
  refine ⟨rfl, fun g => g.setBuf ?_, fun _ _ => rfl, fun _ _ => id, fun b' hb => ⟨by simp, fun j => ?_⟩,
      fun b' _ => by simp⟩
  · have := g.buf (prod_valid h)
    simp only [State.bufOk, Bool.and_eq_true, decide_eq_true_eq] at this ⊢
    exact ⟨⟨this.1.1, Memory.wf_put _ _ _ _ this.1.2⟩, put_lt _ _ _ _ _ (Nat.mod_lt _ (Config.n_pos _)) this.2⟩
  · exact State.cell_memWrite_otherBuf s i v (fun e => by subst e; simp [h] at hb) j

theorem ForPort.setWc {p} {s : State} {b : Byte} (h : s.isProd p b = true) (v) : ForPort p s (s.setWc b v) := by
  refine ⟨rfl, fun g => g.setBuf ?_, fun _ _ => rfl, fun _ _ => id, fun b' hb => ⟨?_, fun j => by simp⟩,
      fun b' _ => by simp⟩
  · have := g.buf (prod_valid h)
    simp only [State.bufOk, Bool.and_eq_true, decide_eq_true_eq] at this ⊢
    exact ⟨⟨⟨Nat.mod_lt _ (Config.n_pos _), this.1.1.2⟩, this.1.2⟩, this.2⟩
  · exact State.wc_setWc_other s v (fun e => by subst e; simp [h] at hb)

theorem ForPort.setRc {p} {s : State} {b : Byte} (h : s.isCons p b = true) (v) : ForPort p s (s.setRc b v) := by
  refine ⟨rfl, fun g => g.setBuf ?_, fun _ _ => rfl, fun _ _ => id, fun b' hb => ⟨by simp, fun j => by simp⟩,
      fun b' hb => ?_⟩
  · have := g.buf (cons_valid h)
    simp only [State.bufOk, Bool.and_eq_true, decide_eq_true_eq] at this ⊢
    exact ⟨⟨⟨this.1.1.1, Nat.mod_lt _ (Config.n_pos _)⟩, this.1.2⟩, this.2⟩
  · exact State.rc_setRc_other s v (fun e => by subst e; simp [h] at hb)

theorem ForPort.memRead (p) (s : State) (b i) : ForPort p s (s.memRead b i).2 := by
  rw [State.memRead_eq]; exact ForPort.model _ _ _ rfl rfl rfl rfl rfl (fun _ _ => rfl)

theorem qok_setQueue {s : State} {q : Byte} {x : Queue} (h1 : x.created = (s.queue q).created) (h2 : x.shape = (s.queue q).shape) (q' : Byte) (sh) (h : s.queueFault q' sh = none) :
    (s.setQueue q x).queueFault q' sh = none := by
  have a1 : ((s.setQueue q x).queue q').created = (s.queue q').created ∧ ((s.setQueue q x).queue q').shape = (s.queue q').shape := by
    by_cases e : q' = q
    · subst e
      by_cases hl : q'.toNat < s.queues.length
      · rw [State.queue_setQueue_same _ hl]; exact ⟨h1, h2⟩
      · rw [State.setQueue_invalid _ _ (by omega)]; exact ⟨rfl, rfl⟩
    · rw [State.queue_setQueue_other _ _ e]; exact ⟨rfl, rfl⟩
  rw [State.queueFault_eq_none] at h ⊢
  simp only [State.qlive, a1.1, a1.2, State.cfg_setQueue]; exact h

theorem ForPort.enqueue (p) {s : State} {q : Byte} {x : Entry} {sh : Shape} (hf : s.queueFault q sh = none) (hx : s.entryOk (some sh) x = true)
    (hl : s.full q = false) : ForPort p s (s.enqueue q x) := by
  refine ⟨rfl, fun g => g.setQueue ?_, fun _ _ => rfl, fun q' sh' h => by
    exact qok_setQueue (by rfl) (by rfl) q' sh' h, fun _ _ => ⟨rfl, fun _ => rfl⟩, fun _ _ => rfl⟩
  obtain ⟨h1, h2⟩ := (State.queueFault_eq_none s q sh).1 hf
  have h3 : q.toNat < s.cfg.nq ∧ (s.queue q).created = true := by simpa [State.qlive] using h1
  have := g.queue h3.1
  simp only [State.queueOk, h3.2, if_true, Bool.and_eq_true, decide_eq_true_eq, List.all_append, h2,
      beq_iff_eq] at this ⊢
  simp only [State.full, decide_eq_false_iff_not] at hl
  refine ⟨⟨this.1.1, by simp; omega⟩, this.2, ?_⟩
  rw [← this.1.1]; simp [hx]

theorem ForPort.dropHead (p) (s : State) (q : Byte) (hne : s.qlive q = true) : ForPort p s (s.dropHead q) := by
  refine ⟨rfl, fun g => g.setQueue ?_, fun _ _ => rfl, fun q' sh' h => by
    exact qok_setQueue (by rfl) (by rfl) q' sh' h, fun _ _ => ⟨rfl, fun _ => rfl⟩, fun _ _ => rfl⟩
  have h3 : q.toNat < s.cfg.nq ∧ (s.queue q).created = true := by simpa [State.qlive] using hne
  have := g.queue h3.1
  simp only [State.queueOk, h3.2, if_true, Bool.and_eq_true, decide_eq_true_eq, beq_iff_eq] at this ⊢
  refine ⟨⟨this.1.1, by simp; omega⟩, ?_⟩
  rw [List.all_eq_true] at *
  intro x hx
  exact this.2 x (List.mem_of_mem_tail hx)

theorem ForPort.copyOne {p} {s : State} {c : Copy} (h : s.isCons p c.b = true) : ForPort p s (s.copyOne c).1 :=
  (ForPort.memRead p s _ _).trans (ForPort.setRc (by rw [isCons_cfg (ForPort.memRead p s _ _).cfg]; exact h) _)

theorem ForPort.copyRun {p} (fuel) {s : State} {c : Copy} (h : s.isCons p c.b = true) :
    ForPort p s (s.copyRun c fuel).1 := by
  induction fuel generalizing s c with
  | zero => exact ForPort.refl _ _
  | succ f ih =>
    rw [State.copyRun]; split
    · exact (ForPort.copyOne h).trans (ih (by rw [isCons_cfg (ForPort.copyOne h).cfg]; exact h))
    · exact ForPort.refl _ _

theorem ForPort.storeFrom {p} {b : Byte} (data) {s : State} (h : s.isProd p b = true) (i) :
    ForPort p s (s.storeFrom b i data) := by
  induction data generalizing s i with
  | nil => exact ForPort.refl _ _
  | cons v vs ih => exact (ForPort.memWrite h i v).trans (ih (s := s.memWrite b i v) h (i + 1))

theorem ForPort.storeFiltered {p} {s : State} {b : Byte} (h : s.isProd p b = true) (v) :
    ForPort p s (s.storeFiltered b v) := by
  unfold State.storeFiltered; split
  · exact ForPort.refl _ _
  · have := ForPort.memWrite (p := p) h (s.wc b) v
    exact this.trans (ForPort.setWc (by rw [isProd_cfg this.cfg]; exact h) _)


end Sys2Proof.Machine
end

