-- ==== Sys2Proof/Laws/PerInstr.lean ====
section
/-! SUPPORT. Per instruction: the word an operation is encoded as is selected by that operation's row of the opcode table
(30_encoding.md R71, R73, R74). -/

namespace Sys2Proof

theorem append_and {n m : Nat} (x y : BitVec n) (u v : BitVec m) :
    (x ++ u) &&& (y ++ v) = (x &&& y) ++ (u &&& v) := by
  ext i h
  simp only [BitVec.getElem_and, BitVec.getElem_append]
  split <;> rfl

/-- A word under a mask, field by field (R71, R74). -/
theorem cmdWord_and (opc i1 i2 : Byte) (a b : Half) (m0 m1 m2 m3 : Byte) (ma mb : Half) :
    cmdWord opc i1 i2 a b &&& (mb ++ ma ++ m3 ++ m2 ++ m1 ++ m0) =
      (b &&& mb) ++ (a &&& ma) ++ (0 &&& m3) ++ (i2 &&& m2) ++ (i1 &&& m1) ++ (opc &&& m0) := by
  refine (append_and _ _ _ _).trans (congrArg (fun z : BitVec 56 => z ++ (opc &&& m0)) ?_)
  refine (append_and _ _ _ _).trans (congrArg (fun z : BitVec 48 => z ++ (i1 &&& m1)) ?_)
  refine (append_and _ _ _ _).trans (congrArg (fun z : BitVec 40 => z ++ (i2 &&& m2)) ?_)
  refine (append_and _ _ _ _).trans (congrArg (fun z : BitVec 32 => z ++ (0 &&& m3)) ?_)
  exact append_and _ _ _ _

/-- A byte operand leaves A[15:8] zero (R72). -/
theorem byteOperand_high (v : Byte) : v.setWidth 16 &&& (0xFF00 : Half) = 0 := by
  ext i h
  simp
  intro h1
  interval_cases i <;> simp_all

namespace Laws.EncodeRow

/-- The word of the operation's encoding is selected by the row of its name. -/
def Statement (i : Instr) : Prop :=
  ∃ r ∈ opcodeTable, r.op = i.opcode ∧ r.selects (encode i).word = true

theorem of_masked {i : Instr} (r : OpcodeRow) (h1 : r ∈ opcodeTable) (h2 : r.op = i.opcode)
    (h3 : (encode i).word &&& r.mask = r.pattern) : Statement i :=
  ⟨r, h1, h2, by rw [OpcodeRow.selects, h3]; simp⟩

theorem rbWb (b : Byte) (v : Byte) : Statement (.rbWb b v) := by
  refine of_masked ⟨.rbWb, 0x0000000000000001, 0xFFFFFF00FFFF00FF⟩ (by simp [opcodeTable]) rfl ?_
  refine (cmdWord_and 0x01 b 0 (v.setWidth 16) 0 0xFF 0x00 0xFF 0xFF 0xFF00 0xFFFF).trans ?_
  rw [byteOperand_high]
  simp

theorem rbRb (b : Byte) : Statement (.rbRb b) := by
  refine of_masked ⟨.rbRb, 0x0000000000000002, 0xFFFFFFFFFFFF00FF⟩ (by simp [opcodeTable]) rfl ?_
  refine (cmdWord_and 0x02 b 0 0 0 0xFF 0x00 0xFF 0xFF 0xFFFF 0xFFFF).trans ?_
  simp

theorem rbWm (b : Byte) (data : List Byte) : Statement (.rbWm b data) := by
  refine of_masked ⟨.rbWm, 0x0000000000000003, 0xFFFF0000FFFF00FF⟩ (by simp [opcodeTable]) rfl ?_
  refine (cmdWord_and 0x03 b 0 (BitVec.ofNat 16 data.length) 0 0xFF 0x00 0xFF 0xFF 0x0000 0xFFFF).trans ?_
  simp

theorem rbRm (b : Byte) (e : Half) (m : Half) : Statement (.rbRm b e m) := by
  refine of_masked ⟨.rbRm, 0x0000000000000004, 0x00000000FFFF00FF⟩ (by simp [opcodeTable]) rfl ?_
  refine (cmdWord_and 0x04 b 0 e m 0xFF 0x00 0xFF 0xFF 0x0000 0x0000).trans ?_
  simp

theorem rbEmpty (b : Byte) : Statement (.rbEmpty b) := by
  refine of_masked ⟨.rbEmpty, 0x0000000000000005, 0xFFFFFFFFFFFF00FF⟩ (by simp [opcodeTable]) rfl ?_
  refine (cmdWord_and 0x05 b 0 0 0 0xFF 0x00 0xFF 0xFF 0xFFFF 0xFFFF).trans ?_
  simp

theorem rbPushl (b : Byte) (q : Byte) (v : Byte) : Statement (.rbPushl b q v) := by
  refine of_masked ⟨.rbPushl, 0x0000000000000006, 0xFFFFFF00FF0000FF⟩ (by simp [opcodeTable]) rfl ?_
  refine (cmdWord_and 0x06 b q (v.setWidth 16) 0 0xFF 0x00 0x00 0xFF 0xFF00 0xFFFF).trans ?_
  rw [byteOperand_high]
  simp

theorem mqInit : Statement .mqInit := by
  refine of_masked ⟨.mqInit, 0x0000000000000010, 0xFFFFFFFFFFFFFFFF⟩ (by simp [opcodeTable]) rfl ?_
  refine (cmdWord_and 0x10 0 0 0 0 0xFF 0xFF 0xFF 0xFF 0xFFFF 0xFFFF).trans ?_
  simp

theorem mqSendlIsr (q : Byte) (b : Byte) (e : Half) : Statement (.mqSendlIsr q b e) := by
  refine of_masked ⟨.mqSendlIsr, 0x0000000000000011, 0xFFFF0000FF0000FF⟩ (by simp [opcodeTable]) rfl ?_
  refine (cmdWord_and 0x11 q b e 0 0xFF 0x00 0x00 0xFF 0x0000 0xFFFF).trans ?_
  simp

theorem mqRecvl (q : Byte) (m : Half) : Statement (.mqRecvl q m) := by
  refine of_masked ⟨.mqRecvl, 0x0000000000000012, 0x0000FFFFFFFF00FF⟩ (by simp [opcodeTable]) rfl ?_
  refine (cmdWord_and 0x12 q 0 0 m 0xFF 0x00 0xFF 0xFF 0xFFFF 0x0000).trans ?_
  simp

theorem mqSendb (q : Byte) (v : Byte) : Statement (.mqSendb q v) := by
  refine of_masked ⟨.mqSendb, 0x0000000000000013, 0xFFFFFF00FFFF00FF⟩ (by simp [opcodeTable]) rfl ?_
  refine (cmdWord_and 0x13 q 0 (v.setWidth 16) 0 0xFF 0x00 0xFF 0xFF 0xFF00 0xFFFF).trans ?_
  rw [byteOperand_high]
  simp

theorem mqRecvb (q : Byte) : Statement (.mqRecvb q) := by
  refine of_masked ⟨.mqRecvb, 0x0000000000000014, 0xFFFFFFFFFFFF00FF⟩ (by simp [opcodeTable]) rfl ?_
  refine (cmdWord_and 0x14 q 0 0 0 0xFF 0x00 0xFF 0xFF 0xFFFF 0xFFFF).trans ?_
  simp

theorem mqSendbIsr (q : Byte) (v : Byte) : Statement (.mqSendbIsr q v) := by
  refine of_masked ⟨.mqSendbIsr, 0x0000000000000015, 0xFFFFFF00FFFF00FF⟩ (by simp [opcodeTable]) rfl ?_
  refine (cmdWord_and 0x15 q 0 (v.setWidth 16) 0 0xFF 0x00 0xFF 0xFF 0xFF00 0xFFFF).trans ?_
  rw [byteOperand_high]
  simp

theorem mqRecvbIsr (q : Byte) : Statement (.mqRecvbIsr q) := by
  refine of_masked ⟨.mqRecvbIsr, 0x0000000000000016, 0xFFFFFFFFFFFF00FF⟩ (by simp [opcodeTable]) rfl ?_
  refine (cmdWord_and 0x16 q 0 0 0 0xFF 0x00 0xFF 0xFF 0xFFFF 0xFFFF).trans ?_
  simp

theorem mqPendIsr (q : Byte) : Statement (.mqPendIsr q) := by
  refine of_masked ⟨.mqPendIsr, 0x0000000000000017, 0xFFFFFFFFFFFF00FF⟩ (by simp [opcodeTable]) rfl ?_
  refine (cmdWord_and 0x17 q 0 0 0 0xFF 0x00 0xFF 0xFF 0xFFFF 0xFFFF).trans ?_
  simp

theorem sysStatus : Statement .sysStatus := by
  refine of_masked ⟨.sysStatus, 0x0000000000000020, 0xFFFFFFFFFFFFFFFF⟩ (by simp [opcodeTable]) rfl ?_
  refine (cmdWord_and 0x20 0 0 0 0 0xFF 0xFF 0xFF 0xFF 0xFFFF 0xFFFF).trans ?_
  simp

end Laws.EncodeRow
end Sys2Proof
end

