-- ==== Sys2Proof/Tests/Slice0.lean ====
section
/-! SUPPORT. Tests of one step each, with expected results from the vectors of 95_test_vectors.md, decoding tests from words
written out in the spec, and for every obligation with hypotheses a witness that meets them. -/

namespace Sys2Proof.Tests

open Sys2Proof.Machine

/-! ### States -/

/-- The reset state of TC (95_test_vectors.md section 0). -/
def tc : State := State.resetOf Config.tc

/-- TC "init": both queues created, as after one MQ.INIT. -/
def tcInit : State := { tc with queues := [⟨true, some .line, []⟩, ⟨true, some .byte, []⟩] }

/-- `s` with another buffer `b`. -/
def withBuf (s : State) (b : Byte) (wc rc : Nat) (mem : Memory) : State := s.setBuf b ⟨wc, rc, mem⟩

/-- `s` with the entries `xs` in queue `q`. -/
def withFifo (s : State) (q : Byte) (xs : List Entry) : State := s.setQueue q { s.queue q with fifo := xs }

/-- `s` with the port `p` current. -/
def asPort (s : State) (p : Nat) : State := { s with cur := p }

/-- `s` with the record `x` at port `p` and `c` the environment's next choice. -/
def waiting (s : State) (p : Nat) (x : Pend) (c : Choice) : State := 
  { s.setPort p { s.port p with pend := some x, unanswered := true } with sched := [c] }

/-- `s` with its multi-byte operations split (R55). -/
def split (s : State) : State := { s with cfg := { s.cfg with atomicMultibyte := false } }

/-- The next state of a step; where there is none, a state with an impossible STATUS. -/
def stepped (s : State) : State :=
  match step s with
  | .next t => t
  | _ => { s with status := 0xFFFF }

/-- The state after port `p` issues a request. -/
def after (s : State) (p : Nat) (w : CmdWord) (d : List Byte) : State := stepped (s.placeRequest p ⟨w, d⟩)

/-- A state of TC in use: buffer 0 with the bytes 0x41, 0x42 at cells 6 and 7 and both cursors near the wrap, queue 0 with a
line of buffer 0, queue 1 with a byte. -/
def busy : State :=
  withFifo (withFifo (withBuf tcInit 0 7 6 [(6, 0x41), (7, 0x42)]) 0 [.line 0 2, .line 1 0]) 1 [.byte 0x41]

/-- `busy` with both queues full (QCAP = 16). -/
def full : State := withFifo (withFifo busy 0 (List.replicate 16 (.line 0 1))) 1 (List.replicate 16 (.byte 0x30))

/-! ### Decoding: one word of each row, and illegal words (section 2) -/

theorem test_decode_rbWb : decode 0x0000004100000001 [] = .op (.rbWb 0 0x41) := by decide
theorem test_decode_rbRb : decode 0x0000000000000502 [] = .op (.rbRb 5) := by decide
theorem test_decode_rbWm :
    decode 0x0000000300000103 [0x61, 0x62, 0x63] = .op (.rbWm 1 [0x61, 0x62, 0x63]) := by decide
theorem test_decode_rbRm : decode 0x1234000300000004 [] = .op (.rbRm 0 3 0x1234) := by decide
theorem test_decode_rbEmpty : decode 0x0000000000000705 [] = .op (.rbEmpty 7) := by decide
theorem test_decode_rbPushl : decode 0x0000000A00010006 [] = .op (.rbPushl 0 1 0x0A) := by decide
theorem test_decode_mqInit : decode 0x0000000000000010 [] = .op .mqInit := by decide
theorem test_decode_mqSendlIsr : decode 0x0000123400010011 [] = .op (.mqSendlIsr 0 1 0x1234) := by decide
theorem test_decode_mqRecvl : decode 0x0010000000000112 [] = .op (.mqRecvl 1 16) := by decide
theorem test_decode_mqSendb : decode 0x0000000A00000113 [] = .op (.mqSendb 1 0x0A) := by decide
theorem test_decode_mqRecvb : decode 0x0000000000000114 [] = .op (.mqRecvb 1) := by decide
theorem test_decode_mqSendbIsr : decode 0x0000004100000115 [] = .op (.mqSendbIsr 1 0x41) := by decide
theorem test_decode_mqRecvbIsr : decode 0x0000000000000116 [] = .op (.mqRecvbIsr 1) := by decide
theorem test_decode_mqPendIsr : decode 0x0000000000000917 [] = .op (.mqPendIsr 9) := by decide
theorem test_decode_sysStatus : decode 0x0000000000000020 [] = .op .sysStatus := by decide

/-- Bit by bit from R71 and R72: B, A, RSV, ID2, ID, OPC. -/
theorem test_decode_fields :
    decode (0x1234#16 ++ 0xFFFF#16 ++ 0x00#8 ++ 0x00#8 ++ 0xA5#8 ++ 0x04#8) [] = .op (.rbRm 0xA5 0xFFFF 0x1234) := by decide

/-- DEC-1 to DEC-4. -/
theorem test_decode_reserved :
    decode 0x0000000000000000 [] = .illegal .reservedOpcode ∧ decode 0x0000000000000007 [] = .illegal .reservedOpcode ∧
    decode 0x0000000000000018 [] = .illegal .reservedOpcode ∧ decode 0x00000000000000FF [] = .illegal .reservedOpcode := by
  decide

/-- DEC-5 to DEC-8 and DEC-10. -/
theorem test_decode_mustBeZero :
    decode 0x0000000100000102 [] = .illegal .mustBeZero ∧ decode 0x0000004101000001 [] = .illegal .mustBeZero ∧
    decode 0x0000000000000120 [] = .illegal .mustBeZero ∧ decode 0x0001000A00000006 [] = .illegal .mustBeZero ∧
    decode 0x0000000000010010 [] = .illegal .mustBeZero := by decide

/-- DEC-9 and RB-WM-9. -/
theorem test_decode_payload :
    decode 0x0000000000000017 [0x41] = .illegal .payloadLength ∧
    decode 0x0000000300000103 [0x61, 0x62] = .illegal .payloadLength := by decide

/-- A message of 65535 bytes fits the length field; one of 65536 bytes is refused. -/
theorem test_wellFormed_refuses :
    (Instr.rbWm 0 (List.replicate 65536 0)).wellFormed = false ∧ (Instr.rbWm 0 (List.replicate 65535 0)).wellFormed = true := by
  simp only [Instr.wellFormed, List.length_replicate]
  decide

/-- DEC-LE. -/
theorem test_serialize :
    (encode (.rbWb 0 0x41)).toBytes = [0x01, 0, 0, 0, 0x41, 0, 0, 0] ∧
    (encode (.rbWm 1 [0x61, 0x62, 0x63])).toBytes = [0x03, 0x01, 0, 0, 0x03, 0, 0, 0, 0x61, 0x62, 0x63] ∧
    Response.toBytes ⟨.ok, 2, []⟩ = [0x01, 0x00, 0x02, 0x00] := by decide

/-- The opcode-table row of MQ.SENDL.ISR, decoded, and run as the first instruction after reset: queue 0 is not created, so
it answers Fail. -/
theorem test_tableWord :
    decodeTableWord 64 0x0000000200010011 = some (.mqSendlIsr 0 1 2) ∧
    (stepped (State.reset.withFetchWord 64 0x0000000200010011)).resps 0 = [⟨.fail .badQueue, 0, []⟩] := by decide

/-! ### Assembler text (R81, R82) -/

theorem test_assemble_message :
    assemble "@1 rb.wm 1, 3, [0x61, 98, 'c'] ; comment".toList = .request (some 1) (.rbWm 1 [0x61, 0x62, 0x63]) := by decide
theorem test_assemble_escape :
    assemble "@0 rb.pushl 0, 0, '\\n'".toList = .request (some 0) (.rbPushl 0 0 0x0A) := by decide
/-- P2: rb.wstr 1, "abc" is rb.wm 1, 3, [0x61, 0x62, 0x63], and rb.rdn 1, 6 is rb.rm 1, 0xFFFF, 6. -/
theorem test_assemble_pseudo :
    assemble ("rb.wstr 1, ".toList ++ doubleQuote :: "abc".toList ++ [doubleQuote]) =
      .request none (.rbWm 1 [0x61, 0x62, 0x63]) ∧
    assemble "rb.rdn 1, 6".toList = .request none (.rbRm 1 0xFFFF 6) ∧
    assemble "nop".toList = .request none .sysStatus := by decide
theorem test_assemble_errors :
    assemble "rb.wb 0, 256".toList = .error ∧ assemble "rb.rb 256".toList = .error ∧
    assemble "rb.rm 0, 65536, 1".toList = .error ∧ assemble "rb.wm 0, 2, [1]".toList = .error ∧
    assemble "RB.RB 0".toList = .error ∧ assemble " ; nothing".toList = .blank := by decide

/-- R81's general literal of any character, the backslash and the quote among them; '\\' is no escape of R81 (log entry 20). -/
theorem test_assemble_literals :
    assemble "rb.wb 0, '\\'".toList = .request none (.rbWb 0 0x5C) ∧
    assemble "rb.wb 0, '''".toList = .request none (.rbWb 0 0x27) ∧
    assemble "rb.wb 0, '\\\\'".toList = .error ∧ assemble "rb.wb 0, '\\0'".toList = .request none (.rbWb 0 0x00) := by decide

/-! ### One step of each operation -/

/-- RB-WB-2: the cursor wraps from 7 to 0. -/
theorem test_rbWb_wraps :
    let t := after (withBuf tc 0 7 0 []) 0 0x0000004200000001 []
    t.observes 0 = [(0x00010001, [])] ∧ t.wc 0 = 0 ∧ t.cell 0 7 = some 0x42 := by decide

/-- RB-WB-3b: a space is accepted and not stored. -/
theorem test_rbWb_ignores :
    let t := after (withBuf tc 0 3 0 []) 0 0x0000002000000001 []
    t.observes 0 = [(0x00010001, [])] ∧ t.wc 0 = 3 ∧ t.cell 0 3 = none := by decide

/-- RB-RB-2.1: reading an empty buffer returns an old byte and advances. -/
theorem test_rbRb_empty :
    let t := after (withBuf tc 0 3 3 [(3, 0x5A)]) 1 0x0000000000000002 []
    t.observes 1 = [(0x005A0001, [])] ∧ t.rc 0 = 4 := by decide

/-- RB-RB-3.1: a cell that holds UNDEF gives a draw. -/
theorem test_rbRb_draw :
    let t := after tc 1 0x0000000000000002 []
    t.draws = 1 ∧ t.rc 0 = 1 ∧ t.cell 0 0 = none := by decide

/-- RB-WM-1: a message across the wrap. -/
theorem test_rbWm_wraps :
    let t := after (withBuf tc 1 6 6 []) 1 0x0000000300000103 [0x61, 0x62, 0x63]
    t.observes 1 = [(0x00030001, [])] ∧ t.wc 1 = 1 ∧ (t.buf 1).mem = [(0, 0x63), (6, 0x61), (7, 0x62)] := by decide

/-- RB-WM-3: N-1 bytes are rejected. -/
theorem test_rbWm_tooLong :
    let t := after (withBuf tc 1 2 0 []) 1 0x0000000700000103 [0x31, 0x32, 0x33, 0x34, 0x35, 0x36, 0x37]
    t.observes 1 = [(0x00000000, [])] ∧ t.wc 1 = 2 ∧ (t.buf 1).mem = [] := by decide

/-- RB-RM-3: the capacity bounds the count. -/
theorem test_rbRm_capacity :
    let t := after (withBuf tc 0 2 2
      [(0, 0x30), (1, 0x31), (2, 0x32), (3, 0x33), (4, 0x34), (5, 0x35), (6, 0x36), (7, 0x37)]) 1 0xFFFFFFFF00000004 []
    t.observes 1 = [(0x00080001, [0x32, 0x33, 0x34, 0x35, 0x36, 0x37, 0x30, 0x31])] ∧ t.rc 0 = 2 := by decide

/-- RB-RM-5.1: the end-marker defect; the drain reads past the write cursor. -/
theorem test_rbRm_endMarker :
    let t := after (withBuf tc 0 5 2 [(2, 0x43), (3, 0x44), (4, 0x45)]) 1 0x0010000500000004 []
    t.rc 0 = 7 ∧ t.draws = 2 ∧ (t.resps 1).map Response.word = [0x00050001] := by decide

/-- RB-EMPTY-2.1. -/
theorem test_rbEmpty_no : (after (withBuf tc 0 4 3 []) 1 0x0000000000000005 []).observes 1 = [(0x00000001, [])] := by decide

/-- RB-EMPTY-3: an invalid identifier reads as empty with OK = 0. -/
theorem test_rbEmpty_badBuf : (after tc 1 0x0000000000000705 []).observes 1 = [(0x00010000, [])] := by decide

/-- RB-PUSHL-2: the terminator sends the snapshot and is not stored. -/
theorem test_rbPushl_sends :
    let t := after (withBuf tcInit 0 2 0 [(0, 0x48), (1, 0x49)]) 0 0x0000000A00000006 []
    t.observes 0 = [(0x00070001, [])] ∧ t.wc 0 = 2 ∧ (t.queue 0).fifo = [.line 0 2] := by decide

/-- RB-PUSHL-6.2: a full queue loses the descriptor. -/
theorem test_rbPushl_loses :
    let t := after full 0 0x0000000A00000006 []
    t.observes 0 = [(0x00030000, [])] ∧ (t.queue 0).fifo = (full.queue 0).fifo := by decide

/-- MQ-INIT-1.1. -/
theorem test_mqInit_creates :
    let t := after tc 1 0x0000000000000010 []
    t.observes 1 = [(0x00020001, [])] ∧ t.queues = [⟨true, some .line, []⟩, ⟨true, some .byte, []⟩] := by decide

/-- MQ-INIT-2.1: double initialization keeps the entries. -/
theorem test_mqInit_twice :
    let t := after busy 0 0x0000000000000010 []
    t.observes 0 = [(0x00000000, [])] ∧ t.status = 0x0001 ∧ t.queues = busy.queues := by decide

/-- MQ-SENDL-6: any port, either buffer, the end position unchecked. -/
theorem test_mqSendlIsr_appends :
    let t := after tcInit 1 0x0000123400010011 []
    t.observes 1 = [(0x00010001, [])] ∧ (t.queue 0).fifo = [.line 1 4660] := by decide

/-- MQ-SENDL-3: an invalid buffer fails. -/
theorem test_mqSendlIsr_badBuf :
    let t := after tcInit 0 0x0000000200020011 []
    t.observes 0 = [(0x00000000, [])] ∧ (t.queue 0).fifo = [] := by decide

/-- MQ-RECVL-1. -/
theorem test_mqRecvl_drains :
    let t := after (withFifo (withBuf tcInit 0 2 0 [(0, 0x48), (1, 0x49)]) 0 [.line 0 2]) 1 0x0040000000000012 []
    t.observes 1 = [(0x00020001, [0x48, 0x49])] ∧ t.rc 0 = 2 ∧ (t.queue 0).fifo = [] := by decide

/-- MQ-RECVL-7: a line of a buffer whose consumer is another port faults and stays. -/
theorem test_mqRecvl_role :
    let t := after (withFifo tcInit 0 [.line 1 3]) 1 0x0008000000000012 []
    t.observes 1 = [(0x00000000, [])] ∧ t.status = 0x0008 ∧ (t.queue 0).fifo = [.line 1 3] := by decide

/-- MQ-SENDB-2.1: a full queue makes the port wait. -/
theorem test_mqSendb_waits :
    let t := after full 1 0x0000004100000113 []
    t.observes 1 = [] ∧ t.pend 1 = some (.sendb 1 0x41) := by decide

/-- MQ-SENDB-6: an ignored byte goes through a queue unchanged. -/
theorem test_mqSendb_verbatim : ((after tcInit 1 0x0000000A00000113 []).queue 1).fifo = [.byte 0x0A] := by decide

/-- MQ-RECVB-1.1. -/
theorem test_mqRecvb_oldest :
    let t := after (withFifo tcInit 1 [.byte 0x41, .byte 0x42]) 1 0x0000000000000114 []
    t.observes 1 = [(0x00410001, [])] ∧ (t.queue 1).fifo = [.byte 0x42] := by decide

/-- MQ-RECVB-4: an ISR port may not block. -/
theorem test_mqRecvb_isr :
    let t := after (withFifo tcInit 1 [.byte 0x41]) 0 0x0000000000000114 []
    t.observes 0 = [(0x00000000, [])] ∧ t.status = 0x0004 ∧ (t.queue 1).fifo = [.byte 0x41] := by decide

/-- MQ-SENDBI-2. -/
theorem test_mqSendbIsr_full :
    let t := after full 0 0x0000004100000115 []
    t.observes 0 = [(0x00000000, [])] ∧ t.queues = full.queues := by decide

/-- MQ-SENDBI-4: a TASK port may use the non-blocking form. -/
theorem test_mqSendbIsr_task :
    let t := after tcInit 1 0x0000004100000115 []
    t.observes 1 = [(0x00010001, [])] ∧ (t.queue 1).fifo = [.byte 0x41] := by decide

/-- MQ-RECVBI-1 and MQ-RECVBI-2. -/
theorem test_mqRecvbIsr :
    (after (withFifo tcInit 1 [.byte 0x41]) 0 0x0000000000000116 []).observes 0 = [(0x00410001, [])] ∧
    (after tcInit 0 0x0000000000000116 []).observes 0 = [(0x00000000, [])] := by decide

/-- MQ-PEND-1 and MQ-PEND-4. -/
theorem test_mqPendIsr :
    (after (withFifo tcInit 0 [.line 0 2, .line 0 5]) 0 0x0000000000000017 []).observes 0 = [(0x00020001, [])] ∧
    (after tcInit 1 0x0000000000000917 []).observes 1 = [(0x00000000, [])] := by decide

/-- SYS-2.3: the sticky bits, read and not cleared. -/
theorem test_sysStatus :
    let t := after { tcInit with status := 0x0009 } 0 0x0000000000000020 []
    t.observes 0 = [(0x00090001, [])] ∧ t.status = 0x0009 := by decide

/-- PREC-5: decoding comes before every other check. -/
theorem test_illegal_first :
    let t := after tc 1 0x0000004101000301 []
    t.observes 1 = [(0x00000000, [])] ∧ t.status = 0x0002 := by decide

/-- MQ-RECVL-3.4: a wait that completes, and MQ-RECVL-2.2: one that times out. -/
theorem test_wait_ends :
    let s := withFifo (withBuf tcInit 0 1 0 [(0, 0x4F)]) 0 [.line 0 1]
    (stepped (waiting s 1 (.recvl 0 64) (.complete 1))).observes 1 = [(0x00010001, [0x4F])] ∧
    (stepped (waiting tcInit 1 (.recvl 0 64) (.timeout 1))).observes 1 = [(0x00000000, [])] ∧
    (stepped (waiting tcInit 1 (.recvl 0 64) (.timeout 1))).pend 1 = none ∧
    (stepped (waiting tcInit 1 (.recvl 0 64) (.timeout 1))).runEnded = true := by decide

/-- RST-2; R247: the dropped request, the last of its port, keeps the run from ending. -/
theorem test_reset_drops :
    let t := stepped (waiting { busy with status := 0x0009 } 1 (.recvl 0 64) .reset)
    t.bufs = tc.bufs ∧ t.queues = tc.queues ∧ t.status = 0 ∧ t.pend 1 = none ∧ t.observes 1 = [] ∧
    t.runEnded = false := by decide

/-- R55 by hand: a split RB.WM stores a byte before it moves the write cursor. -/
theorem test_split_write :
    let t := stepped (waiting (split tc) 1 (.wm 1 [0x61, 0x62] 0 0) (.advance 1))
    t.cell 1 0 = some 0x61 ∧ t.wc 1 = 0 ∧ t.pend 1 = some (.wm 1 [0x61, 0x62] 1 0) := by decide

/-- R55 by hand: a split RB.RM moves the read cursor with each byte. -/
theorem test_split_read :
    let t := stepped (waiting (split busy) 1 (.rm ⟨0, 2, 9, 0, [], 6⟩) (.advance 1))
    t.rc 0 = 7 ∧ t.pend 1 = some (.rm ⟨0, 2, 9, 1, [0x41], 6⟩) := by decide

/-! ### Witnesses: states that meet the invariant -/

theorem inv_tc : tc.Inv := by decide
theorem inv_tcInit : tcInit.Inv := by decide
theorem inv_busy : busy.Inv := by decide
theorem inv_busy1 : (asPort busy 1).Inv := by decide
theorem inv_full : full.Inv := by decide
theorem inv_full1 : (asPort full 1).Inv := by decide
theorem inv_split : (split busy).Inv := by decide
theorem inv_split1 : (asPort (split busy) 1).Inv := by decide

/-! ### Witnesses: encoding -/

theorem witness_EncodedInstructionDecodesToItself :
    (Instr.rbWm 0xFF (List.replicate 65535 0)).wellFormed = true ∧ (Instr.rbWm 0 []).wellFormed = true ∧
    (Instr.rbRm 0xFF 0xFFFF 0).wellFormed = true := by
  simp only [Instr.wellFormed, List.length_replicate, List.length_nil]
  decide

theorem witness_DecodedRequestIsTheEncoding : decode 0x0000000300000103 [0x61, 0x62, 0x63] = .op (.rbWm 1 [0x61, 0x62, 0x63]) := by
  decide

theorem witness_OpcodeRowsAreDisjoint : ∀ r ∈ opcodeTable, r.pattern &&& r.mask = r.pattern := by decide

/-- A word of every row that meets the row's pattern under its mask, with its payload's length. -/
theorem witness_DecodesAs :
    ∀ r ∈ opcodeTable, ∃ x ∈ [((0x0000004100000001 : CmdWord), 0), (0x0000000000000502, 0), (0x0000000300000103, 3),
      (0x1234000300000004, 0), (0x0000000000000705, 0), (0x0000000A00010006, 0), (0x0000000000000010, 0),
      (0x0000123400010011, 0), (0x0010000000000112, 0), (0x0000000A00000113, 0), (0x0000000000000114, 0),
      (0x0000004100000115, 0), (0x0000000000000116, 0), (0x0000000000000917, 0), (0x0000000000000020, 0)],
      x.1 &&& r.mask = r.pattern ∧ payloadLength x.1 = x.2 := by decide

theorem witness_ReservedOpcodes :
    (0x0000000000000000 : CmdWord).extractLsb' 0 8 = 0x00#8 ∧
    (0x07#8 ≤ (0x07 : CmdWord).extractLsb' 0 8 ∧ (0x0F : CmdWord).extractLsb' 0 8 ≤ 0x0F#8) ∧
    (0x18#8 ≤ (0x18 : CmdWord).extractLsb' 0 8 ∧ (0x1F : CmdWord).extractLsb' 0 8 ≤ 0x1F#8) ∧
    0x21#8 ≤ (0x21 : CmdWord).extractLsb' 0 8 ∧ 0x21#8 ≤ (0xFF : CmdWord).extractLsb' 0 8 := by decide

theorem witness_ReservedField :
    (0x0000000001000020 : CmdWord).extractLsb' 24 8 ≠ 0#8 ∧ (0x0000000080000001 : CmdWord).extractLsb' 24 8 ≠ 0#8 := by decide

theorem witness_ByteChannelRoundTrip :
    (encode (.rbWm 1 [0x61, 0x62, 0x63])).payload.length = payloadLength (encode (.rbWm 1 [0x61, 0x62, 0x63])).word ∧
    (encode .sysStatus).payload.length = payloadLength (encode .sysStatus).word := by decide

theorem witness_AssembledTextIsTheInstruction :
    (Instr.rbWm 0xFF [0x00, 0xFF]).wellFormed = true ∧ (Instr.mqSendlIsr 0xFF 0 0xFFFF).wellFormed = true := by decide

theorem witness_AssemblerEmitsOnlyLegalRequests :
    assemble "@255 mq.recvl 255, 65535".toList = .request (some 255) (.mqRecvl 0xFF 0xFFFF) ∧
    assemble "rb.wm 0, 0, []".toList = .request none (.rbWm 0 []) := by decide

/-- A line of each kind of rb.wm and rb.wstr that is read, and one that is an error. -/
theorem witness_OperandsThatDoNotFitAreAssemblerErrors :
    doubleQuote ∉ "abc".toList ∧ fits [255, 65535, 65535] [256, 65536, 65536] = true ∧
    fits [255, 65536, 0] [256, 65536, 65536] = false ∧ fits [0] [256, 256] = false ∧
    assemble "rb.rm 0, 0, 65536".toList = .error ∧ assemble "rb.wm 0x100, 0x1, [0x0]".toList = .error := by decide

/-! ### The step -/

/-- Port 1's turn to issue the request `r`, with one more to come. -/
def turn (s : State) (r : Request) : State :=
  { s.setPort 1 { s.port 1 with todo := [r, encode .sysStatus] } with sched := [.issue 1, .reset] }

theorem witness_StepPerformsTheDecodedRequest :
    let s := turn busy (encode (.rbRb 0))
    s.sched = .issue 1 :: [.reset] ∧ s.pend 1 = none ∧ (s.port 1).todo = encode (.rbRb 0) :: [encode .sysStatus] ∧
    decode (encode (.rbRb 0)).word (encode (.rbRb 0)).payload = .op (.rbRb 0) := by decide

theorem witness_UndecodableRequestOnlySetsIllegal :
    let s := turn busy ⟨0x0000004101000301, []⟩
    s.Inv ∧ s.sched = .issue 1 :: [.reset] ∧ s.pend 1 = none ∧
    (s.port 1).todo = ⟨0x0000004101000301, []⟩ :: [encode .sysStatus] ∧
    decode 0x0000004101000301 [] = .illegal .mustBeZero := ⟨by decide, by decide, by decide, by decide, by decide⟩

theorem witness_OutstandingPortIssuesNothing :
    let s := waiting (turn tcInit (encode .sysStatus)) 1 (.recvl 0 64) (.issue 1)
    s.sched = .issue 1 :: [] ∧ s.pend 1 = some (.recvl 0 64) := by decide

/-! ### Ring-buffer operations: every clause, at the last valid buffer and the first invalid one -/

theorem witness_RbWbStoresFiltersOrRefuses :
    busy.Inv ∧ (asPort busy 1).Inv ∧ busy.cfg.nb ≤ BitVec.toNat (2 : Byte) ∧ ¬ busy.cfg.nb ≤ BitVec.toNat (1 : Byte) ∧
    busy.isProd busy.cur 1 = false ∧ busy.isProd busy.cur 0 = true ∧ (asPort busy 1).isProd 1 1 = true ∧
    (∀ v ∈ [0x0A#8, 0x20#8, 0x09#8, 0x00#8], isIgnored v = true) ∧ 0x0D#8 ∉ [0x0A#8, 0x20#8, 0x09#8, 0x00#8] :=
  ⟨inv_busy, inv_busy1, by decide⟩

theorem witness_RbRbReadsAndAdvancesOrRefuses :
    (asPort busy 1).Inv ∧ busy.Inv ∧ (asPort busy 1).cfg.nb ≤ BitVec.toNat (2 : Byte) ∧
    (asPort busy 1).isCons 1 1 = false ∧ (asPort busy 1).isCons 1 0 = true ∧
    (asPort busy 1).cell 0 ((asPort busy 1).rc 0) = some 0x41 ∧ busy.isCons busy.cur 1 = true ∧
    busy.cell 1 (busy.rc 1) = none := ⟨inv_busy1, inv_busy, by decide⟩

theorem witness_RbWmStoresVerbatimOrRefuses :
    busy.Inv ∧ (split busy).Inv ∧ busy.cfg.nb ≤ BitVec.toNat (2 : Byte) ∧ busy.isProd busy.cur 1 = false ∧
    busy.isProd busy.cur 0 = true ∧ busy.cfg.n - 1 ≤ (List.replicate 7 (0x61 : Byte)).length ∧
    ¬ busy.cfg.n - 1 ≤ (List.replicate 6 (0x61 : Byte)).length ∧ List.replicate 6 (0x61 : Byte) ≠ [] ∧
    (split busy).cfg.atomicMultibyte = false ∧ (split busy).isProd 0 0 = true ∧ busy.cfg.atomicMultibyte = true :=
  ⟨inv_busy, inv_split, by decide⟩

theorem witness_RbRmCopiesTheLeastOrRefuses :
    let s := asPort busy 1
    s.Inv ∧ (asPort (split busy) 1).Inv ∧ s.cfg.nb ≤ BitVec.toNat (2 : Byte) ∧ s.isCons 1 1 = false ∧
    s.isCons 1 0 = true ∧ (asPort (split busy) 1).cfg.atomicMultibyte = false ∧ s.cfg.atomicMultibyte = true ∧
    min (BitVec.toNat (0 : Half)) (min (BitVec.toNat (16 : Half)) s.cfg.n) = 0 ∧
    min (BitVec.toNat (3 : Half)) (min (BitVec.toNat (0 : Half)) s.cfg.n) = 0 ∧
    min (BitVec.toNat (1 : Half)) (min (BitVec.toNat (0xFFFF : Half)) s.cfg.n) = 1 ∧
    min (BitVec.toNat (0xFFFF : Half)) (min (BitVec.toNat (0xFFFF : Half)) s.cfg.n) = 8 :=
  ⟨inv_busy1, inv_split1, by decide⟩

theorem witness_RbEmptyComparesTheCursors :
    busy.Inv ∧ busy.cfg.nb ≤ BitVec.toNat (2 : Byte) ∧ ¬ busy.cfg.nb ≤ BitVec.toNat (1 : Byte) ∧ busy.wc 1 = busy.rc 1 ∧
    busy.wc 0 ≠ busy.rc 0 := by decide

theorem witness_WrongRoleOnlySetsRolev :
    busy.Inv ∧ BitVec.toNat (1 : Byte) < busy.cfg.nb ∧ busy.isProd busy.cur 1 = false ∧ busy.isCons busy.cur 0 = false :=
  ⟨inv_busy, by decide⟩

theorem witness_WrongRoleOfALine :
    let s := withFifo (asPort busy 1) 0 [.line 1 3]
    s.Inv ∧ BitVec.toNat (1 : Byte) < s.cfg.nb ∧ s.isCons s.cur 1 = false ∧ s.qlive 0 = true ∧
    (s.queue 0).shape = some .line ∧ s.isIsr s.cur = false ∧ (s.queue 0).fifo = .line 1 3 :: [] := ⟨by decide, by decide⟩

theorem witness_WrittenMessageIsReadBack :
    let s := withBuf tc 0 6 6 []
    s.Inv ∧ s.cfg.atomicMultibyte = true ∧ s.bufValid 0 = true ∧ 0 < s.cfg.np ∧ 1 < s.cfg.np ∧ s.isProd 0 0 = true ∧
    s.isCons 1 0 = true ∧ s.wc 0 = s.rc 0 ∧ List.replicate 6 (0x61 : Byte) ≠ [] ∧
    (List.replicate 6 (0x61 : Byte)).length < s.cfg.n - 1 := by decide

theorem witness_LappedBufferReadsAsEmpty :
    let s := withBuf tc 0 2 3 []
    s.Inv ∧ s.bufValid 0 = true ∧ s.isProd s.cur 0 = true ∧ isIgnored 0x43 = false ∧ s.fill 0 = s.cfg.n - 1 ∧
    1 < s.cfg.np := by decide

theorem witness_ReadingAnEmptyBufferFillsIt :
    let s := asPort (withBuf tc 0 7 7 []) 1
    s.Inv ∧ s.bufValid 0 = true ∧ s.isCons s.cur 0 = true ∧ s.wc 0 = s.rc 0 := by decide

theorem witness_PushlStoresAndSendsTheSnapshot :
    busy.Inv ∧ full.Inv ∧ busy.cfg.nb ≤ BitVec.toNat (2 : Byte) ∧ busy.isProd busy.cur 1 = false ∧
    busy.isProd busy.cur 0 = true ∧ (0x48 : Byte) ≠ busy.cfg.lineTerm ∧ (0x20 : Byte) ≠ busy.cfg.lineTerm ∧
    (0x0A : Byte) = busy.cfg.lineTerm ∧ busy.qlive 0 = true ∧ (busy.queue 0).shape = some .line ∧
    (busy.queue 0).fifo.length < busy.cfg.qcap ∧ busy.qlive 2 = false ∧ (busy.queue 1).shape ≠ some .line ∧
    ¬ (full.queue 0).fifo.length < full.cfg.qcap := ⟨inv_busy, inv_full, by decide⟩

/-- LINE_TERM may be a byte that RB.WB stores. -/
theorem witness_PushlStoredTerminator :
    let s : State := { tcInit with cfg := { Config.tc with lineTerm := 0x0D } }
    s.Inv ∧ (0x0D : Byte) = s.cfg.lineTerm ∧ isIgnored 0x0D = false := by decide

/-! ### Message-queue operations -/

theorem witness_MqInitCreatesTheUncreatedQueues :
    tc.Inv ∧ busy.Inv ∧ (tc.setQueue 1 ⟨true, some .byte, []⟩).Inv ∧ tc.queues.any (fun x => x.created) = false ∧
    BitVec.toNat (1 : Byte) < tc.cfg.nq ∧ busy.queues.any (fun x => x.created) = true ∧
    (tc.setQueue 1 ⟨true, some .byte, []⟩).queues.any (fun x => x.created) = true ∧
    ((tc.setQueue 1 ⟨true, some .byte, []⟩).queue 0).created = false := ⟨inv_tc, inv_busy, by decide, by decide⟩

theorem witness_SendlIsrAppendsOrFails :
    busy.Inv ∧ tc.Inv ∧ full.Inv ∧ busy.qlive 2 = false ∧ tc.qlive 1 = false ∧ busy.qlive 0 = true ∧
    busy.cfg.nb ≤ BitVec.toNat (2 : Byte) ∧ ¬ busy.cfg.nb ≤ BitVec.toNat (1 : Byte) ∧
    (busy.queue 1).shape ≠ some .line ∧ (busy.queue 0).shape = some .line ∧
    full.cfg.qcap ≤ (full.queue 0).fifo.length ∧ ¬ busy.cfg.qcap ≤ (busy.queue 0).fifo.length :=
  ⟨inv_busy, inv_tc, inv_full, by decide⟩

theorem witness_RecvlDrainsTheNamedBuffer :
    let s := asPort busy 1
    s.Inv ∧ busy.Inv ∧ (asPort (split busy) 1).Inv ∧ s.qlive 2 = false ∧ (s.queue 1).shape ≠ some .line ∧
    s.qlive 0 = true ∧ (s.queue 0).shape = some .line ∧ busy.isIsr busy.cur = true ∧ s.isIsr s.cur = false ∧
    (s.queue 0).fifo = .line 0 2 :: [.line 1 0] ∧ s.isCons s.cur 0 = true ∧
    min (BitVec.toNat (2 : Half)) (min (BitVec.toNat (64 : Half)) s.cfg.n) ≠ 0 ∧
    (asPort (split busy) 1).cfg.atomicMultibyte = false := ⟨inv_busy1, inv_busy, inv_split1, by decide⟩

theorem witness_RecvlWaitsFaultsOrDrainsNothing :
    let s := asPort busy 1
    (withFifo s 0 []).Inv ∧ (withFifo s 0 [.line 0 0]).Inv ∧ (withFifo s 0 [.line 1 3]).Inv ∧
    ((withFifo s 0 []).queue 0).fifo = [] ∧ ((withFifo s 0 [.line 1 3]).queue 0).fifo = .line 1 3 :: [] ∧
    s.isCons s.cur 1 = false ∧ ((withFifo s 0 [.line 0 0]).queue 0).fifo = .line 0 0 :: [] ∧
    min (BitVec.toNat (0 : Half)) (min (BitVec.toNat (8 : Half)) s.cfg.n) = 0 :=
  ⟨by decide, by decide, by decide, by decide⟩

theorem witness_SendbAppendsWaitsOrRefuses :
    let s := asPort busy 1
    s.Inv ∧ busy.Inv ∧ (asPort full 1).Inv ∧ s.qlive 2 = false ∧ (s.queue 0).shape ≠ some .byte ∧ s.qlive 1 = true ∧
    (s.queue 1).shape = some .byte ∧ busy.isIsr busy.cur = true ∧ s.isIsr s.cur = false ∧
    full.cfg.qcap ≤ ((asPort full 1).queue 1).fifo.length ∧ ¬ s.cfg.qcap ≤ (s.queue 1).fifo.length :=
  ⟨inv_busy1, inv_busy, inv_full1, by decide⟩

theorem witness_RecvbRemovesTheOldestWaitsOrRefuses :
    let s := asPort busy 1
    s.Inv ∧ busy.Inv ∧ (asPort tcInit 1).Inv ∧ s.qlive 2 = false ∧ (s.queue 0).shape ≠ some .byte ∧ s.qlive 1 = true ∧
    (s.queue 1).shape = some .byte ∧ busy.isIsr busy.cur = true ∧ s.isIsr s.cur = false ∧
    ((asPort tcInit 1).queue 1).fifo = [] ∧ (s.queue 1).fifo = .byte 0x41 :: [] :=
  ⟨inv_busy1, inv_busy, by decide, by decide⟩

theorem witness_SendbIsrAppendsOrFails :
    busy.Inv ∧ (asPort busy 1).Inv ∧ full.Inv ∧ busy.qlive 2 = false ∧ (busy.queue 0).shape ≠ some .byte ∧
    busy.qlive 1 = true ∧ (busy.queue 1).shape = some .byte ∧ full.cfg.qcap ≤ (full.queue 1).fifo.length ∧
    ¬ busy.cfg.qcap ≤ (busy.queue 1).fifo.length := ⟨inv_busy, inv_busy1, inv_full, by decide⟩

theorem witness_RecvbIsrRemovesTheOldestOrFails :
    busy.Inv ∧ (asPort busy 1).Inv ∧ tcInit.Inv ∧ busy.qlive 2 = false ∧ (busy.queue 0).shape ≠ some .byte ∧
    busy.qlive 1 = true ∧ (busy.queue 1).shape = some .byte ∧ (tcInit.queue 1).fifo = [] ∧
    (busy.queue 1).fifo = .byte 0x41 :: [] := ⟨inv_busy, inv_busy1, inv_tcInit, by decide⟩

theorem witness_PendIsrCountsTheEntries :
    busy.Inv ∧ full.Inv ∧ tcInit.Inv ∧ busy.qlive 2 = false ∧ busy.qlive 0 = true ∧ full.qlive 1 = true ∧
    (full.queue 1).fifo.length = full.cfg.qcap ∧ tcInit.qlive 1 = true := ⟨inv_busy, inv_full, inv_tcInit, by decide⟩

theorem witness_OnlyBlockingFromIsrRaisesCtxViol :
    busy.Inv ∧ busy.isIsr busy.cur = true ∧ busy.queueFault 0 .line = none ∧ busy.queueFault 1 .byte = none ∧
    busy.queueFault 2 .line = some .badQueue ∧ busy.queueFault 0 .byte = some .shape ∧
    Instr.sysStatus.opcode ∉ [Opcode.mqRecvl, .mqSendb, .mqRecvb] := ⟨inv_busy, by decide⟩

theorem witness_SysStatusReadsTheStickyBits : busy.Inv ∧ State.Inv { busy with status := 0x000F } := by decide

theorem witness_PseudoInstructionsDoWhatTheyAreFor :
    let s := asPort busy 1
    s.Inv ∧ s.bufValid 0 = true ∧ s.isCons s.cur 0 = true ∧ s.cfg.atomicMultibyte = true ∧
    0 < BitVec.toNat (1 : Half) ∧ 0 < BitVec.toNat (0xFFFF : Half) := by decide

/-! ### Waiting, micro-steps and reset -/

theorem witness_TimeoutEndsTheWait :
    let s := waiting busy 1 (.recvl 0 64) (.timeout 1)
    s.Inv ∧ s.sched = .timeout 1 :: [] ∧ s.pend 1 = some (.recvl 0 64) := ⟨by decide, by decide⟩

theorem witness_TimeoutOfAByteWait :
    let s := waiting full 1 (.sendb 1 0x41) (.timeout 1)
    let s' := waiting tcInit 1 (.recvb 1) (.timeout 1)
    s.Inv ∧ s'.Inv ∧ s.sched = .timeout 1 :: [] ∧ s.pend 1 = some (.sendb 1 0x41) ∧ s'.sched = .timeout 1 :: [] ∧
    s'.pend 1 = some (.recvb 1) := ⟨by decide, by decide, by decide⟩

theorem witness_ReadyWaiterCompletesAsIfIssued :
    let s := waiting busy 1 (.recvl 0 64) (.complete 1)
    s.Inv ∧ s.sched = .complete 1 :: [] ∧ s.pend 1 = some (.recvl 0 64) ∧ (s.queue 0).fifo ≠ [] :=
  ⟨by decide, by decide⟩

theorem witness_ReadyByteWaiterCompletes :
    let s := waiting (withFifo full 1 (List.replicate 15 (.byte 0x30))) 1 (.sendb 1 0x41) (.complete 1)
    let s' := waiting busy 1 (.recvb 1) (.complete 1)
    s.Inv ∧ s'.Inv ∧ s.sched = .complete 1 :: [] ∧ s.pend 1 = some (.sendb 1 0x41) ∧
    (s.queue 1).fifo.length < s.cfg.qcap ∧ s'.sched = .complete 1 :: [] ∧ s'.pend 1 = some (.recvb 1) ∧
    (s'.queue 1).fifo ≠ [] := ⟨by decide, by decide, by decide⟩

theorem witness_UnreadyWaiterGoesOnWaiting :
    let s := waiting tcInit 1 (.recvl 0 64) (.complete 1)
    let s' := waiting tcInit 1 (.recvb 1) (.complete 1)
    let s'' := waiting full 1 (.sendb 1 0x41) (.complete 1)
    s.sched = .complete 1 :: [] ∧ s.pend 1 = some (.recvl 0 64) ∧ (s.queue 0).fifo = [] ∧
    s'.pend 1 = some (.recvb 1) ∧ (s'.queue 1).fifo = [] ∧
    s''.pend 1 = some (.sendb 1 0x41) ∧ s''.cfg.qcap ≤ (s''.queue 1).fifo.length := by decide

theorem witness_SplitWriteMicroSteps :
    let s := waiting (split busy) 0 (.wm 0 [0x61, 0x62] 1 7) (.advance 0)
    s.Inv ∧ s.sched = .advance 0 :: [] ∧ s.pend 0 = some (.wm 0 [0x61, 0x62] 1 7) ∧
    1 < ([0x61, 0x62] : List Byte).length := ⟨by decide, by decide⟩

theorem witness_SplitWriteLastMicroStep :
    let s := waiting (split busy) 0 (.wm 0 [0x61, 0x62] 2 7) (.advance 0)
    s.Inv ∧ s.sched = .advance 0 :: [] ∧ s.pend 0 = some (.wm 0 [0x61, 0x62] 2 7) := ⟨by decide, by decide⟩

theorem witness_SplitReadMicroSteps :
    let s := waiting (split busy) 1 (.rm ⟨0, 2, 9, 1, [0x40], 5⟩) (.advance 1)
    s.Inv ∧ s.sched = .advance 1 :: [] ∧ s.pend 1 = some (.rm ⟨0, 2, 9, 1, [0x40], 5⟩) ∧
    1 < min (BitVec.toNat (2 : Half)) (min (BitVec.toNat (9 : Half)) s.cfg.n) := ⟨by decide, by decide⟩

theorem witness_SplitReadLastMicroStep :
    let s := waiting (split busy) 1 (.drain 0 ⟨0, 1, 9, 1, [0x40], 5⟩) (.advance 1)
    s.Inv ∧ s.sched = .advance 1 :: [] ∧ s.pend 1 = some (.drain 0 ⟨0, 1, 9, 1, [0x40], 5⟩) ∧
    ¬ 1 < min (BitVec.toNat (1 : Half)) (min (BitVec.toNat (9 : Half)) s.cfg.n) := ⟨by decide, by decide⟩

theorem witness_SplitWriteMatchesTheIndivisibleOne :
    let s := split busy
    s.Inv ∧ s.cfg.atomicMultibyte = false ∧ s.pend s.cur = none ∧ s.bufValid 0 = true ∧ s.isProd s.cur 0 = true ∧
    (List.replicate 6 (0x61 : Byte)).length < s.cfg.n - 1 := by decide

theorem witness_SplitReadMatchesTheIndivisibleOne :
    let s := asPort (split busy) 1
    s.Inv ∧ s.cfg.atomicMultibyte = false ∧ s.pend s.cur = none ∧ s.bufValid 0 = true ∧ s.isCons s.cur 0 = true := by
  decide

theorem witness_SplitDrainMatchesTheIndivisibleOne :
    let s := asPort (split busy) 1
    s.Inv ∧ s.cfg.atomicMultibyte = false ∧ s.pend s.cur = none ∧ s.queueFault 0 .line = none ∧ s.isIsr s.cur = false ∧
    (s.queue 0).fifo = .line 0 2 :: [.line 1 0] ∧ s.isCons s.cur 0 = true := by decide

theorem witness_ResetEventClearsTheBlock :
    (waiting { busy with status := 0x0009 } 1 (.recvl 0 64) .reset).sched = .reset :: [] := by decide

theorem witness_ResetStateHoldsTheResetValues :
    Config.tc.Legal ∧ Config.standard.Legal ∧ Config.Legal { Config.tc with w := 16, storageReset := .zero } := by decide

/-! ### Invariants and whole-machine rules -/

theorem witness_EveryStepKeepsInv :
    let s := waiting busy 1 (.recvl 0 64) (.complete 1)
    s.Inv ∧ step s = .next (stepped s) := ⟨by decide, rfl⟩

theorem witness_TheBlockNeverStops : busy.Inv ∧ (split full).Inv := by decide

theorem witness_StatusBitsAreSticky :
    let s := turn { busy with status := 0x0009 } ⟨0, []⟩
    step s = .next (stepped s) ∧ s.sched.head? ≠ some .reset ∧ (stepped s).status = 0x000B :=
  ⟨rfl, by decide, by decide⟩

theorem witness_ConfigurationIsFixed :
    let s := turn busy (encode (.rbRb 0))
    step s = .next (stepped s) := rfl

theorem witness_OnlyTheBoundPortsMoveABuffer :
    let s := turn busy (encode (.rbRb 0))
    s.Inv ∧ s.sched = .issue 1 :: [.reset] ∧ Choice.issue 1 ≠ .reset ∧ step s = .next (stepped s) ∧
    (stepped s).rc 0 ≠ s.rc 0 := ⟨by decide, by decide, by decide, rfl, by decide⟩

theorem witness_OnlyTheBoundPortWrites :
    let s := turn busy (encode (.rbWb 1 0x41))
    s.Inv ∧ s.sched = .issue 1 :: [.reset] ∧ step s = .next (stepped s) ∧ (stepped s).wc 1 ≠ s.wc 1 ∧
    (stepped s).cell 1 0 ≠ s.cell 1 0 := ⟨by decide, by decide, rfl, by decide, by decide⟩

/-- The one port of a state that waits has no response to its last request. -/
theorem pendUnanswered_waiting : (waiting busy 1 (.recvl 0 64) .reset).PendUnanswered := by
  intro p hp
  match p with
  | 0 => exact absurd rfl hp
  | 1 => rfl
  | _ + 2 => exact absurd rfl hp

theorem witness_OutstandingRequestsAreUnanswered :
    let s := waiting busy 1 (.recvl 0 64) .reset
    s.PendUnanswered ∧ step s = .next (stepped s) := ⟨pendUnanswered_waiting, rfl⟩

theorem witness_EndedRunStaysEnded :
    busy.runEnded = true ∧ step busy = .next (stepped busy) ∧ busy.sched.head? ≠ some .reset := ⟨rfl, rfl, by decide⟩

theorem witness_DroppedLastRequestNeverEndsTheRun :
    let s := waiting busy 1 (.recvl 0 64) .reset
    s.PendUnanswered ∧ s.sched = .reset :: [] ∧ s.pend 1 = some (.recvl 0 64) ∧ (s.port 1).todo = [] ∧
    (stepped s).pend 1 = none ∧ ((stepped s).port 1).todo = [] ∧ ((stepped s).port 1).unanswered = true ∧
    step (stepped s) = .next (stepped (stepped s)) := ⟨pendUnanswered_waiting, rfl, rfl, rfl, rfl, rfl, rfl, rfl⟩

theorem witness_CreatedQueuesAreFifo :
    let s := turn busy (encode (.mqRecvb 1))
    s.Inv ∧ s.sched.head? ≠ some .reset ∧ step s = .next (stepped s) ∧ s.qlive 1 = true ∧
    (s.queue 1).fifo = .byte 0x41 :: ((stepped s).queue 1).fifo := ⟨by decide, by decide, rfl, by decide, by decide⟩

theorem witness_FailChangesNothingElse :
    full.Inv ∧ (Instr.mqSendbIsr 1 0x41).opcode ∉ [Opcode.mqInit, .mqRecvl, .rbPushl] ∧
    exec (.mqSendbIsr 1 0x41) full = .next (full.fail 0 .full 0) ∧
    (full.fail 0 .full 0).resps full.cur = full.resps full.cur ++ [⟨.fail .full, 0, []⟩] :=
  ⟨inv_full, by decide, rfl, rfl⟩

theorem witness_FaultChangesOnlyStatus :
    busy.Inv ∧ exec (.rbWb 1 0x41) busy = .next (busy.raise 0 .roleViol) ∧
    (busy.raise 0 .roleViol).resps busy.cur = busy.resps busy.cur ++ [⟨.fault .roleViol, 0, []⟩] :=
  ⟨inv_busy, rfl, rfl⟩

end Sys2Proof.Tests
end

section
/-! SUPPORT. The configuration (00_scope.md R7) stands in State and no step changes it: first for every operation on the
state, then for every instruction, then for every kind of step. -/

namespace Sys2Proof.Machine

/-! ### What a step may do next -/

/-- Whenever the outcome is a next state, that state satisfies `P`. -/
def NextSatisfies (P : State → Prop) (r : Result) : Prop := ∀ t, r = .next t → P t

@[simp] theorem nextSatisfies_next {P : State → Prop} {t : State} : NextSatisfies P (.next t) ↔ P t :=
  ⟨fun h => h t rfl, fun h _ e => Host.Outcome.next.inj e ▸ h⟩

@[simp] theorem nextSatisfies_fault {P : State → Prop} {f : Fault} : NextSatisfies P (.fault f) :=
  fun _ e => nomatch e

/-- The producer's checks end in a Fail, in a fault, or in the body (40_ringbuffer.md R106). -/
theorem nextSatisfies_asProducer {P : State → Prop} {s k : State} {b : Byte} (hfail : P (s.fail s.cur .badBuf 0))
    (hraise : P (s.raise s.cur .roleViol)) (hk : P k) : NextSatisfies P (s.asProducer b k) := by
  unfold State.asProducer
  split
  · exact nextSatisfies_next.2 hfail
  · split
    · exact nextSatisfies_next.2 hraise
    · exact nextSatisfies_next.2 hk

/-- The consumer's checks end in a Fail, in a fault, or in the body (40_ringbuffer.md R106). -/
theorem nextSatisfies_asConsumer {P : State → Prop} {s k : State} {b : Byte} (hfail : P (s.fail s.cur .badBuf 0))
    (hraise : P (s.raise s.cur .roleViol)) (hk : P k) : NextSatisfies P (s.asConsumer b k) := by
  unfold State.asConsumer
  split
  · exact nextSatisfies_next.2 hfail
  · split
    · exact nextSatisfies_next.2 hraise
    · exact nextSatisfies_next.2 hk

/-- The checks of a blocking operation end in a Fail, in a fault, in the record of a wait, or in the completion
(41_messagequeue.md R142, R151). -/
theorem nextSatisfies_blocking {P : State → Prop} {s : State} {q : Byte} {sh : Shape} {ready : Bool} {record : Pend}
    {body : Result} (hfail : ∀ c, P (s.fail s.cur c 0)) (hraise : P (s.raise s.cur .ctxViol))
    (hwait : P (s.setPend s.cur (some record))) (hbody : NextSatisfies P body) :
    NextSatisfies P (s.blocking q sh ready record body) := by
  unfold State.blocking
  split
  next c _ => exact nextSatisfies_next.2 (hfail c)
  next =>
    split
    · exact nextSatisfies_next.2 hraise
    · split
      · exact hbody
      · exact nextSatisfies_next.2 hwait

/-! ### Operations on the state -/

@[simp] theorem State.cfg_memRead (s : State) (b : Byte) (i : Nat) : (s.memRead b i).2.cfg = s.cfg :=
  (SameOutside.memRead s b i).cfg

@[simp] theorem State.cfg_storeFrom (s : State) (b : Byte) (i : Nat) (data : List Byte) :
    (s.storeFrom b i data).cfg = s.cfg :=
  (SameOutside.storeFrom b data s i).cfg

@[simp] theorem State.cfg_storeFiltered (s : State) (b v : Byte) : (s.storeFiltered b v).cfg = s.cfg :=
  (filtered_outside s b v).cfg

@[simp] theorem State.cfg_copyOne (s : State) (c : Copy) : (s.copyOne c).1.cfg = s.cfg :=
  (SameOutside.copyOne s c).cfg

@[simp] theorem State.cfg_copyRun (s : State) (c : Copy) (fuel : Nat) : (s.copyRun c fuel).1.cfg = s.cfg :=
  (SameOutside.copyRun fuel s c).cfg

/-- A drain keeps the configuration, run at once or recorded (20_memory.md R54, R55). -/
@[simp] theorem State.cfg_startDrain (s : State) (p : Nat) (record : Copy → Pend) (c : Copy) :
    (s.startDrain p record c).cfg = s.cfg := by
  unfold State.startDrain
  split <;> simp

@[simp] theorem State.cfg_sendSnapshot (s : State) (p : Nat) (b q : Byte) : (s.sendSnapshot p b q).cfg = s.cfg := by
  obtain ⟨-, sent⟩ | ⟨-, c, lost⟩ := s.sendSnapshot_cases p b q
  · rw [sent]; rfl
  · rw [lost]; rfl

theorem cfg_initQueue (a : InitRun) (q : Nat) : (initQueue a q).st.cfg = a.st.cfg := by
  unfold initQueue
  split <;> rfl

/-- MQ.INIT's loop keeps the configuration, whatever queues it has still to visit. -/
theorem cfg_foldl_initQueue (qs : List Nat) (a : InitRun) : (qs.foldl initQueue a).st.cfg = a.st.cfg := by
  induction qs generalizing a with
  | nil => rfl
  | cons q qs ih => exact (ih _).trans (cfg_initQueue a q)

@[simp] theorem cfg_initAll (s : State) : (initAll s).st.cfg = s.cfg := cfg_foldl_initQueue _ _

/-! ### Instructions -/

/-- The outcome, if it is a next state, has the configuration `c`. -/
abbrev KeepsCfg (c : Config) (r : Result) : Prop := NextSatisfies (fun t => t.cfg = c) r

theorem State.keepsCfg_recvlComplete (s : State) (p : Nat) (q : Byte) (m : Half) :
    KeepsCfg s.cfg (s.recvlComplete p q m) := by
  unfold State.recvlComplete
  split
  · split <;> simp
  · exact nextSatisfies_fault

theorem State.keepsCfg_sendbComplete (s : State) (p : Nat) (q v : Byte) : KeepsCfg s.cfg (s.sendbComplete p q v) :=
  nextSatisfies_next.2 rfl

theorem State.keepsCfg_recvbComplete (s : State) (p : Nat) (q : Byte) : KeepsCfg s.cfg (s.recvbComplete p q) := by
  unfold State.recvbComplete
  split
  · exact nextSatisfies_next.2 rfl
  · exact nextSatisfies_fault

theorem keepsCfg_execRbWm (b : Byte) (data : List Byte) (s : State) : KeepsCfg s.cfg (execRbWm b data s) := by
  refine nextSatisfies_asProducer rfl rfl ?_
  split
  · rfl
  · split
    · simp
    · rfl

theorem keepsCfg_execRbPushl (b q v : Byte) (s : State) : KeepsCfg s.cfg (execRbPushl b q v s) := by
  refine nextSatisfies_asProducer rfl rfl ?_
  split <;> simp

theorem keepsCfg_execRbEmpty (b : Byte) (s : State) : KeepsCfg s.cfg (execRbEmpty b s) := by
  unfold execRbEmpty
  split <;> exact nextSatisfies_next.2 rfl

theorem keepsCfg_execMqInit (s : State) : KeepsCfg s.cfg (execMqInit s) := by
  unfold execMqInit
  split <;> simp

theorem keepsCfg_execMqSendlIsr (q b : Byte) (e : Half) (s : State) : KeepsCfg s.cfg (execMqSendlIsr q b e s) := by
  unfold execMqSendlIsr
  split_ifs <;> exact nextSatisfies_next.2 rfl

theorem keepsCfg_execMqSendbIsr (q v : Byte) (s : State) : KeepsCfg s.cfg (execMqSendbIsr q v s) := by
  unfold execMqSendbIsr
  split
  · exact nextSatisfies_next.2 rfl
  · split
    · exact nextSatisfies_next.2 rfl
    · exact s.keepsCfg_sendbComplete s.cur q v

theorem keepsCfg_execMqRecvbIsr (q : Byte) (s : State) : KeepsCfg s.cfg (execMqRecvbIsr q s) := by
  unfold execMqRecvbIsr
  split
  · exact nextSatisfies_next.2 rfl
  · split
    · exact s.keepsCfg_recvbComplete s.cur q
    · exact nextSatisfies_next.2 rfl

theorem keepsCfg_execMqPendIsr (q : Byte) (s : State) : KeepsCfg s.cfg (execMqPendIsr q s) := by
  unfold execMqPendIsr
  split <;> exact nextSatisfies_next.2 rfl

theorem keepsCfg_exec (i : Instr) (s : State) : KeepsCfg s.cfg (exec i s) := by
  cases i with
  | rbWb b v => exact nextSatisfies_asProducer rfl rfl (by simp)
  | rbRb b => exact nextSatisfies_asConsumer rfl rfl (by simp)
  | rbWm b data => exact keepsCfg_execRbWm b data s
  | rbRm b e m => exact nextSatisfies_asConsumer rfl rfl (by simp)
  | rbEmpty b => exact keepsCfg_execRbEmpty b s
  | rbPushl b q v => exact keepsCfg_execRbPushl b q v s
  | mqInit => exact keepsCfg_execMqInit s
  | mqSendlIsr q b e => exact keepsCfg_execMqSendlIsr q b e s
  | mqRecvl q m => exact nextSatisfies_blocking (fun _ => rfl) rfl rfl (s.keepsCfg_recvlComplete s.cur q m)
  | mqSendb q v => exact nextSatisfies_blocking (fun _ => rfl) rfl rfl (s.keepsCfg_sendbComplete s.cur q v)
  | mqRecvb q => exact nextSatisfies_blocking (fun _ => rfl) rfl rfl (s.keepsCfg_recvbComplete s.cur q)
  | mqSendbIsr q v => exact keepsCfg_execMqSendbIsr q v s
  | mqRecvbIsr q => exact keepsCfg_execMqRecvbIsr q s
  | mqPendIsr q => exact keepsCfg_execMqPendIsr q s
  | sysStatus => exact nextSatisfies_next.2 rfl

/-! ### The steps that are not an issue -/

@[simp] theorem State.cfg_timeoutAt (s : State) (p : Nat) : (s.timeoutAt p).cfg = s.cfg := by
  unfold State.timeoutAt
  split <;> rfl

theorem State.keepsCfg_completeAt (s : State) (p : Nat) : KeepsCfg s.cfg (s.completeAt p) := by
  unfold State.completeAt
  split
  next q m _ =>
    split
    · exact (s.setPend p none).keepsCfg_recvlComplete p q m
    · exact nextSatisfies_next.2 rfl
  next q v _ =>
    split
    · exact nextSatisfies_next.2 rfl
    · exact (s.setPend p none).keepsCfg_sendbComplete p q v
  next q _ =>
    split
    · exact (s.setPend p none).keepsCfg_recvbComplete p q
    · exact nextSatisfies_next.2 rfl
  next => exact nextSatisfies_next.2 rfl

@[simp] theorem State.cfg_advanceDrain (s : State) (p : Nat) (record : Copy → Pend) (c : Copy) :
    (s.advanceDrain p record c).cfg = s.cfg := by
  unfold State.advanceDrain
  split
  · simp
  · rfl

@[simp] theorem State.cfg_advanceWrite (s : State) (p : Nat) (b : Byte) (data : List Byte) (k w0 : Nat) :
    (s.advanceWrite p b data k w0).cfg = s.cfg := by
  unfold State.advanceWrite
  split <;> rfl

@[simp] theorem State.cfg_advanceAt (s : State) (p : Nat) : (s.advanceAt p).cfg = s.cfg := by
  unfold State.advanceAt
  split
  · simp
  · simp
  · simp
  · rfl

@[simp] theorem State.cfg_blockReset (s : State) : s.blockReset.cfg = s.cfg := rfl

/-! ### Steps -/

/-- What the next step does starts from, or ends in, the configuration `c`. -/
def Fetched.HasCfg (c : Config) : Fetched → Prop
  | .perform _ u => u.cfg = c
  | .settled r => KeepsCfg c r

theorem State.hasCfg_issue (s : State) (p : Nat) (r : Request) (rest : List Request) :
    (s.issue p r rest).HasCfg s.cfg := by
  unfold State.issue
  dsimp only
  split
  · rfl
  · exact nextSatisfies_next.2 rfl

theorem State.hasCfg_issueAt (s : State) (p : Nat) : (s.issueAt p).HasCfg s.cfg := by
  unfold State.issueAt
  split
  · exact s.hasCfg_issue p _ _
  · exact nextSatisfies_next.2 rfl

/-- Whatever the environment chooses next, reset included, the configuration stays. -/
theorem State.hasCfg_fetch (s : State) : s.fetch.HasCfg s.cfg := by
  unfold State.fetch
  split
  next => exact nextSatisfies_next.2 rfl
  next c rest _ =>
    cases c with
    | issue p => exact State.hasCfg_issueAt { s with sched := rest } p
    | complete p => exact State.keepsCfg_completeAt { s with sched := rest } p
    | timeout p => exact nextSatisfies_next.2 (State.cfg_timeoutAt { s with sched := rest } p)
    | advance p => exact nextSatisfies_next.2 (State.cfg_advanceAt { s with sched := rest } p)
    | reset => exact nextSatisfies_next.2 (State.cfg_blockReset { s with sched := rest })

theorem keepsCfg_step (s : State) : KeepsCfg s.cfg (step s) := by
  have hfetch := s.hasCfg_fetch
  unfold step
  split
  next i u hf =>
    have hu : u.cfg = s.cfg := by rwa [hf] at hfetch
    exact hu ▸ keepsCfg_exec i u
  next r hf => rwa [hf] at hfetch

end Sys2Proof.Machine

namespace Sys2Proof

open Machine

/-- Settles O50: the configuration is kept by every instruction and by every other kind of step. -/
theorem configurationIsFixed : Obligations.ConfigurationIsFixed := by
  unfold Obligations.ConfigurationIsFixed
  exact fun s t h => keepsCfg_step s t h

end Sys2Proof
end

section
/-! SUPPORT. The values after reset (10_state.md R35), and that they meet the invariant: of the reset state of every legal
configuration and of the reset event (70_reset_and_hazards.md R230). -/

namespace Sys2Proof.Machine

/-- A list of blanks reads as the blank everywhere. -/
theorem getD_replicate_default {α : Type} (n i : Nat) (x : α) : (List.replicate n x).getD i x = x := by
  rw [List.getD_eq_getElem?_getD, List.getElem?_getD_replicate_default_eq]

/-- The block's state is that of reset: buffers and queues blank, STATUS 0, no record (R35). -/
structure State.Cleared (s : State) : Prop where
  bufs : s.bufs = List.replicate s.cfg.nb Buf.blank
  queues : s.queues = List.replicate s.cfg.nq Queue.blank
  status : s.status = 0
  pend : ∀ p, s.pend p = none

theorem State.Cleared.buf {s : State} (h : s.Cleared) (b : Byte) : s.buf b = Buf.blank := by
  rw [State.buf, h.bufs, getD_replicate_default]

theorem State.Cleared.queue {s : State} (h : s.Cleared) (q : Byte) : s.queue q = Queue.blank := by
  rw [State.queue, h.queues, getD_replicate_default]

/-- A cell that nothing has written reads as STORAGE_RESET says (R35). -/
theorem State.Cleared.cell {s : State} (h : s.Cleared) (b : Byte) (i : Nat) :
    s.cell b i = if s.cfg.storageReset = .zero then some 0 else none := by
  rw [State.cell, h.buf]
  show s.unlisted = _
  cases hc : s.cfg.storageReset <;> simp [State.unlisted, hc]

theorem State.pendOk_of_none {s : State} {p : Nat} (h : s.pend p = none) : s.pendOk p = true := by
  simp [State.pendOk, h]

theorem State.bufOk_blank (s : State) : s.bufOk Buf.blank = true := by
  simp [State.bufOk, Buf.blank, Memory.wf, Config.n_pos]

theorem State.queueOk_blank (s : State) (sh : Option Shape) : s.queueOk sh Queue.blank = true := by
  simp [State.queueOk, Queue.blank]

theorem State.Cleared.inv {s : State} (h : s.Cleared) (legal : s.cfg.Legal) (ports : s.ports.length = s.cfg.np)
    (cur : s.cur < s.cfg.np) : s.Inv := by
  refine ⟨legal, ⟨by simp [h.bufs], by simp [h.queues], ports⟩, cur, fun b _ => ?_, fun q _ => ?_, by simp [h.status],
    fun p _ => State.pendOk_of_none (h.pend p)⟩
  · rw [h.bufs, getD_replicate_default]; exact s.bufOk_blank
  · rw [h.queues, getD_replicate_default]; exact s.queueOk_blank _

theorem State.cleared_resetOf (c : Config) : (State.resetOf c).Cleared where
  bufs := rfl
  queues := rfl
  status := rfl
  pend p := by
    show ((List.replicate c.np Port.blank).getD p Port.blank).pend = none
    rw [getD_replicate_default]
    rfl

theorem State.pend_blockReset (s : State) (p : Nat) : s.blockReset.pend p = none := by
  simp only [State.pend, State.port, State.blockReset, List.getD_eq_getElem?_getD, List.getElem?_map]
  cases s.ports[p]? <;> rfl

theorem State.cleared_blockReset (s : State) : s.blockReset.Cleared := ⟨rfl, rfl, rfl, s.pend_blockReset⟩

/-- The reset event leaves a state that meets the invariant (R230). -/
theorem Inv.blockReset {s : State} (h : s.Inv) : s.blockReset.Inv := by
  obtain ⟨legal, ⟨-, -, ports⟩, cur, -⟩ := h
  exact s.cleared_blockReset.inv legal ((List.length_map _).trans ports) cur

theorem State.inv_resetOf {c : Config} (h : c.Legal) : (State.resetOf c).Inv := by
  obtain ⟨-, -, -, ⟨ports, -⟩, -⟩ := id h
  exact (State.cleared_resetOf c).inv h List.length_replicate ports

end Sys2Proof.Machine

namespace Sys2Proof

open Machine

/-- Settles O45: the reset state is cleared, and a cleared state holds the values of R35. -/
theorem resetStateHoldsTheResetValues : Obligations.ResetStateHoldsTheResetValues := by
  unfold Obligations.ResetStateHoldsTheResetValues
  intro c legal
  have clear := State.cleared_resetOf c
  obtain ⟨-, sized, -⟩ := State.inv_resetOf legal
  refine ⟨sized, fun b => ⟨?_, ?_, clear.cell b⟩, fun q => ?_, clear.status, clear.pend⟩
  · rw [State.wc, clear.buf]; rfl
  · rw [State.rc, clear.buf]; rfl
  · rw [clear.queue]; exact ⟨rfl, rfl, rfl⟩

/-- Settles O46: a cleared state of a legal configuration meets the invariant, and the standard configuration is legal. -/
theorem resetStatesMeetInv : Obligations.ResetStatesMeetInv := by
  unfold Obligations.ResetStatesMeetInv
  exact ⟨fun _ legal => State.inv_resetOf legal, State.inv_resetOf (by decide)⟩

end Sys2Proof
end

section
/-! SUPPORT. One inversion lemma for every step of the block: what a request does to the block before it ends, how it ends,
and the steps there are. It holds in every state; what only a fitting record vouches for is said under a hypothesis. -/

namespace Sys2Proof.Machine

/-! ### What a request does before it ends -/

/-- What a request of port `p` does to the block before it ends: nothing outside its buffers, the STATUS bit of a fault, the
creation of the queues, or one entry sent or received besides. Under `G` the port is bound to the buffers it moves (R57), and
the entry fits a live queue (R27, R140). -/
inductive Effect (G : Prop) (p : Nat) (s : State) : State → Prop
  | moved {u : State} (outside : SameOutside s u) (bound : G → ForPort p s u) : Effect G p s u
  | faulted (f : FaultCode) : Effect G p s (s.setStatus f.statusBit)
  | created : Effect G p s (initAll s).st
  | sent {u : State} {q : Byte} {sh : Shape} {x : Entry} (outside : SameOutside s u) (bound : G → ForPort p s u)
      (space : u.full q = false) (fits : G → u.queueFault q sh = none ∧ u.entryOk (some sh) x = true) :
      Effect G p s (u.enqueue q x)
  | received {u : State} {q : Byte} {x : Entry} (head : (s.queue q).fifo.head? = some x)
      (outside : SameOutside (s.dropHead q) u) (bound : G → ForPort p (s.dropHead q) u) : Effect G p s u

/-- How a request of port `p` ends its step: with its response, or with a record, which under `G` fits (R31). -/
inductive Ends (G : Prop) (p : Nat) (s : State) : State → Prop
  | answered {u : State} (effect : Effect G p s u) (r : Response) : Ends G p s (u.respond p r)
  | recorded {u : State} (effect : Effect G p s u) (x : Pend)
      (fits : G → (u.setPend p (some x)).pendOk p = true) : Ends G p s (u.setPend p (some x))

/-- The state in which port `p`'s next request is performed; `rest` is what it has still to issue. -/
def State.issuing (s : State) (p : Nat) (rest : List Request) : State :=
  { s.setPort p { s.port p with todo := rest, unanswered := true } with cur := p }

/-- What a step about port `p` does, but for taking its choice off the schedule: nothing, the issue of a request, the end of
the wait or of the split operation, or a micro-step that keeps it in progress (R55, R142, R208). -/
inductive Turn (p : Nat) (s : State) : State → Prop
  | idle : Turn p s s
  | issued {r : Request} {rest : List Request} {t : State} (free : s.pend p = none) (todo : (s.port p).todo = r :: rest)
      (ends : Ends s.Inv p (s.issuing p rest) t) : Turn p s t
  | settled {t : State} (busy : s.pend p ≠ none) (ends : Ends s.Inv p (s.setPend p none) t) : Turn p s t
  | advanced {u : State} (busy : s.pend p ≠ none) (effect : Effect s.Inv p s u) (x : Pend)
      (fits : s.Inv → (u.setPend p (some x)).pendOk p = true) : Turn p s (u.setPend p (some x))

variable {G : Prop} {p : Nat} {s t u : State}

theorem NextSatisfies.mono {P Q : State → Prop} {r : Result} (h : NextSatisfies P r) (hPQ : ∀ v, P v → Q v) :
    NextSatisfies Q r := fun v hv => hPQ v (h v hv)

theorem Effect.nothing : Effect G p s s := .moved (SameOutside.refl s) fun _ => ForPort.refl p s

theorem Ends.only (r : Response) : Ends G p s (s.respond p r) := .answered .nothing r

theorem Ends.raise (f : FaultCode) : Ends G p s (s.raise p f) := .answered (.faulted f) _

/-! ### What the invariant's parts give -/

theorem Good.rc_lt (good : Good s) {b : Byte} (hb : b.toNat < s.cfg.nb) : s.rc b < s.cfg.n := by
  have := good.buf hb
  simp only [State.bufOk, Bool.and_eq_true, decide_eq_true_eq] at this
  obtain ⟨⟨⟨-, cursor⟩, -⟩, -⟩ := this
  exact cursor

/-! ### Records that fit -/

/-- The queue a waiting request waits for and the shape it needs (R142); none for an operation in progress. -/
def Pend.waits : Pend → Option (Byte × Shape)
  | .recvl q _ => some (q, .line)
  | .sendb q _ => some (q, .byte)
  | .recvb q => some (q, .byte)
  | _ => none

/-- A waiting request fits when its port may wait and its queue is live and of its shape (R31, R151). -/
theorem pendOk_of_waits {x : Pend} {q : Byte} {sh : Shape} (hx : s.pend p = some x) (hw : x.waits = some (q, sh)) :
    s.pendOk p = true ↔ s.isIsr p = false ∧ s.queueFault q sh = none := by
  cases x with
  | recvl | sendb | recvb =>
    obtain ⟨rfl, rfl⟩ : _ ∧ _ := by simpa [Pend.waits] using hw
    simp [State.pendOk, hx]
  | wm | rm | drain => cases hw

/-- An RB.WM in progress fits when it was split, its port is the producer, and it started where the write cursor is. -/
theorem pendOk_of_wm {b : Byte} {data : List Byte} {k w0 : Nat} (hx : s.pend p = some (.wm b data k w0)) :
    s.pendOk p = true ↔ s.cfg.atomicMultibyte = false ∧ s.isProd p b = true ∧ data.length < s.cfg.n - 1 ∧
      k ≤ data.length ∧ w0 = s.wc b := by
  simp only [State.pendOk, hx, Bool.and_eq_true, Bool.not_eq_true', decide_eq_true_eq]
  have := @prod_valid s p b
  rw [← valid_iff] at this
  tauto

theorem pendOk_of_rm {c : Copy} (hx : s.pend p = some (.rm c)) : s.pendOk p = true ↔ s.copyOk p c = true := by
  simp [State.pendOk, hx]

theorem pendOk_of_drain {q : Byte} {c : Copy} (hx : s.pend p = some (.drain q c)) :
    s.pendOk p = true ↔ s.isIsr p = false ∧ s.copyOk p c = true := by
  simp [State.pendOk, hx]

/-- A drain fits when it was split, its port is the consumer, and its count, bytes and read cursor agree (R55, R110). -/
theorem copyOk_iff {c : Copy} : s.copyOk p c = true ↔ s.cfg.atomicMultibyte = false ∧ s.isCons p c.b = true ∧
    c.count ≤ c.limit s.cfg.n ∧ c.out.length = c.count ∧ s.rc c.b = (c.r0 + c.count) % s.cfg.n := by
  simp only [State.copyOk, Copy.limit, Bool.and_eq_true, Bool.not_eq_true', decide_eq_true_eq]
  have := @cons_valid s p c.b
  rw [← valid_iff] at this
  tauto

/-- A drain that has copied nothing fits (R31, R55). -/
theorem copyOk_newCopy {b : Byte} (e m : Half) (isSplit : s.cfg.atomicMultibyte = false) (role : s.isCons p b = true)
    (cursor : s.rc b < s.cfg.n) : s.copyOk p (s.newCopy b e m) = true :=
  copyOk_iff.2 ⟨isSplit, role, Nat.zero_le _, rfl, (Nat.mod_eq_of_lt cursor).symm⟩

/-- A copy keeps a drain fitting while the loop of R103 goes on. -/
theorem copyOk_copyOne {c : Copy} (h : s.copyOk p c = true) (more : c.more s.cfg.n = true)
    (buf : c.b.toNat < s.bufs.length) : (s.copyOne c).1.copyOk p (s.copyOne c).2 = true := by
  obtain ⟨isSplit, role, count, out, cursor⟩ := copyOk_iff.1 h
  have cfg := State.cfg_copyOne s c
  refine copyOk_iff.2 ⟨by rw [cfg]; exact isSplit, by rw [isCons_cfg cfg]; exact role, ?_, ?_, ?_⟩
  · rw [cfg]; exact (c.more_iff _ count).1 more
  · simp [State.copyOne, out]
  · show (s.copyOne c).1.rc c.b = (c.r0 + (c.count + 1)) % (s.copyOne c).1.cfg.n
    rw [State.copyOne_rc buf, cursor, cfg, Nat.mod_add_mod, Nat.add_assoc]

/-- Outside the ports a port reads as blank. -/
theorem State.port_of_le (hp : s.ports.length ≤ p) : s.port p = Port.blank := by
  rw [State.port, List.getD_eq_getElem?_getD, List.getElem?_eq_none hp]; rfl

theorem State.lt_of_pend (busy : s.pend p ≠ none) : p < s.ports.length := by
  by_contra hp
  exact busy (by rw [State.pend, State.port_of_le (by omega)]; rfl)

theorem Inv.pendOk (inv : s.Inv) (p : Nat) : s.pendOk p = true := by
  obtain ⟨-, ⟨-, -, ports⟩, -, -, -, -, pends⟩ := inv
  by_cases hp : s.pend p = none
  · exact State.pendOk_of_none hp
  · exact pends p (ports ▸ State.lt_of_pend hp)

/-! ### The shared checks and bodies -/

/-- The producer's checks end the request, or the port is the buffer's producer (R105, R106). -/
theorem ends_asProducer {b : Byte} {k : State} (body : s.isProd s.cur b = true → Ends G s.cur s k) :
    NextSatisfies (Ends G s.cur s) (s.asProducer b k) := by
  unfold State.asProducer
  split
  · exact nextSatisfies_next.2 (.only _)
  · split
    · exact nextSatisfies_next.2 (.raise _)
    next role => exact nextSatisfies_next.2 (body (by simpa using role))

/-- The consumer's checks end the request, or the port is the buffer's consumer (R105, R106). -/
theorem ends_asConsumer {b : Byte} {k : State} (body : s.isCons s.cur b = true → Ends G s.cur s k) :
    NextSatisfies (Ends G s.cur s) (s.asConsumer b k) := by
  unfold State.asConsumer
  split
  · exact nextSatisfies_next.2 (.only _)
  · split
    · exact nextSatisfies_next.2 (.raise _)
    next role => exact nextSatisfies_next.2 (body (by simpa using role))

/-- The checks of a blocking operation end the request, or it waits, or its completion body follows (R142, R151). -/
theorem ends_blocking (hp : s.cur < s.ports.length) {q : Byte} {sh : Shape} {ready : Bool} {record : Pend}
    {body : Result} (waits : record.waits = some (q, sh))
    (complete : s.queueFault q sh = none → s.isIsr s.cur = false → ready = true → NextSatisfies (Ends G s.cur s) body) :
    NextSatisfies (Ends G s.cur s) (s.blocking q sh ready record body) := by
  unfold State.blocking
  split
  · exact nextSatisfies_next.2 (.only _)
  next fault =>
    split
    · exact nextSatisfies_next.2 (.raise _)
    next isr =>
      have task : s.isIsr s.cur = false := by simpa using isr
      split
      next now => exact complete fault task now
      · exact nextSatisfies_next.2 (.recorded .nothing _ fun _ =>
          (pendOk_of_waits (State.pend_setPend_same _ hp) waits).2 ⟨task, fault⟩)

/-- A drain runs to its end, or is recorded with nothing copied (R54, R55). -/
theorem startDrain_cases (p : Nat) (record : Copy → Pend) (b : Byte) (e m : Half) :
    (∃ r, s.startDrain p record (s.newCopy b e m) = (s.copyRun (s.newCopy b e m) s.cfg.n).1.respond p r) ∨
    (s.cfg.atomicMultibyte = false ∧
      s.startDrain p record (s.newCopy b e m) = s.setPend p (some (record (s.newCopy b e m)))) := by
  unfold State.startDrain
  cases s.cfg.atomicMultibyte
  · exact .inr ⟨rfl, rfl⟩
  · exact .inl ⟨_, rfl⟩

/-- RECVL_COMPLETE answers, or records its drain (R145). -/
theorem ends_recvlComplete (good : G → Good s) (hp : p < s.ports.length) (task : G → s.isIsr p = false) (q : Byte)
    (m : Half) : NextSatisfies (Ends G p s) (s.recvlComplete p q m) := by
  unfold State.recvlComplete
  split
  next b e head =>
    split
    · exact nextSatisfies_next.2 (.raise _)
    next role =>
      have role : (s.dropHead q).isCons p b = true := by simpa using role
      obtain ⟨r, drained⟩ | ⟨isSplit, drained⟩ := startDrain_cases (s := s.dropHead q) p (.drain q) b e m
      · rw [drained]
        exact nextSatisfies_next.2 (.answered
          (.received head (SameOutside.copyRun _ _ _) fun _ => ForPort.copyRun _ role) r)
      · rw [drained]
        have done : Effect G p s (s.dropHead q) := .received head (SameOutside.refl _) fun _ => ForPort.refl p _
        refine nextSatisfies_next.2 (.recorded done _ fun g => ?_)
        exact (pendOk_of_drain (State.pend_setPend_same (s := s.dropHead q) _ hp)).2
          ⟨task g, copyOk_newCopy (s := s.dropHead q) e m isSplit role ((good g).rc_lt (cons_valid role))⟩
  · exact nextSatisfies_fault

theorem ends_sendbComplete {q : Byte} (v : Byte) (space : s.full q = false) (fits : G → s.queueFault q .byte = none) :
    NextSatisfies (Ends G p s) (s.sendbComplete p q v) :=
  nextSatisfies_next.2 (.answered
    (.sent (SameOutside.refl s) (fun _ => ForPort.refl p s) space fun g => ⟨fits g, rfl⟩) _)

theorem ends_recvbComplete (q : Byte) : NextSatisfies (Ends G p s) (s.recvbComplete p q) := by
  unfold State.recvbComplete
  split
  next v head =>
    exact nextSatisfies_next.2 (.answered (.received head (SameOutside.refl _) fun _ => ForPort.refl p _) _)
  · exact nextSatisfies_fault

/-! ### The operations -/

theorem ends_execRbWb (b v : Byte) (s : State) : NextSatisfies (Ends G s.cur s) (execRbWb b v s) :=
  ends_asProducer fun role =>
    .answered (.moved (filtered_outside s b v) fun _ => ForPort.storeFiltered role v) _

theorem ends_execRbRb (b : Byte) (s : State) : NextSatisfies (Ends G s.cur s) (execRbRb b s) :=
  ends_asConsumer fun role =>
    have read := SameOutside.memRead s b (s.rc b)
    have bound := ForPort.memRead s.cur s b (s.rc b)
    .answered (.moved (read.trans (SameOutside.setRc _ b _)) fun _ =>
      bound.trans (ForPort.setRc (by rwa [isCons_cfg bound.cfg]) _)) _

theorem ends_execRbWm (b : Byte) (data : List Byte) (hp : s.cur < s.ports.length) :
    NextSatisfies (Ends G s.cur s) (execRbWm b data s) := by
  refine ends_asProducer fun role => ?_
  split
  · exact .only _
  next short =>
    have stored := ForPort.storeFrom data role (s.wc b)
    split
    · exact .answered (.moved ((SameOutside.storeFrom b data s _).trans (SameOutside.setWc _ b _)) fun _ =>
        stored.trans (ForPort.setWc (by rwa [isProd_cfg stored.cfg]) _)) _
    next whole =>
      exact .recorded .nothing _ fun _ => (pendOk_of_wm (State.pend_setPend_same _ hp)).2
        ⟨by simpa using whole, role, Nat.lt_of_not_le short, Nat.zero_le _, rfl⟩

theorem ends_execRbRm (b : Byte) (e m : Half) (good : G → Good s) (hp : s.cur < s.ports.length) :
    NextSatisfies (Ends G s.cur s) (execRbRm b e m s) := by
  refine ends_asConsumer fun role => ?_
  obtain ⟨r, drained⟩ | ⟨isSplit, drained⟩ := startDrain_cases (s := s) s.cur .rm b e m
  · rw [drained]
    exact .answered (.moved (SameOutside.copyRun _ _ _) fun _ => ForPort.copyRun _ role) r
  · rw [drained]
    exact .recorded .nothing _ fun g => (pendOk_of_rm (State.pend_setPend_same _ hp)).2
      (copyOk_newCopy (s := s) e m isSplit role ((good g).rc_lt (cons_valid role)))

theorem ends_execRbEmpty (b : Byte) (s : State) : NextSatisfies (Ends G s.cur s) (execRbEmpty b s) := by
  unfold execRbEmpty
  split <;> exact nextSatisfies_next.2 (.only _)

/-- RB.PUSHL stores its byte and then sends the snapshot, loses it, or has none to send (R180). -/
theorem ends_execRbPushl (b q v : Byte) (s : State) : NextSatisfies (Ends G s.cur s) (execRbPushl b q v s) := by
  refine ends_asProducer fun role => ?_
  have outside := filtered_outside s b v
  have bound : G → ForPort s.cur s (s.storeFiltered b v) := fun _ => ForPort.storeFiltered role v
  split
  · obtain ⟨⟨live, shape, space⟩, sent⟩ | ⟨-, c, lost⟩ := (s.storeFiltered b v).sendSnapshot_cases s.cur b q
    · rw [sent]
      refine .answered (.sent (sh := .line) outside bound (by simpa [State.full] using space) fun _ =>
        ⟨(State.queueFault_eq_none _ _ _).2 ⟨live, shape⟩, ?_⟩) _
      simpa [State.entryOk, State.bufValid, outside.cfg] using prod_valid role
    · rw [lost]; exact .answered (.moved outside bound) _
  · exact .answered (.moved outside bound) _

theorem ends_execMqInit (s : State) : NextSatisfies (Ends G s.cur s) (execMqInit s) := by
  unfold execMqInit
  split <;> exact nextSatisfies_next.2 (.answered .created _)

theorem ends_execMqSendlIsr (q b : Byte) (e : Half) (s : State) :
    NextSatisfies (Ends G s.cur s) (execMqSendlIsr q b e s) := by
  unfold execMqSendlIsr
  split_ifs with live valid shape full
  · exact nextSatisfies_next.2 (.only _)
  · exact nextSatisfies_next.2 (.only _)
  · exact nextSatisfies_next.2 (.only _)
  · exact nextSatisfies_next.2 (.only _)
  · refine nextSatisfies_next.2 (.answered (.sent (sh := .line) (SameOutside.refl s) (fun _ => ForPort.refl _ s)
      (by simpa using full) fun _ => ⟨(State.queueFault_eq_none _ _ _).2 ⟨?_, ?_⟩, ?_⟩) _)
    · simpa using live
    · simpa using shape
    · simpa [State.entryOk] using valid

theorem ends_execMqSendbIsr (q v : Byte) (s : State) : NextSatisfies (Ends G s.cur s) (execMqSendbIsr q v s) := by
  unfold execMqSendbIsr
  split
  · exact nextSatisfies_next.2 (.only _)
  next fault =>
    split
    · exact nextSatisfies_next.2 (.only _)
    next full => exact ends_sendbComplete v (by simpa using full) fun _ => fault

theorem ends_execMqRecvbIsr (q : Byte) (s : State) : NextSatisfies (Ends G s.cur s) (execMqRecvbIsr q s) := by
  unfold execMqRecvbIsr
  split
  · exact nextSatisfies_next.2 (.only _)
  · split
    · exact ends_recvbComplete q
    · exact nextSatisfies_next.2 (.only _)

theorem ends_execMqPendIsr (q : Byte) (s : State) : NextSatisfies (Ends G s.cur s) (execMqPendIsr q s) := by
  unfold execMqPendIsr
  split <;> exact nextSatisfies_next.2 (.only _)

/-- Whatever operation a port performs, it ends with its response or with its record. -/
theorem ends_exec (i : Instr) (good : G → Good s) (hp : s.cur < s.ports.length) :
    NextSatisfies (Ends G s.cur s) (exec i s) := by
  cases i with
  | rbWb b v => exact ends_execRbWb b v s
  | rbRb b => exact ends_execRbRb b s
  | rbWm b data => exact ends_execRbWm b data hp
  | rbRm b e m => exact ends_execRbRm b e m good hp
  | rbEmpty b => exact ends_execRbEmpty b s
  | rbPushl b q v => exact ends_execRbPushl b q v s
  | mqInit => exact ends_execMqInit s
  | mqSendlIsr q b e => exact ends_execMqSendlIsr q b e s
  | mqRecvl q m => exact ends_blocking hp rfl fun _ task _ => ends_recvlComplete good hp (fun _ => task) q m
  | mqSendb q v =>
    exact ends_blocking hp rfl fun fault _ space => ends_sendbComplete v (by simpa using space) fun _ => fault
  | mqRecvb q => exact ends_blocking hp rfl fun _ _ _ => ends_recvbComplete q
  | mqSendbIsr q v => exact ends_execMqSendbIsr q v s
  | mqRecvbIsr q => exact ends_execMqRecvbIsr q s
  | mqPendIsr q => exact ends_execMqPendIsr q s
  | sysStatus => exact nextSatisfies_next.2 (.only _)

/-! ### The steps -/

/-- Dropping a port's record keeps the parts of the invariant that do not speak of records. -/
theorem Inv.good_released (inv : s.Inv) (p : Nat) : Good (s.setPend p none) :=
  (ForPort.setPend p s none).good (Inv.good inv)

theorem turn_completeAt (s : State) (p : Nat) : NextSatisfies (Turn p s) (s.completeAt p) := by
  unfold State.completeAt
  split
  next q m hx =>
    have busy : s.pend p ≠ none := by simp [hx]
    split
    · refine (ends_recvlComplete (G := s.Inv) (fun inv => Inv.good_released inv p) ?_ (fun inv => ?_) q m).mono
        fun _ => .settled busy
      · simpa using State.lt_of_pend busy
      · exact ((pendOk_of_waits hx rfl).1 (Inv.pendOk inv p)).1
    · exact nextSatisfies_next.2 .idle
  next q v hx =>
    have busy : s.pend p ≠ none := by simp [hx]
    split
    · exact nextSatisfies_next.2 .idle
    next full =>
      refine (ends_sendbComplete (G := s.Inv) v (by simpa using full) fun inv => ?_).mono fun _ => .settled busy
      exact ((pendOk_of_waits hx rfl).1 (Inv.pendOk inv p)).2
  next q hx =>
    have busy : s.pend p ≠ none := by simp [hx]
    split
    · exact (ends_recvbComplete q).mono fun _ => .settled busy
    · exact nextSatisfies_next.2 .idle
  · exact nextSatisfies_next.2 .idle

theorem turn_timeoutAt (s : State) (p : Nat) : Turn p s (s.timeoutAt p) := by
  unfold State.timeoutAt
  split
  next hx => exact .settled (by simp [hx]) (.only _)
  next hx => exact .settled (by simp [hx]) (.only _)
  next hx => exact .settled (by simp [hx]) (.only _)
  · exact .idle

/-- A micro-step of an RB.WM stores a byte, or moves the write cursor and answers (R55). -/
theorem turn_advanceWrite {b : Byte} {data : List Byte} {k w0 : Nat} (hx : s.pend p = some (.wm b data k w0)) :
    Turn p s (s.advanceWrite p b data k w0) := by
  have busy : s.pend p ≠ none := by simp [hx]
  have fits (inv : s.Inv) := (pendOk_of_wm hx).1 (Inv.pendOk inv p)
  have role (inv : s.Inv) : s.isProd p b = true := (fits inv).2.1
  unfold State.advanceWrite
  split
  next v hv =>
    refine .advanced busy
      (.moved (SameOutside.memWrite s b _ v) fun inv => ForPort.memWrite (role inv) _ v) _ fun inv => ?_
    obtain ⟨isSplit, role, short, -, start⟩ := fits inv
    have hk : k < data.length := (List.getElem?_eq_some_iff.1 hv).1
    exact (pendOk_of_wm (State.pend_setPend_same (s := s.memWrite b _ v) _ (State.lt_of_pend busy))).2
      ⟨isSplit, role, short, hk, by simpa using start⟩
  next =>
    exact .settled busy (.answered (u := (s.setPend p none).setWc b (w0 + data.length))
      (.moved (SameOutside.setWc _ b _) fun inv =>
        ForPort.setWc (s := s.setPend p none) (role inv) _) _)

/-- A micro-step of a drain copies a byte, or answers (R55). -/
theorem turn_advanceDrain {record : Copy → Pend} {c : Copy} (hx : s.pend p = some (record c))
    (copy : s.Inv → s.copyOk p c = true)
    (fits : s.Inv → ∀ (u : State) (c' : Copy), u.cfg = s.cfg → u.pend p = some (record c') → u.copyOk p c' = true →
      u.pendOk p = true) : Turn p s (s.advanceDrain p record c) := by
  have busy : s.pend p ≠ none := by simp [hx]
  have role (inv : s.Inv) : s.isCons p c.b = true := (copyOk_iff.1 (copy inv)).2.1
  unfold State.advanceDrain
  split
  next more =>
    refine .advanced busy
      (.moved (SameOutside.copyOne s c) fun inv => ForPort.copyOne (role inv)) _ fun inv => ?_
    have buf := (Inv.buf inv (cons_valid (role inv))).1
    have hp : p < (s.copyOne c).1.ports.length := (SameOutside.copyOne s c).ports ▸ State.lt_of_pend busy
    exact fits inv _ _ (s.cfg_copyOne c) (State.pend_setPend_same _ hp) (copyOk_copyOne (copy inv) more buf)
  · exact .settled busy (.only _)

theorem turn_advanceAt (s : State) (p : Nat) : Turn p s (s.advanceAt p) := by
  unfold State.advanceAt
  split
  next b data k w0 hx => exact turn_advanceWrite hx
  next c hx =>
    exact turn_advanceDrain hx (fun inv => (pendOk_of_rm hx).1 (Inv.pendOk inv p))
      fun _ _ _ _ hu => (pendOk_of_rm hu).2
  next q c hx =>
    have fits (inv : s.Inv) := (pendOk_of_drain hx).1 (Inv.pendOk inv p)
    refine turn_advanceDrain hx (fun inv => (fits inv).2) fun inv u _ cfg hu copy => (pendOk_of_drain hu).2 ⟨?_, copy⟩
    rw [State.isIsr, cfg]; exact (fits inv).1
  · exact .idle

/-- The outcome of a step, from what it fetched. -/
def Fetched.run : Fetched → Result
  | .perform i u => exec i u
  | .settled r => r

theorem step_eq_run (s : State) : step s = s.fetch.run := by
  unfold step
  cases s.fetch <;> rfl

theorem State.lt_of_todo {r : Request} {rest : List Request} (todo : (s.port p).todo = r :: rest) :
    p < s.ports.length := by
  by_contra hp
  rw [State.port_of_le (by omega)] at todo
  cases todo

/-- Issuing a request touches nothing but its port's own fields. -/
theorem ForPort.issuing (p : Nat) (s : State) (rest : List Request) : ForPort p s (s.issuing p rest) :=
  ForPort.model p _ _ rfl rfl rfl rfl (State.length_setPort s p _) fun _ hp =>
    congrArg Port.pend (State.port_setPort_other s _ hp)

theorem turn_issueAt (s : State) (p : Nat) : NextSatisfies (Turn p s) (s.issueAt p).run := by
  unfold State.issueAt
  split
  next r rest free todo =>
    have hp : p < (s.issuing p rest).ports.length := by simpa [State.issuing] using State.lt_of_todo todo
    have issued := fun t => Turn.issued (t := t) free todo
    simp only [State.issue]
    split
    next i _ =>
      exact (ends_exec i (fun inv => (ForPort.issuing p s rest).good (Inv.good inv)) hp).mono issued
    · exact nextSatisfies_next.2 (issued _ (.raise _))
  · exact nextSatisfies_next.2 .idle

/-- A step with no choice to come is idle; any other resets the block or is a turn of the port its choice is about. -/
theorem step_cases (h : step s = .next t) :
    (s.sched = [] ∧ t = s) ∨ (∃ rest, s.sched = .reset :: rest ∧ t = State.blockReset { s with sched := rest }) ∨
    ∃ c rest p, s.sched = c :: rest ∧ c.port = some p ∧ Turn p { s with sched := rest } t := by
  rw [step_eq_run] at h
  unfold State.fetch at h
  split at h
  next hs => exact .inl ⟨hs, (Host.Outcome.next.inj h).symm⟩
  next c rest hs =>
    cases c with
    | issue p => exact .inr (.inr ⟨_, rest, p, hs, rfl, turn_issueAt _ p t h⟩)
    | complete p => exact .inr (.inr ⟨_, rest, p, hs, rfl, turn_completeAt _ p t h⟩)
    | timeout p => exact .inr (.inr ⟨_, rest, p, hs, rfl, Host.Outcome.next.inj h ▸ turn_timeoutAt _ p⟩)
    | advance p => exact .inr (.inr ⟨_, rest, p, hs, rfl, Host.Outcome.next.inj h ▸ turn_advanceAt _ p⟩)
    | reset => exact .inr (.inl ⟨rest, hs, (Host.Outcome.next.inj h).symm⟩)

end Sys2Proof.Machine
end

section
/-! SUPPORT. What every step keeps, from what a turn can do: the invariant (10_state.md R21 to R31), the STATUS bits (R30), the
order of a created queue (R28, R141) and the note of the unanswered request (log entry 21). -/

namespace Sys2Proof.Machine

variable {G : Prop} {p : Nat} {s t u : State}

/-! ### STATUS bits, ports and the current port -/

theorem and_or_self_left (a k : BitVec 16) : a &&& (a ||| k) = a := by
  ext i
  simpa using Or.inl

theorem initQueue_keeps (a : InitRun) (q : Nat) :
    (initQueue a q).st.ports = a.st.ports ∧ (initQueue a q).st.cur = a.st.cur ∧
    a.st.status &&& (initQueue a q).st.status = a.st.status := by
  unfold initQueue
  split
  · exact ⟨rfl, rfl, and_or_self_left _ _⟩
  · exact ⟨rfl, rfl, BitVec.and_self⟩

/-- Whatever queues it has still to visit, MQ.INIT's loop keeps the ports and clears no STATUS bit. -/
theorem foldl_initQueue_keeps (qs : List Nat) (a : InitRun) :
    (qs.foldl initQueue a).st.ports = a.st.ports ∧ (qs.foldl initQueue a).st.cur = a.st.cur ∧
    a.st.status &&& (qs.foldl initQueue a).st.status = a.st.status := by
  induction qs generalizing a with
  | nil => exact ⟨rfl, rfl, BitVec.and_self⟩
  | cons q qs ih =>
    obtain ⟨ports, cur, status⟩ := ih (initQueue a q)
    obtain ⟨ports', cur', status'⟩ := initQueue_keeps a q
    refine ⟨ports.trans ports', cur.trans cur', ?_⟩
    rw [List.foldl_cons, ← status', BitVec.and_assoc, status]

theorem initAll_keeps (s : State) :
    (initAll s).st.ports = s.ports ∧ (initAll s).st.cur = s.cur ∧ s.status &&& (initAll s).st.status = s.status :=
  foldl_initQueue_keeps _ _

theorem Effect.ports (h : Effect G p s u) : u.ports = s.ports := by
  cases h with
  | moved outside => exact outside.ports
  | faulted => rfl
  | created => exact (initAll_keeps s).1
  | sent outside => exact outside.ports
  | received _ outside => exact outside.ports

theorem Effect.cur (h : Effect G p s u) : u.cur = s.cur := by
  cases h with
  | moved outside => exact outside.cur
  | faulted => rfl
  | created => exact (initAll_keeps s).2.1
  | sent outside => exact outside.cur
  | received _ outside => exact outside.cur

theorem Effect.status (h : Effect G p s u) : s.status &&& u.status = s.status := by
  cases h with
  | moved outside => rw [outside.status, BitVec.and_self]
  | faulted => exact and_or_self_left _ _
  | created => exact (initAll_keeps s).2.2
  | sent outside => rw [State.status_enqueue, outside.status, BitVec.and_self]
  | received _ outside => rw [outside.status, State.status_dropHead, BitVec.and_self]

theorem Ends.cur (h : Ends G p s t) : t.cur = s.cur := by
  cases h with
  | answered effect => exact effect.cur
  | recorded effect => exact effect.cur

theorem Ends.status (h : Ends G p s t) : s.status &&& t.status = s.status := by
  cases h with
  | answered effect => exact effect.status
  | recorded effect => exact effect.status

theorem Turn.status (h : Turn p s t) : s.status &&& t.status = s.status := by
  cases h with
  | idle => exact BitVec.and_self
  | issued _ _ ends => exact ends.status
  | settled _ ends => exact ends.status
  | advanced _ effect => exact effect.status

/-! ### Queues -/

/-- What a step may do to a created queue that holds at most `cap` entries (R28, R141). -/
def Queue.Moves (cap : Nat) (x y : Queue) : Prop :=
  y.created = true ∧ y.shape = x.shape ∧
    (y.fifo = x.fifo ∨ (∃ e, y.fifo = x.fifo ++ [e] ∧ x.fifo.length < cap) ∨ ∃ e, x.fifo = e :: y.fifo)

theorem Queue.Moves.refl {x : Queue} (cap : Nat) (h : x.created = true) : x.Moves cap x := ⟨h, rfl, .inl rfl⟩

theorem State.created_of_qlive {q : Byte} (live : s.qlive q = true) : (s.queue q).created = true := by
  simp only [State.qlive, Bool.and_eq_true] at live
  obtain ⟨-, created⟩ := live
  exact created

/-- Outside the queues a queue reads as not created. -/
theorem State.lt_of_created {q : Byte} (h : (s.queue q).created = true) : q.toNat < s.queues.length := by
  by_contra hq
  rw [State.queue, List.getD_eq_getElem?_getD, List.getElem?_eq_none (by omega)] at h
  cases h

theorem queueMoves_enqueue {q q' : Byte} (x : Entry) (space : s.full q' = false) (h : (s.queue q).created = true) :
    (s.queue q).Moves s.cfg.qcap ((s.enqueue q' x).queue q) := by
  by_cases hq : q = q'
  · subst hq
    rw [State.queue_enqueue_same x (State.lt_of_created h)]
    exact ⟨h, rfl, .inr (.inl ⟨x, rfl, by simpa [State.full] using space⟩)⟩
  · rw [State.queue_enqueue_other s x hq]
    exact .refl _ h

theorem queueMoves_dropHead {q q' : Byte} {x : Entry} (head : (s.queue q').fifo.head? = some x)
    (h : (s.queue q).created = true) : (s.queue q).Moves s.cfg.qcap ((s.dropHead q').queue q) := by
  by_cases hq : q = q'
  · subst hq
    rw [State.queue_dropHead_same (State.lt_of_created h)]
    exact ⟨h, rfl, .inr (.inr ⟨x, (List.cons_head?_tail head).symm⟩)⟩
  · rw [State.queue_dropHead_other s hq]
    exact .refl _ h

theorem queue_initAll_of_created (sized : s.queues.length = s.cfg.nq) {q : Byte} (h : (s.queue q).created = true) :
    (initAll s).st.queue q = s.queue q := by
  obtain ⟨-, -, -, -, -, -, -, queues, -⟩ := initAll_spec s sized
  have live : (s.queues.getD q.toNat Queue.blank).created = true := h
  exact (queues q.toNat).trans (if_neg fun ⟨_, blank⟩ => absurd (live.symm.trans blank) (by decide))

theorem Effect.queueMoves (e : Effect G p s u) (sized : s.queues.length = s.cfg.nq) {q : Byte}
    (h : (s.queue q).created = true) : (s.queue q).Moves s.cfg.qcap (u.queue q) := by
  cases e with
  | moved outside => rw [outside.queue]; exact .refl _ h
  | faulted => exact .refl _ h
  | created => rw [queue_initAll_of_created sized h]; exact .refl _ h
  | sent outside _ space =>
    rw [← outside.queue, ← outside.cfg]
    exact queueMoves_enqueue _ space (by rw [outside.queue]; exact h)
  | received head outside => rw [outside.queue]; exact queueMoves_dropHead head h

theorem Ends.queueMoves (e : Ends G p s t) (sized : s.queues.length = s.cfg.nq) {q : Byte}
    (h : (s.queue q).created = true) : (s.queue q).Moves s.cfg.qcap (t.queue q) := by
  cases e with
  | answered effect => exact effect.queueMoves sized h
  | recorded effect => exact effect.queueMoves sized h

theorem Turn.queueMoves (e : Turn p s t) (sized : s.queues.length = s.cfg.nq) {q : Byte}
    (h : (s.queue q).created = true) : (s.queue q).Moves s.cfg.qcap (t.queue q) := by
  cases e with
  | idle => exact .refl _ h
  | issued _ _ ends => exact ends.queueMoves sized h
  | settled _ ends => exact ends.queueMoves sized h
  | advanced _ effect => exact effect.queueMoves sized h

/-! ### The note of the unanswered request -/

theorem State.PendUnanswered.congr (h : s.PendUnanswered) (ports : u.ports = s.ports) : u.PendUnanswered := by
  simpa only [State.PendUnanswered, State.pend, State.port, ports] using h

/-- A record may be written for a port whose last request has no response. -/
theorem State.PendUnanswered.setPend (h : s.PendUnanswered) (noted : (s.port p).unanswered = true) (x : Option Pend) :
    (s.setPend p x).PendUnanswered := by
  intro p' busy
  rw [State.unanswered_setPend]
  by_cases hp : p' = p
  · exact hp ▸ noted
  · exact h p' (by rwa [State.pend, State.port_setPend_other s x hp] at busy)

/-- A response may be given to a port that has no record. -/
theorem State.PendUnanswered.respond (h : s.PendUnanswered) (free : s.pend p = none) (r : Response) :
    (s.respond p r).PendUnanswered := by
  intro p' busy
  rw [State.pend_respond] at busy
  have hp : p' ≠ p := fun e => busy (e ▸ free)
  rw [State.port_respond_other s r hp]
  exact h p' busy

theorem State.pend_setPend_none (s : State) (p : Nat) : (s.setPend p none).pend p = none := by
  by_cases hp : p < s.ports.length
  · exact State.pend_setPend_same none hp
  · rw [State.pend, State.port_of_le (by simpa using hp)]; rfl

theorem State.pend_issuing (s : State) (p p' : Nat) (rest : List Request) : (s.issuing p rest).pend p' = s.pend p' :=
  State.proj_setPort s Port.pend p { s.port p with todo := rest, unanswered := true } rfl p'

theorem State.port_issuing_same (hp : p < s.ports.length) (rest : List Request) :
    (s.issuing p rest).port p = { s.port p with todo := rest, unanswered := true } :=
  State.port_setPort_same _ hp

theorem State.PendUnanswered.issuing (h : s.PendUnanswered) (free : s.pend p = none) (rest : List Request) :
    (s.issuing p rest).PendUnanswered := by
  intro p' busy
  rw [State.pend_issuing] at busy
  have hp : p' ≠ p := fun e => busy (e ▸ free)
  have other : (s.issuing p rest).port p' = s.port p' := State.port_setPort_other s _ hp
  rw [other]
  exact h p' busy

theorem Ends.pendUnanswered (e : Ends G p s t) (h : s.PendUnanswered) (free : s.pend p = none)
    (noted : (s.port p).unanswered = true) : t.PendUnanswered := by
  cases e with
  | answered effect =>
    exact (h.congr effect.ports).respond (by rwa [State.pend, State.port, effect.ports]) _
  | recorded effect =>
    exact (h.congr effect.ports).setPend (by rwa [State.port, effect.ports]) _

theorem Turn.pendUnanswered (e : Turn p s t) (h : s.PendUnanswered) : t.PendUnanswered := by
  cases e with
  | idle => exact h
  | issued free todo ends =>
    refine ends.pendUnanswered (h.issuing free _) (by rwa [State.pend_issuing]) ?_
    rw [State.port_issuing_same (State.lt_of_todo todo)]
  | settled busy ends =>
    exact ends.pendUnanswered (h.setPend (h p busy) none) (s.pend_setPend_none p)
      (by rw [State.unanswered_setPend]; exact h p busy)
  | advanced busy effect =>
    exact (h.congr effect.ports).setPend (by rw [State.port, effect.ports]; exact h p busy) _

/-! ### The invariant -/

theorem isProd_unique {p' : Nat} {b : Byte} (h : s.isProd p' b = true) (hp : p' ≠ p) : s.isProd p b = false := by
  simp only [State.isProd, beq_iff_eq] at h
  simp [State.isProd, h, hp]

theorem isCons_unique {p' : Nat} {b : Byte} (h : s.isCons p' b = true) (hp : p' ≠ p) : s.isCons p b = false := by
  simp only [State.isCons, beq_iff_eq] at h
  simp [State.isCons, h, hp]

/-- Another port's drain goes on fitting: its buffer has one consumer (R57, R105). -/
theorem ForPort.copyOk_other (k : ForPort p s t) {p' : Nat} (hp : p' ≠ p) {c : Copy} (h : s.copyOk p' c = true) :
    t.copyOk p' c = true := by
  obtain ⟨isSplit, role, count, out, cursor⟩ := copyOk_iff.1 h
  refine copyOk_iff.2 ⟨by rwa [k.cfg], by rwa [isCons_cfg k.cfg], by rwa [k.cfg], out, ?_⟩
  rw [k.rc _ (isCons_unique role hp), k.cfg, cursor]

/-- Another port's record goes on fitting: a port moves no buffer it is not bound to and undoes no queue (R57). -/
theorem ForPort.pendOk_other (k : ForPort p s t) {p' : Nat} (hp : p' ≠ p) (h : s.pendOk p' = true) :
    t.pendOk p' = true := by
  have same := k.other p' hp
  have isr : t.isIsr p' = s.isIsr p' := by simp only [State.isIsr, k.cfg]
  have waiting {x : Pend} {q : Byte} {sh : Shape} (hx : s.pend p' = some x) (hw : x.waits = some (q, sh)) :
      t.pendOk p' = true := by
    obtain ⟨task, fault⟩ := (pendOk_of_waits hx hw).1 h
    exact (pendOk_of_waits (same.trans hx) hw).2 ⟨isr.trans task, k.qf q sh fault⟩
  cases hx : s.pend p' with
  | none => exact State.pendOk_of_none (same.trans hx)
  | some x =>
    cases x with
    | recvl => exact waiting hx rfl
    | sendb => exact waiting hx rfl
    | recvb => exact waiting hx rfl
    | wm =>
      obtain ⟨isSplit, role, short, hk, start⟩ := (pendOk_of_wm hx).1 h
      refine (pendOk_of_wm (same.trans hx)).2 ⟨by rwa [k.cfg], by rwa [isProd_cfg k.cfg], by rwa [k.cfg], hk, ?_⟩
      rw [(k.wc _ (isProd_unique role hp)).1, start]
    | rm => exact (pendOk_of_rm (same.trans hx)).2 (k.copyOk_other hp ((pendOk_of_rm hx).1 h))
    | drain =>
      obtain ⟨task, copy⟩ := (pendOk_of_drain hx).1 h
      exact (pendOk_of_drain (same.trans hx)).2 ⟨isr.trans task, k.copyOk_other hp copy⟩

/-- What port `p` does keeps the invariant when its own record fits afterwards. -/
theorem ForPort.inv (k : ForPort p s t) (inv : s.Inv) (cur : t.cur < s.cfg.np) (own : t.pendOk p = true) : t.Inv := by
  obtain ⟨legal, sized, bufs, queues, reserved⟩ := k.good (Inv.good inv)
  refine ⟨legal, sized, by rwa [k.cfg], bufs, queues, reserved, fun p' _ => ?_⟩
  by_cases hp : p' = p
  · exact hp ▸ own
  · exact k.pendOk_other hp (Inv.pendOk inv p')

/-- A queue with a head is live (R28). -/
theorem Good.qlive_of_head (good : Good s) {q : Byte} {x : Entry} (head : (s.queue q).fifo.head? = some x) :
    s.qlive q = true := by
  obtain ⟨-, sized, -⟩ := good.sized
  have notBlank : s.queue q ≠ Queue.blank := fun blank => by rw [blank] at head; cases head
  have index : q.toNat < s.cfg.nq := by
    by_contra hq
    rw [← sized] at hq
    exact notBlank (by rw [State.queue, List.getD_eq_getElem?_getD, List.getElem?_eq_none (by omega)]; rfl)
  have created : (s.queue q).created = true := by
    by_contra hc
    have := good.queue index
    simp only [State.queueOk, hc, Bool.and_eq_true] at this
    obtain ⟨⟨blank, -⟩, -⟩ := this
    exact notBlank (by simpa using blank)
  simp [State.qlive, index, created]

/-- MQ.INIT creates queues that fit and leaves the created ones (R143). -/
theorem Good.initAll (good : Good s) : Good (initAll s).st := by
  obtain ⟨legal, sized, bufs, queues, reserved⟩ := id good
  obtain ⟨cfg, sameBufs, ports, -, -, -, length, newQueues, -, -, status⟩ := initAll_spec s sized.2.1
  refine ⟨cfg ▸ legal, ?_, fun b hb => ?_, fun q hq => ?_, ?_⟩
  · simpa only [State.Sized, cfg, sameBufs, ports, length] using sized
  · rw [bufOk_cfg cfg, sameBufs]; exact bufs b (by rwa [← cfg])
  · rw [cfg] at hq
    rw [queueOk_cfg cfg, cfg, newQueues]
    split
    · simp [State.queueOk]
    · exact queues q hq
  · rw [status]
    split
    · exact ((ForPort.setStatus 0 s statusDblinit (by decide)).good good).st
    · exact reserved

theorem ForPort.initAll (good : Good s) (p : Nat) : ForPort p s (initAll s).st := by
  obtain ⟨-, sized, -⟩ := id good.sized
  obtain ⟨cfg, bufs, ports, -⟩ := initAll_spec s sized
  have buf (b : Byte) : (Machine.initAll s).st.buf b = s.buf b := by rw [State.buf, bufs]; rfl
  refine ⟨cfg, Good.initAll, fun _ _ => by rw [State.pend, State.port, ports]; rfl, fun q sh fault => ?_,
    fun b _ => ⟨by rw [State.wc, buf]; rfl, fun i => by rw [State.cell, State.unlisted, cfg, buf]; rfl⟩,
    fun b _ => by rw [State.rc, buf]; rfl⟩
  obtain ⟨live, shape⟩ := (State.queueFault_eq_none s q sh).1 fault
  have same := queue_initAll_of_created sized (State.created_of_qlive live)
  exact (State.queueFault_eq_none _ q sh).2 ⟨by rwa [State.qlive, cfg, same], by rwa [same]⟩

theorem Effect.forPort (e : Effect G p s u) (hG : G) (good : Good s) : ForPort p s u := by
  cases e with
  | moved _ bound => exact bound hG
  | faulted f => exact ForPort.setStatus p s _ (by cases f <;> decide)
  | created => exact ForPort.initAll good p
  | sent _ bound space fits => exact (bound hG).trans (ForPort.enqueue p (fits hG).1 (fits hG).2 space)
  | received head _ bound => exact (ForPort.dropHead p s _ (good.qlive_of_head head)).trans (bound hG)

theorem Ends.forPort (e : Ends G p s t) (hG : G) (good : Good s) : ForPort p s t := by
  cases e with
  | answered effect => exact (effect.forPort hG good).trans (ForPort.respond p _ _)
  | recorded effect => exact (effect.forPort hG good).trans (ForPort.setPend p _ _)

theorem Ends.pendOk (e : Ends G p s t) (hG : G) (free : s.pend p = none) : t.pendOk p = true := by
  cases e with
  | answered effect =>
    exact State.pendOk_of_none (by rwa [State.pend_respond, State.pend, State.port, effect.ports])
  | recorded _ _ fits => exact fits hG

/-- A turn moves only what its port is bound to (R57). -/
theorem Turn.forPort (e : Turn p s t) (inv : s.Inv) : ForPort p s t := by
  have good := Inv.good inv
  cases e with
  | idle => exact ForPort.refl p s
  | issued _ _ ends => exact (ForPort.issuing p s _).trans (ends.forPort inv ((ForPort.issuing p s _).good good))
  | settled _ ends => exact (ForPort.setPend p s none).trans (ends.forPort inv (Inv.good_released inv p))
  | advanced _ effect => exact (effect.forPort inv good).trans (ForPort.setPend p _ _)

theorem Turn.inv (e : Turn p s t) (inv : s.Inv) : t.Inv := by
  have forPort := e.forPort inv
  obtain ⟨-, ⟨-, -, ports⟩, cur, -⟩ := id inv
  cases e with
  | idle => exact inv
  | issued free todo ends =>
    refine forPort.inv inv ?_ (ends.pendOk inv (by rwa [State.pend_issuing]))
    rw [ends.cur, ← ports]
    exact State.lt_of_todo todo
  | settled _ ends => exact forPort.inv inv (by rwa [ends.cur]) (ends.pendOk inv (s.pend_setPend_none p))
  | advanced _ effect _ fits => exact forPort.inv inv (by rwa [State.cur_setPend, effect.cur]) (fits inv)

/-- A step that is not reset is idle, or takes a choice off the schedule and is a turn of a port. -/
theorem step_cases_of_not_reset (h : step s = .next t) (notReset : s.sched.head? ≠ some .reset) :
    t = s ∨ ∃ rest p, Turn p { s with sched := rest } t := by
  obtain ⟨-, rfl⟩ | ⟨rest, hs, -⟩ | ⟨-, rest, p, -, -, turn⟩ := step_cases h
  · exact .inl rfl
  · exact absurd (by rw [hs]; rfl) notReset
  · exact .inr ⟨rest, p, turn⟩

end Sys2Proof.Machine

namespace Sys2Proof

open Machine

/-- Settles O47: every turn of a port keeps the invariant, and so does the reset event. -/
theorem everyStepKeepsInv : Obligations.EveryStepKeepsInv := by
  unfold Obligations.EveryStepKeepsInv
  intro s t inv h
  have taken (rest : List Choice) : State.Inv { s with sched := rest } := inv
  obtain ⟨-, rfl⟩ | ⟨rest, -, rfl⟩ | ⟨-, rest, p, -, -, turn⟩ := step_cases h
  · exact inv
  · exact Inv.blockReset (taken rest)
  · exact turn.inv (taken rest)

/-- Settles O55: a turn of a port does to a created queue what the statement lists. -/
theorem createdQueuesAreFifo : Obligations.CreatedQueuesAreFifo := by
  unfold Obligations.CreatedQueuesAreFifo
  intro s t q inv notReset h live
  have created := State.created_of_qlive live
  obtain ⟨-, sized, -⟩ := (Inv.good inv).sized
  obtain rfl | ⟨rest, p, turn⟩ := step_cases_of_not_reset h notReset
  · exact Queue.Moves.refl _ created
  · exact turn.queueMoves sized created

/-- Settles O49: a turn of a port only sets STATUS bits. -/
theorem statusBitsAreSticky : Obligations.StatusBitsAreSticky := by
  unfold Obligations.StatusBitsAreSticky
  intro s t h notReset
  obtain rfl | ⟨rest, p, turn⟩ := step_cases_of_not_reset h notReset
  · exact BitVec.and_self
  · exact turn.status

/-- Settles O52: no port has a record after reset, and a turn writes a record only for a port whose last request has no
response. -/
theorem outstandingRequestsAreUnanswered : Obligations.OutstandingRequestsAreUnanswered := by
  unfold Obligations.OutstandingRequestsAreUnanswered
  refine ⟨fun c p busy => absurd ((State.cleared_resetOf c).pend p) busy, fun s t noted h => ?_⟩
  obtain ⟨-, rfl⟩ | ⟨rest, -, rfl⟩ | ⟨-, rest, p, -, -, turn⟩ := step_cases h
  · exact noted
  · exact fun p busy => absurd (State.pend_blockReset _ p) busy
  · exact turn.pendUnanswered noted

end Sys2Proof
end

section
/-! SUPPORT. Which port moves a buffer (20_memory.md R57), and a message written to an empty buffer and read back
(R58). -/

namespace Sys2Proof.Machine

variable {s : State} {b : Byte}

/-- Whose turn it is does not matter to the state's shape. -/
theorem Good.withCur (good : Good s) (p : Nat) : Good { s with cur := p } := good.congr rfl rfl rfl rfl good.st

theorem Good.buf_lt (good : Good s) (valid : b.toNat < s.cfg.nb) : b.toNat < s.bufs.length := by
  obtain ⟨bufs, -⟩ := good.sized
  rwa [bufs]

theorem Good.wf (good : Good s) (valid : b.toNat < s.cfg.nb) : Memory.wf s.unlisted (s.buf b).mem = true := by
  have := good.buf valid
  simp only [State.bufOk, Bool.and_eq_true] at this
  obtain ⟨⟨-, canonical⟩, -⟩ := this
  exact canonical

/-- The producer's checks pass for the producer: its buffer is a valid one (R105, R106). -/
theorem State.asProducer_of_isProd (role : s.isProd s.cur b = true) (k : State) : s.asProducer b k = .next k := by
  simp [State.asProducer, valid_iff.2 (prod_valid role), role]

/-- The consumer's checks pass for the consumer: its buffer is a valid one (R105, R106). -/
theorem State.asConsumer_of_isCons (role : s.isCons s.cur b = true) (k : State) : s.asConsumer b k = .next k := by
  simp [State.asConsumer, valid_iff.2 (cons_valid role), role]

/-- What the indivisible RB.WM does to the block before it answers: the bytes stored, the write cursor past them
(R102). -/
def State.writeMessage (s : State) (b : Byte) (data : List Byte) : State :=
  (s.storeFrom b (s.wc b) data).setWc b (s.wc b + data.length)

/-- An accepted message is written in the one step (R54, R102). -/
theorem execRbWm_atomic {data : List Byte} (role : s.isProd s.cur b = true) (short : data.length < s.cfg.n - 1)
    (atomic : s.cfg.atomicMultibyte = true) :
    execRbWm b data s = .next ((s.writeMessage b data).respond s.cur (countResponse data.length [])) := by
  rw [execRbWm, State.asProducer_of_isProd role, if_neg (by omega), if_pos atomic, State.writeMessage]

theorem ForPort.writeMessage {p : Nat} (role : s.isProd p b = true) (data : List Byte) :
    ForPort p s (s.writeMessage b data) :=
  have stored := ForPort.storeFrom data role (s.wc b)
  stored.trans (ForPort.setWc (by rwa [isProd_cfg stored.cfg]) _)

/-- The indivisible RB.WM puts the message in the cells from the write cursor on, which moves past them (R51, R102). -/
theorem execRbWm_writes {data : List Byte} (good : Good s) (role : s.isProd s.cur b = true)
    (short : data.length < s.cfg.n - 1) (atomic : s.cfg.atomicMultibyte = true) :
    ∃ t, execRbWm b data s = .next t ∧ Good t ∧ t.cfg = s.cfg ∧ t.rc b = s.rc b ∧
      t.wc b = (s.wc b + data.length) % s.cfg.n ∧
      ∀ k (hk : k < data.length), t.cell b (s.wc b + k) = some data[k] := by
  have hb : b.toNat < s.bufs.length := good.buf_lt (prod_valid role)
  have written := ForPort.writeMessage role data
  have stored := SameOutside.storeFrom b data s (s.wc b)
  refine ⟨_, execRbWm_atomic role short atomic, (written.trans (ForPort.respond _ _ _)).good good, written.cfg, ?_,
    ?_, fun k hk => ?_⟩
  · rw [State.rc_respond, State.writeMessage, State.rc_setWc, State.rc_storeFrom]
  · rw [State.wc_respond, State.writeMessage, State.wc_setWc_same _ (by rwa [stored.length]), stored.cfg]
  · rw [State.cell_respond, State.writeMessage, State.cell_setWc]
    exact State.cell_storeFrom_in data s _ k hb (good.wf (prod_valid role)) (by omega) hk

/-- Bytes read off cells that hold a message are the message. -/
theorem BytesRead.eq_of_cells {out data : List Byte} (h : BytesRead s b data.length out)
    (cells : ∀ j (hj : j < data.length), s.cell b (s.rc b + j) = some data[j]) : out = data := by
  obtain ⟨outLength, bytes⟩ := h
  refine List.ext_getElem? fun j => ?_
  by_cases hj : j < data.length
  · rw [bytes j data[j] hj (cells j hj), List.getElem?_eq_getElem hj]
  · rw [List.getElem?_eq_none (by omega), List.getElem?_eq_none (by omega)]

/-- A length below N, given as end marker with the greatest maximum, is what the drain copies (R103). -/
theorem min_endMarker_of_lt {c : Config} (legal : c.Legal) {k : Nat} (hk : k < c.n) :
    min (BitVec.ofNat 16 k).toNat (min (0xFFFF : Half).toNat c.n) = k := by
  obtain ⟨⟨-, width⟩, -⟩ := legal
  have capacity : c.n ≤ 2 ^ 16 := Nat.pow_le_pow_right (by decide) width
  have maximum : (0xFFFF : Half).toNat = 65535 := rfl
  rw [BitVec.toNat_ofNat, maximum, Nat.mod_eq_of_lt (by omega)]
  omega

/-- The indivisible RB.RM with a message's length as end marker answers the message that stands from the read cursor on,
which moves past it (R103). -/
theorem execRbRm_reads {data : List Byte} (good : Good s) (hp : s.cur < s.ports.length) (role : s.isCons s.cur b = true)
    (short : data.length < s.cfg.n) (notEmpty : data ≠ []) (atomic : s.cfg.atomicMultibyte = true)
    (cells : ∀ j (hj : j < data.length), s.cell b (s.rc b + j) = some data[j]) :
    ∃ u, execRbRm b (BitVec.ofNat 16 data.length) 0xFFFF s = .next u ∧
      u.resps s.cur = s.resps s.cur ++ [⟨.ok, BitVec.ofNat 16 data.length, data⟩] ∧
      u.rc b = (s.rc b + data.length) % s.cfg.n ∧ u.wc b = s.wc b := by
  have hb : b.toNat < s.bufs.length := good.buf_lt (cons_valid role)
  have drain := drain_atomic (e := BitVec.ofNat 16 data.length) (m := 0xFFFF) .rm hb (good.rc_lt (cons_valid role)) hp
    atomic
  rw [min_endMarker_of_lt good.legal short, if_neg (by simpa using notEmpty)] at drain
  obtain ⟨out, bytes, ⟨rc, wc, -⟩, -, -, -, -, answered, -⟩ := drain
  obtain rfl : out = data := bytes.eq_of_cells cells
  exact ⟨_, State.asConsumer_of_isCons role _, answered, rc, wc⟩

end Sys2Proof.Machine

namespace Sys2Proof

open Machine

/-- Settles O51: a step that is not reset is a turn of the port its choice is about, and a turn moves only what its port
is bound to. -/
theorem onlyTheBoundPortsMoveABuffer : Obligations.OnlyTheBoundPortsMoveABuffer := by
  unfold Obligations.OnlyTheBoundPortsMoveABuffer
  intro s t c sched b inv hs notReset h
  obtain ⟨nil, -⟩ | ⟨rest, reset, -⟩ | ⟨c', rest, p, turning, port, turn⟩ := step_cases h
  · rw [hs] at nil; cases nil
  · rw [hs] at reset; cases reset; exact absurd rfl notReset
  · rw [hs] at turning
    cases turning
    have bound : ForPort p { s with sched := sched } t := turn.forPort inv
    refine ⟨fun moved => ⟨p, port, ?_⟩, fun moved => ⟨p, port, ?_⟩⟩
    · by_contra role
      obtain ⟨wc, cells⟩ := bound.wc b (by simpa using role)
      obtain wcMoved | ⟨i, cellMoved⟩ := moved
      · exact wcMoved wc
      · exact cellMoved (cells i)
    · by_contra role
      exact moved (bound.rc b (by simpa using role))

/-- Settles O21: the message is written from the write cursor on, which is where the read cursor is. -/
theorem writtenMessageIsReadBack : Obligations.WrittenMessageIsReadBack := by
  unfold Obligations.WrittenMessageIsReadBack
  intro s b data p c inv atomic _ _ hc isProd isCons empty notEmpty short
  obtain ⟨t, write, good, cfg, rc, wc, cells⟩ :=
    execRbWm_writes (s := { s with cur := p }) ((Inv.good inv).withCur p) isProd short atomic
  rw [State.wc_withCur s p, empty] at wc cells
  rw [State.rc_withCur s p] at rc
  obtain ⟨-, -, ports⟩ := good.sized
  obtain ⟨u, read, answered, rcu, wcu⟩ := execRbRm_reads (s := { t with cur := c }) (good.withCur c)
    (by simpa only [ports, cfg] using hc) (by rwa [State.isCons_withCur, isCons_cfg cfg])
    (by simp only [cfg]; omega) notEmpty (by simpa only [cfg] using atomic)
    (by simpa only [State.cell_withCur, State.rc_withCur, rc] using cells)
  refine ⟨t, u, write, read, answered, ?_⟩
  rw [rcu, wcu, State.wc_withCur t c, State.rc_withCur t c, wc, rc, cfg]

end Sys2Proof
end

section
/-! SUPPORT. The micro-steps of a split operation (20_memory.md R55): which one is next, and what it does. -/

namespace Sys2Proof.Machine

variable {s : State} {p : Nat} {b : Byte} {data : List Byte} {k w0 : Nat} {record : Copy → Pend} {c : Copy}

theorem step_advance {sched : List Choice} (hs : s.sched = .advance p :: sched) :
    step s = .next (State.advanceAt { s with sched := sched } p) := by
  rw [step_eq_run, State.fetch, hs]; rfl

theorem State.advanceAt_wm (hx : s.pend p = some (.wm b data k w0)) : s.advanceAt p = s.advanceWrite p b data k w0 := by
  simp only [State.advanceAt, hx]

/-- The records of a drain in progress: RB.RM's and MQ.RECVL's (R55). -/
abbrev IsDrainRecord (record : Copy → Pend) : Prop := record = .rm ∨ ∃ q, record = .drain q

theorem State.advanceAt_drain (drains : IsDrainRecord record) (hx : s.pend p = some (record c)) :
    s.advanceAt p = s.advanceDrain p record c := by
  obtain rfl | ⟨q, rfl⟩ := drains <;> simp only [State.advanceAt, hx]

/-- A fitting drain's progress fits, whichever operation drains (R55). -/
theorem copyOk_of_pendOk (drains : IsDrainRecord record) (hx : s.pend p = some (record c)) (h : s.pendOk p = true) :
    s.copyOk p c = true := by
  obtain rfl | ⟨q, rfl⟩ := drains
  · exact (pendOk_of_rm hx).1 h
  · obtain ⟨-, copy⟩ := (pendOk_of_drain hx).1 h
    exact copy

theorem State.advanceWrite_of_lt (hk : k < data.length) :
    s.advanceWrite p b data k w0 = (s.memWrite b (w0 + k) data[k]).setPend p (some (.wm b data (k + 1) w0)) := by
  simp only [State.advanceWrite, List.getElem?_eq_getElem hk]

theorem State.advanceWrite_of_le (hk : data.length ≤ k) : s.advanceWrite p b data k w0 =
    ((s.setWc b (w0 + data.length)).setPend p none).respond p (countResponse data.length []) := by
  simp only [State.advanceWrite, List.getElem?_eq_none hk]

theorem State.advanceDrain_of_lt (hc : c.count < c.limit s.cfg.n) :
    s.advanceDrain p record c = (s.copyOne c).1.setPend p (some (record (s.copyOne c).2)) :=
  if_pos ((c.more_iff _ hc.le).2 hc)

/-- At its limit the loop of R103 stops. -/
theorem Copy.not_more_of_eq {n : Nat} (done : c.count = c.limit n) : ¬c.more n = true := by
  rw [c.more_iff n done.le]; omega

theorem State.advanceDrain_of_eq (done : c.count = c.limit s.cfg.n) :
    s.advanceDrain p record c = (s.setPend p none).respond p (countResponse c.count c.out) :=
  if_neg (Copy.not_more_of_eq done)

/-- Ending the record and answering leaves no record. -/
theorem State.pend_end (s : State) (p : Nat) (r : Response) : ((s.setPend p none).respond p r).pend p = none := by
  rw [State.pend_respond, State.pend_setPend_none]

/-- Ending the record and answering gives the port the one response. -/
theorem State.resps_end (hp : p < s.ports.length) (r : Response) :
    ((s.setPend p none).respond p r).resps p = s.resps p ++ [r] := by
  rw [State.resps_respond_same r (by simpa using hp), State.resps_setPend]

theorem State.port_end_other {p' : Nat} (hp : p' ≠ p) (r : Response) :
    ((s.setPend p none).respond p r).port p' = s.port p' := by
  rw [State.port_respond_other _ r hp, State.port_setPend_other s _ hp]

end Sys2Proof.Machine

namespace Sys2Proof

open Machine

/-- Settles O39: a micro-step stores the byte at its index, and past the last it moves the write cursor and answers. -/
theorem splitWriteMicroSteps : Obligations.SplitWriteMicroSteps := by
  unfold Obligations.SplitWriteMicroSteps
  intro s p sched b data k w0 inv hs hx
  have hp := State.lt_of_pend (s := s) (p := p) (by simp [hx])
  obtain ⟨-, role, -, -, -⟩ := (pendOk_of_wm hx).1 (Inv.pendOk inv p)
  obtain ⟨hb, -, -, canonical⟩ := Inv.buf inv (prod_valid role)
  refine ⟨_, step_advance hs, ?_⟩
  rw [State.advanceAt_wm (s := { s with sched := sched }) hx]
  by_cases hk : k < data.length
  · rw [State.advanceWrite_of_lt hk, dif_pos hk]
    refine ⟨fun b' hb' => ⟨by simp, by simp, fun i => by simp [State.cell_memWrite_otherBuf _ _ _ hb']⟩,
      fun _ => rfl, rfl, by simp, fun p' hp' => State.port_setPend_other _ _ hp', rfl, rfl, ?_, ?_, ?_, ?_, ?_⟩
    · exact State.cell_memWrite_same (s := { s with sched := sched }) _ hb canonical rfl
    · exact fun i hi => State.cell_memWrite_other _ _ hi b
    · simp
    · exact State.pend_setPend_same _ hp
    · simp
  · rw [State.advanceWrite_of_le (by omega), dif_neg hk]
    refine ⟨fun b' hb' => ⟨State.wc_setWc_other _ _ hb', by simp, by simp⟩, fun _ => rfl, rfl, by simp,
      fun p' hp' => State.port_end_other hp' _, rfl, rfl, by simp, ?_, State.pend_end _ _ _, ?_⟩
    · exact State.wc_setWc_same (s := { s with sched := sched }) _ hb
    · rw [State.resps_end (by exact hp)]
      simp [countResponse]

/-- Settles O40: a micro-step copies the byte at the read cursor, and at the limit it answers. -/
theorem splitReadMicroSteps : Obligations.SplitReadMicroSteps := by
  unfold Obligations.SplitReadMicroSteps
  intro s p sched c record drains inv hs hx
  have hp := State.lt_of_pend (s := s) (p := p) (by simp [hx])
  obtain ⟨-, role, count, -, -⟩ := copyOk_iff.1 (copyOk_of_pendOk drains hx (Inv.pendOk inv p))
  obtain ⟨hb, -⟩ := Inv.buf inv (cons_valid role)
  refine ⟨_, step_advance hs, ?_⟩
  rw [State.advanceAt_drain (s := { s with sched := sched }) drains hx]
  by_cases hc : c.count < c.limit s.cfg.n
  · rw [State.advanceDrain_of_lt (s := { s with sched := sched }) hc, if_pos (show c.count < min _ _ from hc)]
    have outside := SameOutside.copyOne { s with sched := sched } c
    obtain ⟨wc, cell, rc⟩ := State.copyOne_frame { s with sched := sched } c
    refine ⟨fun b' hb' => ⟨wc b', rc b' hb', cell b'⟩, outside.queue, outside.status,
      fun p' hp' => ?_, outside.cfg, outside.sched, ⟨?_, wc _, cell _⟩, ?_,
      (State.memRead { s with sched := sched } c.b (s.rc c.b)).1, ?_, fun x hcell => ?_⟩
    · rw [State.port_setPend_other _ _ hp', outside.port]; rfl
    · exact State.copyOne_rc (s := { s with sched := sched }) hb
    · rw [State.resps_setPend, State.resps, outside.port]; rfl
    · exact State.pend_setPend_same _ (by rwa [outside.ports])
    · rw [State.memRead_eq]
      simpa using congrArg (Option.getD · _) hcell
  · rw [State.advanceDrain_of_eq (s := { s with sched := sched }) (by simp only; omega),
      if_neg (show ¬c.count < min _ _ from hc)]
    exact ⟨fun _ _ => ⟨rfl, rfl, fun _ => rfl⟩, fun _ => rfl, rfl, fun _ hp' => State.port_end_other hp' _, rfl, rfl,
      ⟨rfl, rfl, fun _ => rfl⟩, State.pend_end _ _ _, State.resps_end hp _⟩

end Sys2Proof
end

section
/-! SUPPORT. A split operation that nothing interleaves ends where the indivisible one does (20_memory.md R54, R55): what
its micro-steps come to, and that ATOMIC_MULTIBYTE changes nothing of what the loops over the bytes do. -/

namespace Sys2Proof.Machine

variable {s : State} {p : Nat} {b : Byte} {record : Copy → Pend}

/-! ### Records -/

/-- Outside the ports no record is written. -/
theorem State.setPend_of_le (hp : s.ports.length ≤ p) (x : Option Pend) : s.setPend p x = s :=
  State.setPort_invalid s _ hp

/-- A record written twice is the last one. -/
theorem State.setPend_setPend (s : State) (p : Nat) (x y : Option Pend) :
    (s.setPend p x).setPend p y = s.setPend p y := by
  by_cases hp : p < s.ports.length
  · have same : (s.setPend p x).port p = { s.port p with pend := x } := State.port_setPort_same _ hp
    rw [State.setPend, same]
    simp [State.setPend, State.setPort]
  · rw [State.setPend_of_le (Nat.le_of_not_lt hp) x]

/-- A port without a record has none to end. -/
theorem State.setPend_none_of_free (free : s.pend p = none) : s.setPend p none = s := by
  by_cases hp : p < s.ports.length
  · have same : { s.port p with pend := none } = s.port p := by rw [← free]; rfl
    rw [State.setPend, same, State.setPort, State.port, List.getD_eq_getElem _ _ hp, List.set_getElem_self]
  · exact State.setPend_of_le (Nat.le_of_not_lt hp) none

/-- A record is no matter to a copy. -/
theorem State.copyOne_setPend (s : State) (p : Nat) (x : Option Pend) (c : Copy) :
    (s.setPend p x).copyOne c = ((s.copyOne c).1.setPend p x, (s.copyOne c).2) := by
  simp only [State.copyOne, State.memRead_eq]
  rfl

/-! ### A micro-step of a port that has just its record -/

/-- A micro-step of an RB.WM stores the next byte and counts it (R55). -/
theorem State.advanceAt_recorded_wm (hp : p < s.ports.length) {data : List Byte} {k w0 : Nat} (hk : k < data.length) :
    (s.setPend p (some (.wm b data k w0))).advanceAt p =
      (s.memWrite b (w0 + k) data[k]).setPend p (some (.wm b data (k + 1) w0)) := by
  rw [State.advanceAt_wm (State.pend_setPend_same _ hp), State.advanceWrite_of_lt hk]
  exact State.setPend_setPend (s.memWrite b (w0 + k) data[k]) p _ _

/-- The last micro-step of an RB.WM answers as the indivisible one does (R55, R102). -/
theorem State.advanceAt_recorded_wm_end (hp : p < s.ports.length) (free : s.pend p = none) (data : List Byte)
    (w0 : Nat) : (s.setPend p (some (.wm b data data.length w0))).advanceAt p =
      (s.setWc b (w0 + data.length)).respond p (countResponse data.length []) := by
  rw [State.advanceAt_wm (State.pend_setPend_same _ hp), State.advanceWrite_of_le le_rfl]
  have ended := State.setPend_setPend (s.setWc b (w0 + data.length)) p (some (.wm b data data.length w0)) none
  rw [State.setPend_none_of_free (s := s.setWc b _) (by simpa using free)] at ended
  exact congrArg (State.respond · p (countResponse data.length [])) ended

/-- A micro-step of a drain makes one copy (R55, R103). -/
theorem State.advanceAt_recorded_drain (drains : IsDrainRecord record) (hp : p < s.ports.length) {c : Copy}
    (hc : c.count < c.limit s.cfg.n) : (s.setPend p (some (record c))).advanceAt p =
      (s.copyOne c).1.setPend p (some (record (s.copyOne c).2)) := by
  rw [State.advanceAt_drain drains (State.pend_setPend_same _ hp),
    State.advanceDrain_of_lt (s := s.setPend p (some (record c))) hc, State.copyOne_setPend,
    State.setPend_setPend]

/-- The last micro-step of a drain answers what was copied (R55, R103). -/
theorem State.advanceAt_recorded_drain_end (drains : IsDrainRecord record) (hp : p < s.ports.length)
    (free : s.pend p = none) {c : Copy} (done : c.count = c.limit s.cfg.n) :
    (s.setPend p (some (record c))).advanceAt p = s.respond p (countResponse c.count c.out) := by
  rw [State.advanceAt_drain drains (State.pend_setPend_same _ hp),
    State.advanceDrain_of_eq (s := s.setPend p (some (record c))) done, State.setPend_setPend,
    State.setPend_none_of_free free]

/-! ### All micro-steps -/

/-- The micro-steps of an RB.WM with `rest` left store it and then do what the indivisible one does after its stores. -/
theorem State.advances_wm (hp : p < s.ports.length) (free : s.pend p = none) (done rest : List Byte) (w0 : Nat) :
    State.advances p (rest.length + 1) (s.setPend p (some (.wm b (done ++ rest) done.length w0))) =
      ((s.storeFrom b (w0 + done.length) rest).setWc b (w0 + (done ++ rest).length)).respond p
        (countResponse (done ++ rest).length []) := by
  induction rest generalizing s done with
  | nil =>
    rw [List.append_nil]
    exact State.advanceAt_recorded_wm_end hp free done w0
  | cons v vs ih =>
    have stored := ih (s := s.memWrite b (w0 + done.length) v) hp (by simpa using free) (done ++ [v])
    rw [List.length_cons, State.advances, State.advanceAt_recorded_wm hp (by simp)]
    simpa [State.storeFrom, Nat.add_assoc] using stored

/-- At its limit a drain's loop is over, however much fuel is left (R103). -/
theorem State.copyRun_of_eq {c : Copy} (done : c.count = c.limit s.cfg.n) (fuel : Nat) :
    s.copyRun c fuel = (s, c) := by
  cases fuel with
  | zero => rfl
  | succ fuel => rw [State.copyRun, if_neg (Copy.not_more_of_eq done)]

/-- The micro-steps of a drain with `left` bytes to go copy them and answer as the indivisible drain does
(R55, R103). -/
theorem State.advances_drain (drains : IsDrainRecord record) {left fuel : Nat} {c : Copy} (hp : p < s.ports.length)
    (free : s.pend p = none) (toGo : c.count + left = c.limit s.cfg.n) (enough : left ≤ fuel) :
    State.advances p (left + 1) (s.setPend p (some (record c))) =
      (s.copyRun c fuel).1.respond p (countResponse (s.copyRun c fuel).2.count (s.copyRun c fuel).2.out) := by
  induction left generalizing s c fuel with
  | zero =>
    rw [State.copyRun_of_eq toGo]
    exact State.advanceAt_recorded_drain_end drains hp free toGo
  | succ left ih =>
    obtain ⟨fuel, rfl⟩ : ∃ f, fuel = f + 1 := ⟨fuel - 1, by omega⟩
    have hc : c.count < c.limit s.cfg.n := by omega
    have outside := SameOutside.copyOne s c
    rw [State.advances, State.advanceAt_recorded_drain drains hp hc, State.copyRun, if_pos ((c.more_iff _ hc.le).2 hc)]
    refine ih (by rwa [outside.ports]) (by rwa [State.pend, outside.port]) ?_ (by omega)
    rw [outside.cfg]
    show c.count + 1 + left = c.limit s.cfg.n
    omega

/-- From a task port MQ.RECVL on a live line queue with a descriptor of its own buffer drains that buffer (R145). -/
theorem execMqRecvl_drains {q : Byte} {e : Half} {rest : List Entry} (fault : s.queueFault q .line = none)
    (task : s.isIsr s.cur = false) (head : (s.queue q).fifo = .line b e :: rest) (role : s.isCons s.cur b = true)
    (m : Half) : execMqRecvl q m s =
      .next ((s.dropHead q).startDrain s.cur (.drain q) ((s.dropHead q).newCopy b e m)) := by
  simp [execMqRecvl, State.blocking, fault, task, State.nonempty, State.recvlComplete, head, role]

/-! ### ATOMIC_MULTIBYTE -/

/-- The state with ATOMIC_MULTIBYTE = true (R7, R54). -/
def State.withAtomic (s : State) : State := { s with cfg := { s.cfg with atomicMultibyte := true } }

/-- A state with the configuration of its indivisible form is that form. -/
theorem State.withCfg_of_withAtomic {t u : State} (h : t.withAtomic = u) : { t with cfg := u.cfg } = u := by
  subst h; rfl

theorem State.storeFrom_withAtomic (s : State) (b : Byte) (i : Nat) (data : List Byte) :
    s.withAtomic.storeFrom b i data = (s.storeFrom b i data).withAtomic := by
  induction data generalizing s i with
  | nil => rfl
  | cons v vs ih => exact ih (s.memWrite b i v) (i + 1)

theorem State.copyOne_withAtomic (s : State) (c : Copy) :
    s.withAtomic.copyOne c = ((s.copyOne c).1.withAtomic, (s.copyOne c).2) := by
  simp only [State.copyOne, State.memRead_eq]
  rfl

theorem State.copyRun_withAtomic (s : State) (c : Copy) (fuel : Nat) :
    s.withAtomic.copyRun c fuel = ((s.copyRun c fuel).1.withAtomic, (s.copyRun c fuel).2) := by
  induction fuel generalizing s c with
  | zero => rfl
  | succ fuel ih =>
    rw [State.copyRun, State.copyRun, State.copyOne_withAtomic, ih]
    by_cases more : c.more s.cfg.n
    · rw [if_pos more, if_pos (by exact more)]
    · rw [if_neg more, if_neg (by exact more)]

/-- A message recorded and stored by micro-steps is the message written in one step (R54, R55). -/
theorem State.advances_writeMessage (hp : p < s.ports.length) (free : s.pend p = none) (data : List Byte) :
    (State.advances p (data.length + 1) (s.setPend p (some (.wm b data 0 (s.wc b))))).withAtomic =
      (s.withAtomic.writeMessage b data).respond p (countResponse data.length []) := by
  have stored := State.advances_wm (b := b) hp free [] data (s.wc b)
  rw [List.nil_append, List.length_nil, Nat.add_zero] at stored
  rw [stored, State.writeMessage, State.storeFrom_withAtomic]
  rfl

/-- A drain recorded and copied by micro-steps is the drain run in one step (R54, R55). -/
theorem State.advances_startDrain (drains : IsDrainRecord record) (hp : p < s.ports.length) (free : s.pend p = none)
    (isSplit : s.cfg.atomicMultibyte = false) (e m : Half) :
    (State.advances p (min e.toNat (min m.toNat s.cfg.n) + 1)
      (s.startDrain p record (s.newCopy b e m))).withAtomic =
      s.withAtomic.startDrain p record (s.withAtomic.newCopy b e m) := by
  have recorded : s.startDrain p record (s.newCopy b e m) = s.setPend p (some (record (s.newCopy b e m))) :=
    if_neg (by simp [isSplit])
  have drained := State.advances_drain (fuel := s.cfg.n) (c := s.newCopy b e m) drains hp free (Nat.zero_add _)
    (by simp only [Copy.limit]; omega)
  have atomic : s.withAtomic.startDrain p record (s.newCopy b e m) = _ := if_pos rfl
  rw [State.copyRun_withAtomic] at atomic
  rw [recorded]
  exact (congrArg State.withAtomic drained).trans atomic.symm

end Sys2Proof.Machine

namespace Sys2Proof

open Machine

/-- Settles O41: the record and its micro-steps come to the message written in one step. -/
theorem splitWriteMatchesTheIndivisibleOne : Obligations.SplitWriteMatchesTheIndivisibleOne := by
  unfold Obligations.SplitWriteMatchesTheIndivisibleOne
  intro s b data inv isSplit free _ role short
  have split : execRbWm b data s = .next (s.setPend s.cur (some (.wm b data 0 (s.wc b)))) := by
    rw [execRbWm, State.asProducer_of_isProd role, if_neg (by omega), if_neg (by simp [isSplit])]
  refine ⟨_, _, split, execRbWm_atomic (s := s.withAtomic) role short rfl, ?_⟩
  exact State.withCfg_of_withAtomic (State.advances_writeMessage (Inv.cur inv) free data)

/-- Settles O42: the record and its micro-steps come to the drain run in one step. -/
theorem splitReadMatchesTheIndivisibleOne : Obligations.SplitReadMatchesTheIndivisibleOne := by
  unfold Obligations.SplitReadMatchesTheIndivisibleOne
  intro s b e m inv isSplit free _ role
  refine ⟨_, _, State.asConsumer_of_isCons role _, State.asConsumer_of_isCons (s := s.withAtomic) role _, ?_⟩
  exact State.withCfg_of_withAtomic (State.advances_startDrain (.inl rfl) (Inv.cur inv) free isSplit e m)

/-- Settles O43: both forms dequeue the descriptor, and then the record and its micro-steps come to the drain run in one
step. -/
theorem splitDrainMatchesTheIndivisibleOne : Obligations.SplitDrainMatchesTheIndivisibleOne := by
  unfold Obligations.SplitDrainMatchesTheIndivisibleOne
  intro s q b e m rest inv isSplit free fault task head role
  refine ⟨_, _, execMqRecvl_drains fault task head role m,
    execMqRecvl_drains (s := s.withAtomic) fault task head role m, ?_⟩
  have hp : s.cur < (s.dropHead q).ports.length := Inv.cur inv
  exact State.withCfg_of_withAtomic (State.advances_startDrain (s := s.dropHead q) (.inr ⟨q, rfl⟩) hp free isSplit e m)

end Sys2Proof
end

section
/-! SUPPORT. The fields of a command word, and what decoding and encoding do with them (30_encoding.md R71 to
R76, R79). -/

namespace Sys2Proof

/-! ### The fields of a word -/

/-- Field RSV, bits 31:24, which every row requires to be zero (R71, R74). -/
def fieldRsv (w : CmdWord) : Byte := w.extractLsb' 24 8

theorem toNat_append_eq {n m : Nat} (x : BitVec n) (y : BitVec m) : (x ++ y).toNat = x.toNat * 2 ^ m + y.toNat := by
  rw [BitVec.toNat_append, ← Nat.shiftLeft_add_eq_or_of_lt y.isLt, Nat.shiftLeft_eq]

theorem toNat_field {n : Nat} (w : BitVec n) (start len : Nat) :
    (w.extractLsb' start len).toNat = w.toNat / 2 ^ start % 2 ^ len := by
  rw [BitVec.extractLsb'_toNat, Nat.shiftRight_eq_div_pow]

section
variable (opc ident ident2 : Byte) (a b : Half)

/-- A command word as a number: each field at its place (R71). -/
theorem toNat_cmdWord : (cmdWord opc ident ident2 a b).toNat =
    opc.toNat + 2 ^ 8 * ident.toNat + 2 ^ 16 * ident2.toNat + 2 ^ 32 * a.toNat + 2 ^ 48 * b.toNat := by
  rw [cmdWord]
  repeat rw [toNat_append_eq]
  simp
  omega

@[simp] theorem fieldOpc_cmdWord : fieldOpc (cmdWord opc ident ident2 a b) = opc := by
  refine BitVec.eq_of_toNat_eq ?_
  rw [fieldOpc, toNat_field, toNat_cmdWord]
  omega

@[simp] theorem fieldId_cmdWord : fieldId (cmdWord opc ident ident2 a b) = ident := by
  refine BitVec.eq_of_toNat_eq ?_
  rw [fieldId, toNat_field, toNat_cmdWord]
  omega

@[simp] theorem fieldId2_cmdWord : fieldId2 (cmdWord opc ident ident2 a b) = ident2 := by
  refine BitVec.eq_of_toNat_eq ?_
  rw [fieldId2, toNat_field, toNat_cmdWord]
  omega

@[simp] theorem fieldA_cmdWord : fieldA (cmdWord opc ident ident2 a b) = a := by
  refine BitVec.eq_of_toNat_eq ?_
  rw [fieldA, toNat_field, toNat_cmdWord]
  omega

@[simp] theorem fieldV_cmdWord : fieldV (cmdWord opc ident ident2 a b) = a.setWidth 8 := by
  refine BitVec.eq_of_toNat_eq ?_
  rw [fieldV, toNat_field, toNat_cmdWord, BitVec.toNat_setWidth]
  omega

@[simp] theorem fieldB_cmdWord : fieldB (cmdWord opc ident ident2 a b) = b := by
  refine BitVec.eq_of_toNat_eq ?_
  rw [fieldB, toNat_field, toNat_cmdWord]
  omega

@[simp] theorem payloadLength_cmdWord :
    payloadLength (cmdWord opc ident ident2 a b) = if opc = 0x03 then a.toNat else 0 := by
  rw [payloadLength, fieldOpc_cmdWord, fieldA_cmdWord]

end

section
variable {w : CmdWord}

/-- A word is the one of its fields when RSV is zero (R71). -/
theorem cmdWord_of_fields {opc ident ident2 : Byte} {a b : Half} (hOpc : fieldOpc w = opc) (hRsv : fieldRsv w = 0)
    (hId : fieldId w = ident) (hId2 : fieldId2 w = ident2) (hA : fieldA w = a) (hB : fieldB w = b) :
    cmdWord opc ident ident2 a b = w := by
  subst hOpc hId hId2 hA hB
  have rsv : w.toNat / 2 ^ 24 % 2 ^ 8 = 0 := by rw [← toNat_field]; exact congrArg BitVec.toNat hRsv
  refine BitVec.eq_of_toNat_eq ?_
  simp only [toNat_cmdWord, fieldOpc, fieldId, fieldId2, fieldA, fieldB, toNat_field]
  omega

/-- A word whose A[15:8] is zero has A's byte operand for its whole A (R72). -/
theorem setWidth_fieldV (h : w.extractLsb' 40 8 = 0) : (fieldV w).setWidth 16 = fieldA w := by
  have high : w.toNat / 2 ^ 40 % 2 ^ 8 = 0 := by rw [← toNat_field]; exact congrArg BitVec.toNat h
  refine BitVec.eq_of_toNat_eq ?_
  simp only [fieldV, fieldA, BitVec.toNat_setWidth, toNat_field]
  omega

theorem payloadLength_lt (w : CmdWord) : payloadLength w < 65536 := by
  unfold payloadLength
  split
  · exact (fieldA w).isLt
  · decide

/-! ### Words a row selects -/

/-- Bits that a mask takes whole are those of the pattern. -/
theorem extract_of_masked {mask pattern : CmdWord} (h : w &&& mask = pattern) (start len : Nat)
    (whole : mask.extractLsb' start len = BitVec.allOnes len) :
    w.extractLsb' start len = pattern.extractLsb' start len := by
  rw [← h, BitVec.extractLsb'_and, whole, BitVec.and_allOnes]

/-- Every row fixes OPC and requires RSV to be zero (R74). -/
theorem opcodeTable_fixes_opc_rsv : ∀ r ∈ opcodeTable, r.mask.extractLsb' 0 8 = BitVec.allOnes 8 ∧
    r.mask.extractLsb' 24 8 = BitVec.allOnes 8 ∧ r.pattern.extractLsb' 24 8 = 0 := by decide

variable {r : OpcodeRow} {d : List Byte}

theorem fieldOpc_of_selected (hr : r ∈ opcodeTable) (hw : w &&& r.mask = r.pattern) :
    fieldOpc w = fieldOpc r.pattern :=
  extract_of_masked hw 0 8 (opcodeTable_fixes_opc_rsv r hr).1

theorem fieldRsv_of_selected (hr : r ∈ opcodeTable) (hw : w &&& r.mask = r.pattern) : fieldRsv w = 0 := by
  obtain ⟨-, whole, zero⟩ := opcodeTable_fixes_opc_rsv r hr
  exact (extract_of_masked hw 24 8 whole).trans zero

/-- No two rows are selected by one word: where both masks look, their patterns would agree (R74). -/
theorem row_unique {r' : OpcodeRow} (hr : r ∈ opcodeTable) (hr' : r' ∈ opcodeTable) (hw : w &&& r.mask = r.pattern)
    (hw' : w &&& r'.mask = r'.pattern) : r = r' := by
  have apart : ∀ x ∈ opcodeTable, ∀ y ∈ opcodeTable, x.pattern &&& y.mask = y.pattern &&& x.mask → x = y := by
    decide
  refine apart r hr r' hr' ?_
  rw [← hw, ← hw', BitVec.and_assoc, BitVec.and_assoc, BitVec.and_comm r.mask]

/-! ### The decoder -/

theorem find_row_eq_none : opcodeTable.find? (fun r => r.selects w) = none ↔
    ∀ r ∈ opcodeTable, w &&& r.mask ≠ r.pattern := by
  simp [List.find?_eq_none, OpcodeRow.selects]

theorem mem_of_find_row (h : opcodeTable.find? (fun r => r.selects w) = some r) :
    r ∈ opcodeTable ∧ w &&& r.mask = r.pattern := by
  have selects := List.find?_some h
  exact ⟨List.mem_of_find?_eq_some h, by simpa [OpcodeRow.selects] using selects⟩

/-- What decodes is selected by a row, has the payload length R76 requires, and is what the row builds (R79). -/
theorem decode_eq_op_iff {i : Instr} : decode w d = .op i ↔
    ∃ r ∈ opcodeTable, w &&& r.mask = r.pattern ∧ d.length = payloadLength w ∧ buildInstr r.op w d = i := by
  constructor
  · intro h
    unfold decode at h
    split at h
    · split at h <;> cases h
    next r found =>
      obtain ⟨hr, hw⟩ := mem_of_find_row found
      split at h
      next length => exact ⟨r, hr, hw, length, Decoded.op.inj h⟩
      · cases h
  · rintro ⟨r, hr, hw, length, rfl⟩
    exact decode_of_row hr hw length

/-- What does not decode is illegal. -/
theorem decode_illegal_iff : (∃ why, decode w d = .illegal why) ↔ ¬∃ i, decode w d = .op i := by
  cases decode w d <;> simp

/-- A word whose OPC no row has is reserved (R75). -/
theorem decode_of_opc_unlisted (h : ∀ r ∈ opcodeTable, fieldOpc r.pattern ≠ fieldOpc w) :
    decode w d = .illegal .reservedOpcode := by
  have none : opcodeTable.find? (fun r => r.selects w) = none :=
    find_row_eq_none.2 fun r hr hw => h r hr (fieldOpc_of_selected hr hw).symm
  have unlisted : opcodeTable.any (fun r => fieldOpc r.pattern == fieldOpc w) = false := by simpa using h
  simp [decode, none, unlisted]

/-! ### The encoding of what decodes -/

theorem wellFormed_buildInstr (op : Opcode) (h : d.length < 65536) : (buildInstr op w d).wellFormed = true := by
  cases op with
  | rbWm => exact decide_eq_true h
  | _ => rfl

theorem payload_encode_buildInstr {op : Opcode} (h : op ≠ .rbWm) : (encode (buildInstr op w d)).payload = [] := by
  cases op with
  | rbWm => exact absurd rfl h
  | _ => rfl

/-- What a row takes from a word it selects, the encoder puts back: the other fields are fixed (R71 to R74). -/
theorem word_encode_buildInstr (hr : r ∈ opcodeTable) (hw : w &&& r.mask = r.pattern)
    (hd : d.length = payloadLength w) : (encode (buildInstr r.op w d)).word = w := by
  have opc := fieldOpc_of_selected hr hw
  have rsv := fieldRsv_of_selected hr hw
  have ident := extract_of_masked hw 8 8
  have ident2 := extract_of_masked hw 16 8
  have a := extract_of_masked hw 32 16
  have aHigh := extract_of_masked hw 40 8
  have b := extract_of_masked hw 48 16
  simp only [opcodeTable, List.mem_cons, List.not_mem_nil, or_false] at hr
  rcases hr with rfl | rfl | rfl | rfl | rfl | rfl | rfl | rfl | rfl | rfl | rfl | rfl | rfl | rfl | rfl
  · exact cmdWord_of_fields opc rsv rfl (ident2 rfl) (setWidth_fieldV (aHigh rfl)).symm (b rfl)
  · exact cmdWord_of_fields opc rsv rfl (ident2 rfl) (a rfl) (b rfl)
  · have length : BitVec.ofNat 16 d.length = fieldA w := by
      rw [hd, payloadLength, if_pos (show fieldOpc w = 0x03 from opc), BitVec.ofNat_toNat, BitVec.setWidth_eq]
    exact cmdWord_of_fields opc rsv rfl (ident2 rfl) length.symm (b rfl)
  · exact cmdWord_of_fields opc rsv rfl (ident2 rfl) rfl rfl
  · exact cmdWord_of_fields opc rsv rfl (ident2 rfl) (a rfl) (b rfl)
  · exact cmdWord_of_fields opc rsv rfl rfl (setWidth_fieldV (aHigh rfl)).symm (b rfl)
  · exact cmdWord_of_fields opc rsv (ident rfl) (ident2 rfl) (a rfl) (b rfl)
  · exact cmdWord_of_fields opc rsv rfl rfl rfl (b rfl)
  · exact cmdWord_of_fields opc rsv rfl (ident2 rfl) (a rfl) rfl
  · exact cmdWord_of_fields opc rsv rfl (ident2 rfl) (setWidth_fieldV (aHigh rfl)).symm (b rfl)
  · exact cmdWord_of_fields opc rsv rfl (ident2 rfl) (a rfl) (b rfl)
  · exact cmdWord_of_fields opc rsv rfl (ident2 rfl) (setWidth_fieldV (aHigh rfl)).symm (b rfl)
  · exact cmdWord_of_fields opc rsv rfl (ident2 rfl) (a rfl) (b rfl)
  · exact cmdWord_of_fields opc rsv rfl (ident2 rfl) (a rfl) (b rfl)
  · exact cmdWord_of_fields opc rsv (ident rfl) (ident2 rfl) (a rfl) (b rfl)

/-- A request a row selects is the encoding of what the row builds from it (R73 to R76). -/
theorem encode_buildInstr (hr : r ∈ opcodeTable) (hw : w &&& r.mask = r.pattern) (hd : d.length = payloadLength w) :
    encode (buildInstr r.op w d) = ⟨w, d⟩ := by
  have payload : (encode (buildInstr r.op w d)).payload = d := by
    by_cases message : r.op = .rbWm
    · rw [message]; rfl
    · have onlyRbWm : ∀ x ∈ opcodeTable, fieldOpc x.pattern = 0x03 → x.op = .rbWm := by decide
      have noPayload : payloadLength w = 0 := by
        rw [payloadLength, fieldOpc_of_selected hr hw, if_neg fun opc => message (onlyRbWm r hr opc)]
      rw [payload_encode_buildInstr message, List.length_eq_zero_iff.1 (hd.trans noPayload)]
  calc encode (buildInstr r.op w d)
      = ⟨(encode (buildInstr r.op w d)).word, (encode (buildInstr r.op w d)).payload⟩ := rfl
    _ = ⟨w, d⟩ := by rw [word_encode_buildInstr hr hw hd, payload]

/-! ### The decoding of what is encoded -/

/-- Every operation's word is selected by its row (R73, R74). -/
theorem encode_selects_row (i : Instr) : Laws.EncodeRow.Statement i := by
  cases i with
  | rbWb b v => exact Laws.EncodeRow.rbWb b v
  | rbRb b => exact Laws.EncodeRow.rbRb b
  | rbWm b data => exact Laws.EncodeRow.rbWm b data
  | rbRm b e m => exact Laws.EncodeRow.rbRm b e m
  | rbEmpty b => exact Laws.EncodeRow.rbEmpty b
  | rbPushl b q v => exact Laws.EncodeRow.rbPushl b q v
  | mqInit => exact Laws.EncodeRow.mqInit
  | mqSendlIsr q b e => exact Laws.EncodeRow.mqSendlIsr q b e
  | mqRecvl q m => exact Laws.EncodeRow.mqRecvl q m
  | mqSendb q v => exact Laws.EncodeRow.mqSendb q v
  | mqRecvb q => exact Laws.EncodeRow.mqRecvb q
  | mqSendbIsr q v => exact Laws.EncodeRow.mqSendbIsr q v
  | mqRecvbIsr q => exact Laws.EncodeRow.mqRecvbIsr q
  | mqPendIsr q => exact Laws.EncodeRow.mqPendIsr q
  | sysStatus => exact Laws.EncodeRow.sysStatus

/-- An encoded operation has the payload its word announces (R76). -/
theorem length_payload_encode {i : Instr} (h : i.wellFormed = true) :
    (encode i).payload.length = payloadLength (encode i).word := by
  cases i with
  | rbWm b data =>
    have short : data.length < 65536 := of_decide_eq_true h
    simp [encode, Nat.mod_eq_of_lt short]
  | _ => simp [encode]

/-- The operands put in a word and a payload are the ones taken from them (R71 to R73). -/
theorem buildInstr_encode (i : Instr) : buildInstr i.opcode (encode i).word (encode i).payload = i := by
  cases i <;> simp [Instr.opcode, encode, buildInstr]

/-- Decoding undoes encoding (R79). -/
theorem decode_encode {i : Instr} (h : i.wellFormed = true) : decode (encode i).word (encode i).payload = .op i := by
  obtain ⟨r, hr, op, selects⟩ := encode_selects_row i
  have hw : (encode i).word &&& r.mask = r.pattern := by simpa [OpcodeRow.selects] using selects
  rw [decode_of_row hr hw (length_payload_encode h), op, buildInstr_encode]

end

/-- Settles O1: the row of the operation selects its word, and takes back the operands put there. -/
theorem encodedInstructionDecodesToItself : Obligations.EncodedInstructionDecodesToItself := by
  unfold Obligations.EncodedInstructionDecodesToItself
  exact fun _ => decode_encode

/-- Settles O2: the row that selects the word fixes every field its operation does not carry. -/
theorem decodedRequestIsTheEncoding : Obligations.DecodedRequestIsTheEncoding := by
  unfold Obligations.DecodedRequestIsTheEncoding
  intro w d i h
  obtain ⟨r, hr, hw, length, rfl⟩ := decode_eq_op_iff.1 h
  exact ⟨wellFormed_buildInstr r.op (length ▸ payloadLength_lt w), encode_buildInstr hr hw length⟩

/-- Settles O3: where both masks look, two rows that select one word have one pattern. -/
theorem opcodeRowsAreDisjoint : Obligations.OpcodeRowsAreDisjoint := by
  unfold Obligations.OpcodeRowsAreDisjoint
  exact fun _ _ hr _ hr' hw hw' => row_unique hr hr' hw hw'

/-- Settles O4: a request decodes exactly when a row selects its word and its payload has the length R76 requires. -/
theorem illegalRequestsAreExactlyTheReservedOnes : Obligations.IllegalRequestsAreExactlyTheReservedOnes := by
  unfold Obligations.IllegalRequestsAreExactlyTheReservedOnes
  intro w d
  have decodes : (∃ i, decode w d = .op i) ↔
      (∃ r ∈ opcodeTable, w &&& r.mask = r.pattern) ∧ d.length = payloadLength w := by
    simp only [decode_eq_op_iff]
    exact ⟨fun ⟨_, r, hr, hw, length, _⟩ => ⟨⟨r, hr, hw⟩, length⟩,
      fun ⟨⟨r, hr, hw⟩, length⟩ => ⟨_, r, hr, hw, length, rfl⟩⟩
  rw [decode_illegal_iff, decodes, not_and_or]
  exact or_congr_left (by simp only [not_exists, not_and, ne_eq])

/-- Settles O5: every listed OPC lies outside the reserved ranges, and a row that selects a word finds its RSV zero. -/
theorem reservedOpcodesAndFieldAreIllegal : Obligations.ReservedOpcodesAndFieldAreIllegal := by
  unfold Obligations.ReservedOpcodesAndFieldAreIllegal
  intro w d
  constructor
  · intro reserved
    have listed : ∀ r ∈ opcodeTable, ¬(fieldOpc r.pattern = 0x00#8 ∨
        (0x07#8 ≤ fieldOpc r.pattern ∧ fieldOpc r.pattern ≤ 0x0F#8) ∨
        (0x18#8 ≤ fieldOpc r.pattern ∧ fieldOpc r.pattern ≤ 0x1F#8) ∨ 0x21#8 ≤ fieldOpc r.pattern) := by
      decide
    refine decode_of_opc_unlisted fun r hr opc => listed r hr ?_
    rw [opc]
    exact reserved
  · intro rsv
    refine decode_illegal_iff.2 fun ⟨i, h⟩ => ?_
    obtain ⟨r, hr, hw, -⟩ := decode_eq_op_iff.1 h
    exact rsv (fieldRsv_of_selected hr hw)

/-- Settles O7, by evaluating the assembler, the encoder and the decoder on the six lines. -/
theorem workedEncodingsDecode : Obligations.WorkedEncodingsDecode := by
  unfold Obligations.WorkedEncodingsDecode
  decide

end Sys2Proof
end

section
/-! SUPPORT. Words as bytes, least significant first, on a byte channel (30_encoding.md R78, R80), and the response word
(R77). -/

namespace Sys2Proof

@[simp] theorem length_leBytes (k x : Nat) : (leBytes k x).length = k := by
  induction k generalizing x with
  | zero => rfl
  | succ k ih => rw [leBytes, List.length_cons, ih]

theorem getElem?_leBytes {k i : Nat} (hi : i < k) (x : Nat) :
    (leBytes k x)[i]? = some (BitVec.ofNat 8 (x / 256 ^ i)) := by
  induction k generalizing x i with
  | zero => omega
  | succ k ih =>
    cases i with
    | zero => simp [leBytes]
    | succ i => rw [leBytes, List.getElem?_cons_succ, ih (by omega), Nat.div_div_eq_div_mul, ← Nat.pow_succ']

/-- Byte `i` of a word sent as bytes is its bits 8i+7 to 8i (R78). -/
theorem getElem?_leBytes_toNat {n : Nat} (w : BitVec n) {k i : Nat} (hi : i < k) :
    (leBytes k w.toNat)[i]? = some (w.extractLsb' (8 * i) 8) := by
  rw [getElem?_leBytes hi, BitVec.extractLsb', Nat.shiftRight_eq_div_pow, Nat.pow_mul]

/-- The bytes of a number stand for its lower bytes (R78). -/
theorem fromLe_leBytes (k x : Nat) : fromLe (leBytes k x) = x % 256 ^ k := by
  induction k generalizing x with
  | zero => simp [leBytes, fromLe, Nat.mod_one]
  | succ k ih =>
    calc fromLe (leBytes (k + 1) x) = x % 256 + 256 * fromLe (leBytes k (x / 256)) := by
          rw [leBytes, fromLe, BitVec.toNat_ofNat]
      _ = x % 256 ^ (k + 1) := by rw [ih, ← Nat.mod_mul, ← Nat.pow_succ']

/-- A word sent as `k` bytes and then `rest`: the bytes in order, and what follows them (R78). -/
theorem leBytes_append {n : Nat} (w : BitVec n) (k : Nat) (rest : List Byte) :
    (∀ i < k, (leBytes k w.toNat ++ rest)[i]? = some (w.extractLsb' (8 * i) 8)) ∧
      (leBytes k w.toNat ++ rest).drop k = rest := by
  refine ⟨fun i hi => ?_, List.drop_left' (length_leBytes k _)⟩
  rw [List.getElem?_append_left (by simpa using hi), getElem?_leBytes_toNat w hi]

/-- A receiver takes a request as it was sent, and leaves what follows it (R80). -/
theorem Request.ofBytes_toBytes {r : Request} (h : r.payload.length = payloadLength r.word) (rest : List Byte) :
    Request.ofBytes (r.toBytes ++ rest) = some (r, rest) := by
  have bytes : r.toBytes ++ rest = leBytes 8 r.word.toNat ++ (r.payload ++ rest) := List.append_assoc ..
  have word : BitVec.ofNat 64 (fromLe (leBytes 8 r.word.toNat)) = r.word := by
    rw [fromLe_leBytes, Nat.mod_eq_of_lt (b := 256 ^ 8) r.word.isLt, BitVec.ofNat_toNat, BitVec.setWidth_eq]
  rw [bytes, Request.ofBytes, if_neg (by simp)]
  simp only [List.take_left' (length_leBytes 8 r.word.toNat), List.drop_left' (length_leBytes 8 r.word.toNat), word]
  rw [if_neg (by simp [h]), List.take_left' h, List.drop_left' h]

/-- The response word as a number: OK at bit 0, VALUE from bit 16 on (R77). -/
theorem Machine.Response.toNat_word (r : Machine.Response) :
    r.word.toNat = r.ok.toNat + 2 ^ 16 * r.value.toNat := by
  rw [Machine.Response.word]
  repeat rw [toNat_append_eq]
  rw [BitVec.toNat_ofBool]
  simp
  omega

/-- Settles O6: both words are sent as their bytes, and the receiver reads the word and its payload length back. -/
theorem byteChannelRoundTrip : Obligations.ByteChannelRoundTrip := by
  unfold Obligations.ByteChannelRoundTrip
  exact ⟨fun r => leBytes_append r.word 8 r.payload, fun r => leBytes_append r.word 4 r.data,
    fun _ rest length => Request.ofBytes_toBytes length rest⟩

/-- Settles O11, from the response word as a number. -/
theorem responseWordFields : Obligations.ResponseWordFields := by
  unfold Obligations.ResponseWordFields
  intro r
  have okBit : r.ok.toNat < 2 := Bool.toNat_lt r.ok
  refine ⟨?_, ?_, ?_⟩
  · have low : r.word.toNat % 2 = r.ok.toNat := by rw [r.toNat_word]; omega
    rw [BitVec.getLsbD, Nat.testBit_zero, low]
    simp [Machine.Response.ok]
  · refine BitVec.eq_of_toNat_eq ?_
    rw [toNat_field, r.toNat_word]
    simp
    omega
  · refine BitVec.eq_of_toNat_eq ?_
    rw [toNat_field, r.toNat_word]
    omega

end Sys2Proof
end

section
/-! SUPPORT. The issue of a request: the step of one that decodes and of one that does not (30_encoding.md R75, R79,
60_exceptions.md R208), and what the pseudo-instructions do (30_encoding.md R82). -/

namespace Sys2Proof.Machine

variable {s : State} {p : Nat} {sched : List Choice} {r : Request} {todo : List Request}

/-- A port's turn to issue, with nothing outstanding and a request to come, issues that request (R208). -/
theorem State.fetch_issue (turn : s.sched = .issue p :: sched) (free : s.pend p = none)
    (head : (s.port p).todo = r :: todo) : s.fetch = { s with sched := sched }.issue p r todo := by
  have free' : { s with sched := sched }.pend p = none := free
  have head' : ({ s with sched := sched }.port p).todo = r :: todo := head
  simp only [State.fetch, turn, State.issueAt, free', head']

/-- The step of a request that decodes performs its operation (R79). -/
theorem step_issue_op {i : Instr} (turn : s.sched = .issue p :: sched) (free : s.pend p = none)
    (head : (s.port p).todo = r :: todo) (decodes : decode r.word r.payload = .op i) :
    step s = exec i (({ s with sched := sched } : State).issuing p todo) := by
  rw [step_eq_run, State.fetch_issue turn free head, State.issue, decodes]
  rfl

/-- The step of a request that does not decode raises ILLEGAL_OP (R75, R79). -/
theorem step_issue_illegal {why : Illegal} (turn : s.sched = .issue p :: sched) (free : s.pend p = none)
    (head : (s.port p).todo = r :: todo) (illegal : decode r.word r.payload = .illegal why) :
    step s = .next ((({ s with sched := sched } : State).issuing p todo).raise p .illegalOp) := by
  rw [step_eq_run, State.fetch_issue turn free head, State.issue, illegal]
  rfl

/-- Issuing a request leaves every other port as it was. -/
theorem State.port_issuing_other {p' : Nat} (hp : p' ≠ p) (rest : List Request) :
    (s.issuing p rest).port p' = s.port p' :=
  State.port_setPort_other s _ hp

/-- The end marker 0xFFFF does not limit a drain (R82, R103). -/
theorem min_endMarker_all (m : Half) (n : Nat) : min (0xFFFF : Half).toNat (min m.toNat n) = min m.toNat n := by
  have all : (0xFFFF : Half).toNat = 65535 := rfl
  rw [all]
  omega

/-- The indivisible rb.rdn copies min(M, N) bytes from the read cursor on (R82, R103). -/
theorem exec_pseudoRdn {b : Byte} {m : Half} (inv : s.Inv) (role : s.isCons s.cur b = true)
    (atomic : s.cfg.atomicMultibyte = true) (positive : 0 < m.toNat) :
    ∃ t out, exec (pseudoRdn b m) s = .next t ∧ BytesRead s b (min m.toNat s.cfg.n) out ∧
      ReadOn s t b (min m.toNat s.cfg.n) ∧
      Answered s t s.cur ⟨.ok, BitVec.ofNat 16 (min m.toNat s.cfg.n), out⟩ := by
  obtain ⟨hb, -, hr, -⟩ := Inv.buf inv (cons_valid role)
  have drain := drain_atomic (e := 0xFFFF) (m := m) .rm hb hr (Inv.cur inv) atomic
  have capacity := Config.n_pos s.cfg
  rw [min_endMarker_all, if_neg (by omega)] at drain
  obtain ⟨out, bytes, read, -, -, -, -, answered⟩ := drain
  exact ⟨_, out, State.asConsumer_of_isCons role _, bytes, read, answered⟩

end Sys2Proof.Machine

namespace Sys2Proof

open Machine

/-- Settles O12: the turn to issue is fetched, decoded and performed. -/
theorem stepPerformsTheDecodedRequest : Obligations.StepPerformsTheDecodedRequest := by
  unfold Obligations.StepPerformsTheDecodedRequest
  exact fun _ _ _ _ _ _ turn free head decodes => step_issue_op turn free head decodes

/-- Settles O13: the step is the fault alone, in the state that has taken the request off its port's sequence. -/
theorem undecodableRequestOnlySetsIllegal : Obligations.UndecodableRequestOnlySetsIllegal := by
  unfold Obligations.UndecodableRequestOnlySetsIllegal
  intro s p sched r todo why inv turn free head illegal
  have hp : p < s.ports.length := State.lt_of_todo head
  have taken := State.port_issuing_same (s := { s with sched := sched }) hp todo
  obtain ⟨⟨resps, pend, rest, others, -, answered⟩, bufs, queues, status, ⟨cfg, -, sched'⟩, draws⟩ :=
    State.onlyFaulted_raise (s := ({ s with sched := sched } : State).issuing p todo) .illegalOp
      (by simpa [State.issuing] using hp)
  refine ⟨_, step_issue_illegal turn free head illegal, status, bufs, queues, ?_, ?_, ?_, answered, fun p' hp' => ?_,
    cfg, sched', draws⟩
  · rw [resps, State.resps, taken]; rfl
  · rw [pend, State.pend_issuing]; exact free
  · rw [rest, taken]
  · rw [others p' hp', State.port_issuing_other hp']; rfl

/-- Settles O35: the first three clauses are the definitions; rb.rdn is a drain that its end marker does not limit. -/
theorem pseudoInstructionsDoWhatTheyAreFor : Obligations.PseudoInstructionsDoWhatTheyAreFor := by
  unfold Obligations.PseudoInstructionsDoWhatTheyAreFor
  intro s b str m inv
  exact ⟨rfl, rfl, rfl, fun _ role atomic positive => exec_pseudoRdn inv role atomic positive,
    _, _, rfl, State.onlyAnswered_respond _ (Inv.cur inv)⟩

end Sys2Proof
end

section
/-! SUPPORT. The reading of a line of assembler text (30_encoding.md R81): its characters to tokens, its tokens to
operands. -/

namespace Sys2Proof.Machine

/-! ### One character -/

theorem lexLine_cons {st st' : Lex} {c : Char} {ts : List Tok} (h : lexChar st c = some (ts, st')) (rest : List Char) :
    lexLine st (c :: rest) = (lexLine st' rest).map (ts ++ ·) := by
  rw [lexLine, h]

theorem lexLine_skip {st st' : Lex} {c : Char} (h : lexChar st c = some ([], st')) (rest : List Char) :
    lexLine st (c :: rest) = lexLine st' rest := by
  rw [lexLine_cons h]
  exact Option.map_id' ..

theorem lexLine_token {st st' : Lex} {c : Char} {t : Tok} (h : lexChar st c = some ([t], st')) (rest : List Char) :
    lexLine st (c :: rest) = (lexLine st' rest).map (t :: ·) :=
  lexLine_cons h rest

theorem lexLine_comma (rest : List Char) :
    lexLine .idle (',' :: ' ' :: rest) = (lexLine .idle rest).map (Tok.comma :: ·) := by
  rw [lexLine_token (t := .comma) (st' := .idle) rfl, lexLine_skip (st' := .idle) rfl]

/-! ### Mnemonics -/

/-- A character of a mnemonic starts one (R81). -/
theorem lexStart_of_isNameChar {c : Char} (h : isNameChar c = true) : lexStart c = some ([], .name [c]) := by
  have apart {x : Char} (hx : isNameChar x = false) : c ≠ x := by
    rintro rfl
    rw [h] at hx
    cases hx
  have noDigit : decDigit c = none := by
    simp only [decDigit, isNameChar, Char.le_def, UInt32.le_iff_toNat_le, Bool.or_eq_true,
      Bool.and_eq_true, decide_eq_true_eq, beq_iff_eq] at h ⊢
    rw [if_neg]
    rintro ⟨low, high⟩
    rcases h with ⟨letter, -⟩ | rfl
    · exact absurd (letter.trans high) (by decide)
    · exact absurd low (by decide)
  have space : ¬(c = ' ' ∨ c = '\t') := not_or.2 ⟨apart (by decide), apart (by decide)⟩
  rw [lexStart, if_neg space, noDigit]
  repeat rw [if_neg (apart (by decide))]
  exact if_pos h

theorem lexLine_name {m : List Char} (h : ∀ c ∈ m, isNameChar c = true) (cs rest : List Char) :
    lexLine (.name cs) (m ++ rest) = lexLine (.name (cs ++ m)) rest := by
  induction m generalizing cs with
  | nil => simp
  | cons c m ih =>
    have read : lexChar (.name cs) c = some ([], .name (cs ++ [c])) := if_pos (h c (by simp))
    rw [List.cons_append, lexLine_skip read, ih fun x hx => h x (by simp [hx])]
    simp

/-- A mnemonic and a blank are read as its name (R81). -/
theorem lexLine_mnemonic {m : List Char} (nonempty : m ≠ []) (letters : m.all isNameChar = true) (rest : List Char) :
    lexLine .idle (m ++ ' ' :: rest) = (lexLine .idle rest).map (Tok.name m :: ·) := by
  have letter := List.all_eq_true.1 letters
  cases m with
  | nil => exact absurd rfl nonempty
  | cons c m =>
    have start : lexChar .idle c = some ([], .name [c]) := lexStart_of_isNameChar (letter c (by simp))
    rw [List.cons_append, lexLine_skip start, lexLine_name fun x hx => letter x (by simp [hx])]
    exact lexLine_token rfl rest

/-! ### Numbers -/

/-- What may follow a number in a list of operands: a comma, a closing bracket, or the end of the line. -/
def Delimited (rest : List Char) : Prop := ∀ c ∈ rest.head?, c = ',' ∨ c = ']'

theorem delimited_comma (rest : List Char) : Delimited (',' :: rest) := fun _ hc => .inl (Option.mem_some.1 hc).symm

/-- A text that is read as the number `n`. -/
def ReadsAs (text : List Char) (n : Nat) : Prop :=
  ∀ rest, Delimited rest → lexLine .idle (text ++ rest) = (lexLine .idle rest).map (Tok.num n :: ·)

/-- Where a number read so far may end, the next character ends it. -/
theorem lexLine_delimited {st : Lex} {n : Nat} {rest : List Char} (h : Delimited rest)
    (ends : lexEnd st = some [.num n]) (comma : lexChar st ',' = some ([.num n, .comma], .idle))
    (closing : lexChar st ']' = some ([.num n, .closing], .idle)) :
    lexLine st rest = (lexLine .idle rest).map (Tok.num n :: ·) := by
  cases rest with
  | nil => exact ends
  | cons c rest =>
    obtain rfl | rfl := h c rfl
    · rw [lexLine_token (st := .idle) (t := .comma) rfl, lexLine_cons comma, Option.map_map]
      rfl
    · rw [lexLine_token (st := .idle) (t := .closing) rfl, lexLine_cons closing, Option.map_map]
      rfl

/-- Where the reading of a decimal number stands after the digits of `n`. -/
def decLex (n : Nat) : Lex := if n = 0 then .zero else .dec n

theorem lexLine_decLex {n : Nat} {rest : List Char} (h : Delimited rest) :
    lexLine (decLex n) rest = (lexLine .idle rest).map (Tok.num n :: ·) := by
  unfold decLex
  split
  next zero => subst zero; exact lexLine_delimited h rfl rfl rfl
  · exact lexLine_delimited h rfl rfl rfl

theorem lexChar_digitChar_dec : ∀ d < 10, lexChar .idle (Nat.digitChar d) = some ([], decLex d) := by decide

theorem decDigit_digitChar : ∀ d < 10, decDigit (Nat.digitChar d) = some d := by decide

theorem hexDigit_digitChar : ∀ d < 16, hexDigit (Nat.digitChar d) = some d := by decide

theorem lexLine_decText (n : Nat) (rest : List Char) : lexLine .idle (decText n ++ rest) = lexLine (decLex n) rest := by
  induction n using Nat.strongRecOn generalizing rest with
  | ind n ih =>
    unfold decText at ih ⊢
    by_cases small : n < 10
    · rw [Nat.toDigits_of_lt_base small]
      exact lexLine_skip (lexChar_digitChar_dec n small) rest
    · have more : decLex (n / 10) = .dec (n / 10) := if_neg (by omega)
      have whole : decLex n = .dec (10 * (n / 10) + n % 10) := by
        rw [Nat.div_add_mod]
        exact if_neg (by omega)
      rw [Nat.toDigits_of_base_le (by decide) (by omega), List.append_assoc, ih _ (by omega), more, whole]
      refine lexLine_skip ?_ rest
      rw [lexChar, decDigit_digitChar _ (Nat.mod_lt _ (by decide))]

/-- A number in decimal is read as that number (R81). -/
theorem readsAs_decText (n : Nat) : ReadsAs (decText n) n := fun rest h => by
  rw [lexLine_decText, lexLine_decLex h]

theorem lexLine_hexDigit {d : Nat} (hd : d < 16) (n : Nat) (rest : List Char) :
    lexLine (.hex n) (Nat.digitChar d :: rest) = lexLine (.hex (16 * n + d)) rest :=
  lexLine_skip (by rw [lexChar, hexDigit_digitChar d hd]) rest

theorem lexLine_firstHexDigit {d : Nat} (hd : d < 16) (rest : List Char) :
    lexLine .prefixOnly (Nat.digitChar d :: rest) = lexLine (.hex d) rest :=
  lexLine_skip (by rw [lexChar, hexDigit_digitChar d hd]; rfl) rest

theorem lexLine_toDigits_16 (n : Nat) (rest : List Char) :
    lexLine .prefixOnly (Nat.toDigits 16 n ++ rest) = lexLine (.hex n) rest := by
  induction n using Nat.strongRecOn generalizing rest with
  | ind n ih =>
    by_cases small : n < 16
    · rw [Nat.toDigits_of_lt_base small]
      exact lexLine_firstHexDigit small rest
    · rw [Nat.toDigits_of_base_le (by decide) (by omega), List.append_assoc, ih _ (by omega)]
      have digit := lexLine_hexDigit (Nat.mod_lt n (by decide : 16 > 0)) (n / 16) rest
      rwa [Nat.div_add_mod] at digit

/-- Hexadecimal digits after 0x are read as their number. -/
theorem readsAs_of_hexDigits {ds : List Char} {n : Nat}
    (h : ∀ rest, lexLine .prefixOnly (ds ++ rest) = lexLine (.hex n) rest) : ReadsAs ('0' :: 'x' :: ds) n := by
  intro rest delimited
  rw [List.cons_append, List.cons_append, lexLine_skip (st' := .zero) rfl, lexLine_skip (st' := .prefixOnly) rfl, h]
  exact lexLine_delimited delimited rfl rfl rfl

/-- A number in hexadecimal after 0x is read as that number (R81). -/
theorem readsAs_hexText (n : Nat) : ReadsAs (hexText n) n := readsAs_of_hexDigits (lexLine_toDigits_16 n)

theorem hexChar_eq_digitChar : ∀ d < 16, hexChar d = Nat.digitChar d := by decide

/-- The printed form of a number is read as that number (R81). -/
theorem readsAs_numText {n : Nat} (h : n < 65536) : ReadsAs (numText n) n := by
  refine readsAs_of_hexDigits fun rest => ?_
  have digit (k : Nat) : hexChar (k % 16) = Nat.digitChar (k % 16) := hexChar_eq_digitChar _ (Nat.mod_lt _ (by decide))
  have lt (k : Nat) : k % 16 < 16 := Nat.mod_lt _ (by decide)
  have value : 16 * (16 * (16 * (n / 4096 % 16) + n / 256 % 16) + n / 16 % 16) + n % 16 = n := by omega
  simp only [digit, List.cons_append, List.nil_append]
  rw [lexLine_firstHexDigit (lt _), lexLine_hexDigit (lt _), lexLine_hexDigit (lt _), lexLine_hexDigit (lt _), value]

/-! ### Lists of numbers, in brackets or not, and strings -/

/-- The tokens of numbers separated by commas. -/
def numToks (ns : List Nat) : List Tok := (ns.map Tok.num).intersperse .comma

@[simp] theorem numToks_cons_cons (n m : Nat) (ns : List Nat) :
    numToks (n :: m :: ns) = .num n :: .comma :: numToks (m :: ns) := rfl

/-- Operands each written as a number are read as their numbers and the commas between them (R81). -/
theorem lexLine_operandsText {f : Nat → List Char} {ns : List Nat} (h : ∀ n ∈ ns, ReadsAs (f n) n)
    {rest : List Char} (delimited : Delimited rest) :
    lexLine .idle (operandsText f ns ++ rest) = (lexLine .idle rest).map (numToks ns ++ ·) := by
  match ns with
  | [] => simp [operandsText, numToks]
  | [n] => exact h n (by simp) rest delimited
  | n :: m :: ns =>
    have comma : Delimited (',' :: ' ' :: (operandsText f (m :: ns) ++ rest)) := delimited_comma _
    have split : operandsText f (n :: m :: ns) ++ rest = f n ++ ',' :: ' ' :: (operandsText f (m :: ns) ++ rest) := by
      simp [operandsText]
    rw [split, h n (by simp) _ comma, lexLine_comma, lexLine_operandsText (fun x hx => h x (by simp [hx])) delimited,
      Option.map_map, Option.map_map]
    rfl

theorem lexLine_str {cs : List Char} (h : doubleQuote ∉ cs) (codes : List Nat) :
    lexLine (.str codes) (cs ++ [doubleQuote]) = some [.str (codes ++ cs.map Char.toNat)] := by
  induction cs generalizing codes with
  | nil =>
    rw [List.map_nil, List.append_nil]
    exact lexLine_token (st' := .idle) rfl []
  | cons c cs ih =>
    obtain ⟨other, rest⟩ := not_or.1 (mt List.mem_cons.2 h)
    have read : lexChar (.str codes) c = some ([], .str (codes ++ [c.toNat])) := if_neg (Ne.symm other)
    rw [List.cons_append, lexLine_skip read, ih rest]
    simp

/-- A string without a double quote is read as its characters' codes (R81). -/
theorem lexLine_quoted {cs : List Char} (h : doubleQuote ∉ cs) :
    lexLine .idle (doubleQuote :: cs ++ [doubleQuote]) = some [.str (cs.map Char.toNat)] := by
  rw [List.cons_append, lexLine_skip (st' := .str []) rfl, lexLine_str h]
  rfl

/-! ### Operands -/

theorem opsLine_need (acc : List Operand) (n : Nat) (ns : List Nat) (ts : List Tok) :
    opsLine (.need acc) (numToks (n :: ns) ++ ts) = opsLine (.got (acc ++ (n :: ns).map .num)) ts := by
  induction ns generalizing acc n with
  | nil => rfl
  | cons m ns ih =>
    have read := ih (acc ++ [.num n]) m
    rw [List.append_assoc] at read
    exact read

/-- The tokens of numbers are those operands (R81). -/
theorem opsLine_numToks (ns : List Nat) : opsLine .first (numToks ns) = some (ns.map .num) := by
  match ns with
  | [] => rfl
  | [_] => rfl
  | n :: m :: ns =>
    have read := opsLine_need [.num n] m ns []
    rw [List.append_nil] at read
    exact read

theorem opsLine_needItem (acc : List Operand) (items : List Nat) (n : Nat) (ns : List Nat) :
    opsLine (.needItem acc items) (numToks (n :: ns) ++ [.closing]) = some (acc ++ [.bytes (items ++ n :: ns)]) := by
  induction ns generalizing items n with
  | nil => rfl
  | cons m ns ih =>
    have read := ih (items ++ [n]) m
    rw [List.append_assoc] at read
    exact read

/-- Numbers in brackets are a payload (R81). -/
theorem opsLine_bracketed (acc : List Operand) (ns : List Nat) :
    opsLine (.need acc) (.opening :: (numToks ns ++ [.closing])) = some (acc ++ [.bytes ns]) := by
  match ns with
  | [] => rfl
  | [_] => rfl
  | n :: m :: ns => exact opsLine_needItem acc [n] m ns

/-- A line that is a mnemonic and operands is what the table of R81 makes of them. -/
theorem assemble_of_reads {cs m : List Char} {ts : List Tok} {ops : List Operand}
    (lexes : lexLine .idle cs = some (.name m :: ts)) (parses : opsLine .first ts = some ops) :
    assemble cs = (asmOp m ops).elim .error (.request none) := by
  rw [assemble, lexes]
  show asmTokens none (.name m :: ts) = _
  rw [asmTokens, parses, Option.bind_some]
  cases asmOp m ops <;> rfl

end Sys2Proof.Machine
end

section
/-! SUPPORT. What the table of R81 and R82 makes of a mnemonic and its operands (30_encoding.md R81, R82): the operation
when each operand fits its field, nothing otherwise, and never an operation that does not fit its encoding. -/

namespace Sys2Proof.Machine

/-! ### Operands that fit their fields -/

/-- `read` takes the numbers below `bound`, as `value` gives them. -/
def ReadsBelow {α : Type} (read : Nat → Option α) (bound : Nat) (value : Nat → α) : Prop :=
  ∀ n, read n = if n < bound then some (value n) else none

theorem readsBelow_asByte : ReadsBelow asByte 256 (BitVec.ofNat 8) := fun _ => rfl

theorem readsBelow_asHalf : ReadsBelow asHalf 65536 (BitVec.ofNat 16) := fun _ => rfl

theorem asBytes_eq (ns : List Nat) :
    asBytes ns = if ∀ n ∈ ns, n < 256 then some (ns.map (BitVec.ofNat 8)) else none := by
  induction ns with
  | nil => rfl
  | cons n ns ih =>
    rw [asBytes, ih, readsBelow_asByte n]
    by_cases head : n < 256 <;> by_cases tail : ∀ n ∈ ns, n < 256 <;> simp [head, tail]

theorem asMessage_eq (f : Byte → List Byte → Instr) (b : Nat) (ns : List Nat) :
    asMessage f b ns = if b < 256 ∧ ns.length < 65536 ∧ ∀ n ∈ ns, n < 256 then
      some (f (BitVec.ofNat 8 b) (ns.map (BitVec.ofNat 8))) else none := by
  rw [asMessage, asBytes_eq, readsBelow_asByte b]
  by_cases short : ns.length < 65536 <;> by_cases ident : b < 256 <;> by_cases bytes : ∀ n ∈ ns, n < 256 <;>
    simp [short, ident, bytes]

/-! ### Row forms with one, two or three number operands -/

/-- A row form with two operands: `asm2` and `asm1h` for any two readings. -/
def asmPair {α β : Type} (readA : Nat → Option α) (readB : Nat → Option β) (f : α → β → Instr)
    (ops : List Operand) : Option Instr :=
  match ops with
  | [.num x, .num y] => (readA x).bind (fun a => (readB y).map (f a))
  | _ => none

/-- A row form with three operands, as the table's rows of three operands have it. -/
def asmTriple {α β γ : Type} (readA : Nat → Option α) (readB : Nat → Option β) (readC : Nat → Option γ)
    (f : α → β → γ → Instr) (ops : List Operand) : Option Instr :=
  match ops with
  | [.num x, .num y, .num z] => (readA x).bind (fun a => (readB y).bind (fun b => (readC z).map (f a b)))
  | _ => none

theorem asmOp_rbRm (ops : List Operand) :
    asmOp "rb.rm".toList ops = asmTriple asByte asHalf asHalf .rbRm ops := rfl

theorem asmOp_rbPushl (ops : List Operand) :
    asmOp "rb.pushl".toList ops = asmTriple asByte asByte asByte .rbPushl ops := rfl

theorem asmOp_mqSendlIsr (ops : List Operand) :
    asmOp "mq.sendl.isr".toList ops = asmTriple asByte asByte asHalf .mqSendlIsr ops := rfl

section
variable {α β γ : Type} {readA : Nat → Option α} {readB : Nat → Option β} {readC : Nat → Option γ}
  {boundA boundB boundC : Nat} {valueA : Nat → α} {valueB : Nat → β} {valueC : Nat → γ} (ns : List Nat)

theorem noOperands_nums (i : Instr) :
    (if ns.map Operand.num = [] then some i else none) = if fits ns [] = true then some i else none := by
  cases ns <;> rfl

theorem asm1_nums (f : Byte → Instr) :
    asm1 f (ns.map .num) = if fits ns [256] = true then some (f (operandByte ns 0)) else none := by
  match ns with
  | [] => rfl
  | [x] => by_cases hx : x < 256 <;> simp [asm1, asByte, fits, operandByte, hx]
  | _ :: _ :: _ => simp [asm1, fits]

theorem asmPair_nums (hA : ReadsBelow readA boundA valueA) (hB : ReadsBelow readB boundB valueB)
    (f : α → β → Instr) : asmPair readA readB f (ns.map .num) =
      if fits ns [boundA, boundB] = true then some (f (valueA (ns.getD 0 0)) (valueB (ns.getD 1 0))) else none := by
  match ns with
  | [] => rfl
  | [_] => simp [asmPair, fits]
  | [x, y] =>
    by_cases hx : x < boundA <;> by_cases hy : y < boundB <;> simp [asmPair, hA x, hB y, fits, hx, hy]
  | _ :: _ :: _ :: _ => simp [asmPair, fits]

theorem asm2_nums (f : Byte → Byte → Instr) : asm2 f (ns.map .num) =
    if fits ns [256, 256] = true then some (f (operandByte ns 0) (operandByte ns 1)) else none :=
  asmPair_nums ns readsBelow_asByte readsBelow_asByte f

theorem asm1h_nums (f : Byte → Half → Instr) : asm1h f (ns.map .num) =
    if fits ns [256, 65536] = true then some (f (operandByte ns 0) (operandHalf ns 1)) else none :=
  asmPair_nums ns readsBelow_asByte readsBelow_asHalf f

theorem asmTriple_nums (hA : ReadsBelow readA boundA valueA) (hB : ReadsBelow readB boundB valueB)
    (hC : ReadsBelow readC boundC valueC) (f : α → β → γ → Instr) :
    asmTriple readA readB readC f (ns.map .num) = if fits ns [boundA, boundB, boundC] = true then
      some (f (valueA (ns.getD 0 0)) (valueB (ns.getD 1 0)) (valueC (ns.getD 2 0))) else none := by
  match ns with
  | [] => rfl
  | [_] => simp [asmTriple, fits]
  | [_, _] => simp [asmTriple, fits]
  | [x, y, z] =>
    by_cases hx : x < boundA <;> by_cases hy : y < boundB <;> by_cases hz : z < boundC <;>
      simp [asmTriple, hA x, hB y, hC z, fits, hx, hy, hz]
  | _ :: _ :: _ :: _ :: _ => simp [asmTriple, fits]

/-- A row whose operands are numbers makes its operation of operands that fit, and nothing of others (R81, R82). -/
theorem asmOp_nums {x : AsmForm} (hx : x ∈ asmForms) :
    asmOp x.mnemonic.toList (ns.map .num) = if fits ns x.bounds = true then some (x.build ns) else none := by
  have byte := readsBelow_asByte
  have half := readsBelow_asHalf
  simp only [asmForms, List.mem_cons, List.not_mem_nil, or_false] at hx
  rcases hx with rfl | rfl | rfl | rfl | rfl | rfl | rfl | rfl | rfl | rfl | rfl | rfl | rfl | rfl | rfl | rfl
  · exact asm2_nums ns .rbWb
  · exact asm1_nums ns .rbRb
  · exact (asmOp_rbRm _).trans (asmTriple_nums ns byte half half .rbRm)
  · exact asm1_nums ns .rbEmpty
  · exact (asmOp_rbPushl _).trans (asmTriple_nums ns byte byte byte .rbPushl)
  · exact noOperands_nums ns .mqInit
  · exact (asmOp_mqSendlIsr _).trans (asmTriple_nums ns byte byte half .mqSendlIsr)
  · exact asm1h_nums ns .mqRecvl
  · exact asm2_nums ns .mqSendb
  · exact asm1_nums ns .mqRecvb
  · exact asm2_nums ns .mqSendbIsr
  · exact asm1_nums ns .mqRecvbIsr
  · exact asm1_nums ns .mqPendIsr
  · exact noOperands_nums ns .sysStatus
  · exact asm1h_nums ns pseudoRdn
  · exact noOperands_nums ns pseudoNop

end

/-! ### The operations read fit their encoding -/

section
variable {α β γ : Type} {readA : Nat → Option α} {readB : Nat → Option β} {readC : Nat → Option γ}
  {ops : List Operand} {i : Instr}

theorem wellFormed_of_asm1 {f : Byte → Instr} (hf : ∀ a, (f a).wellFormed = true) (h : asm1 f ops = some i) :
    i.wellFormed = true := by
  unfold asm1 at h
  split at h
  · obtain ⟨a, -, rfl⟩ := Option.map_eq_some_iff.1 h
    exact hf a
  · cases h

theorem wellFormed_of_asmPair {f : α → β → Instr} (hf : ∀ a b, (f a b).wellFormed = true)
    (h : asmPair readA readB f ops = some i) : i.wellFormed = true := by
  unfold asmPair at h
  split at h
  · obtain ⟨a, -, h⟩ := Option.bind_eq_some_iff.1 h
    obtain ⟨b, -, rfl⟩ := Option.map_eq_some_iff.1 h
    exact hf a b
  · cases h

theorem wellFormed_of_asmTriple {f : α → β → γ → Instr} (hf : ∀ a b c, (f a b c).wellFormed = true)
    (h : asmTriple readA readB readC f ops = some i) : i.wellFormed = true := by
  unfold asmTriple at h
  split at h
  · obtain ⟨a, -, h⟩ := Option.bind_eq_some_iff.1 h
    obtain ⟨b, -, h⟩ := Option.bind_eq_some_iff.1 h
    obtain ⟨c, -, rfl⟩ := Option.map_eq_some_iff.1 h
    exact hf a b c
  · cases h

theorem wellFormed_of_asMessage {b : Nat} {ns : List Nat} (h : asMessage .rbWm b ns = some i) :
    i.wellFormed = true := by
  rw [asMessage_eq] at h
  split at h
  next fits =>
    obtain ⟨-, short, -⟩ := fits
    cases h
    simpa [Instr.wellFormed] using short
  · cases h

theorem wellFormed_of_noOperands {i' : Instr} (hi : i'.wellFormed = true)
    (h : (if ops = [] then some i' else none) = some i) : i.wellFormed = true := by
  split at h
  · cases h
    exact hi
  · cases h

/-- A choice between two tables yields what one of them yields. -/
theorem wellFormed_of_ite {c : Prop} [Decidable c] {o o' : Option Instr} (ho : o = some i → i.wellFormed = true)
    (ho' : o' = some i → i.wellFormed = true) (h : (if c then o else o') = some i) : i.wellFormed = true := by
  split at h
  · exact ho h
  · exact ho' h

/-- Whatever the table of R81 and R82 yields fits its encoding, row by row (R71, R76). -/
theorem wellFormed_of_asmOp {m : List Char} : asmOp m ops = some i → i.wellFormed = true := by
  unfold asmOp
  refine wellFormed_of_ite ?_ ?_
  · exact wellFormed_of_asmPair fun _ _ => rfl
  refine wellFormed_of_ite ?_ ?_
  · exact wellFormed_of_asm1 fun _ => rfl
  refine wellFormed_of_ite ?_ ?_
  · intro h
    split at h
    · split at h
      · exact wellFormed_of_asMessage h
      · cases h
    · cases h
  refine wellFormed_of_ite ?_ ?_
  · exact wellFormed_of_asmTriple (readA := asByte) (readB := asHalf) (readC := asHalf) (f := .rbRm) fun _ _ _ => rfl
  refine wellFormed_of_ite ?_ ?_
  · exact wellFormed_of_asm1 fun _ => rfl
  refine wellFormed_of_ite ?_ ?_
  · exact wellFormed_of_asmTriple (readA := asByte) (readB := asByte) (readC := asByte) (f := .rbPushl)
      fun _ _ _ => rfl
  refine wellFormed_of_ite ?_ ?_
  · exact wellFormed_of_noOperands rfl
  refine wellFormed_of_ite ?_ ?_
  · exact wellFormed_of_asmTriple (readA := asByte) (readB := asByte) (readC := asHalf) (f := .mqSendlIsr)
      fun _ _ _ => rfl
  refine wellFormed_of_ite ?_ ?_
  · exact wellFormed_of_asmPair fun _ _ => rfl
  refine wellFormed_of_ite ?_ ?_
  · exact wellFormed_of_asmPair fun _ _ => rfl
  refine wellFormed_of_ite ?_ ?_
  · exact wellFormed_of_asm1 fun _ => rfl
  refine wellFormed_of_ite ?_ ?_
  · exact wellFormed_of_asmPair fun _ _ => rfl
  refine wellFormed_of_ite ?_ ?_
  · exact wellFormed_of_asm1 fun _ => rfl
  refine wellFormed_of_ite ?_ ?_
  · exact wellFormed_of_asm1 fun _ => rfl
  refine wellFormed_of_ite ?_ ?_
  · exact wellFormed_of_noOperands rfl
  refine wellFormed_of_ite ?_ ?_
  · intro h
    split at h
    · exact wellFormed_of_asMessage h
    · cases h
  refine wellFormed_of_ite ?_ ?_
  · exact wellFormed_of_asmPair fun _ _ => rfl
  refine wellFormed_of_ite ?_ ?_
  · exact wellFormed_of_noOperands rfl
  · exact fun h => nomatch h

end
end Sys2Proof.Machine
end

section
/-! SUPPORT. Lines of assembler text, read whole: in the model's printed form, with operands that fit or do not, and any
line the assembler accepts (30_encoding.md R81, R82). -/

namespace Sys2Proof.Machine

/-! ### Lines -/

theorem elim_request (c : Prop) [Decidable c] (i : Instr) :
    (if c then some i else none : Option Instr).elim AsmLine.error (.request none) =
      if c then .request none i else .error := by
  split <;> rfl

theorem mnemonic_of_form : ∀ x ∈ asmForms, x.mnemonic.toList ≠ [] ∧ x.mnemonic.toList.all isNameChar = true := by
  decide

/-- A mnemonic with number operands is its row's operation when they fit, and an error otherwise (R81, R82). -/
theorem assemble_form {f : Nat → List Char} {x : AsmForm} (hx : x ∈ asmForms) {ns : List Nat}
    (h : ∀ n ∈ ns, ReadsAs (f n) n) : assemble (x.mnemonic.toList ++ ' ' :: operandsText f ns) =
      if fits ns x.bounds = true then .request none (x.build ns) else .error := by
  obtain ⟨nonempty, letters⟩ := mnemonic_of_form x hx
  have operands := lexLine_operandsText h (rest := []) (fun _ hc => nomatch hc)
  have lexes : lexLine .idle (x.mnemonic.toList ++ ' ' :: operandsText f ns) =
      some (.name x.mnemonic.toList :: numToks ns) := by
    rw [lexLine_mnemonic nonempty letters, ← List.append_nil (operandsText f ns), operands]
    simp [lexLine, lexEnd]
  rw [assemble_of_reads lexes (opsLine_numToks ns), asmOp_nums ns hx, elim_request]

theorem lt_of_fits {ns bounds : List Nat} {k : Nat} (h : fits ns bounds = true) (small : ∀ b ∈ bounds, b ≤ k) :
    ∀ n ∈ ns, n < k := by
  induction ns generalizing bounds with
  | nil => simp
  | cons n ns ih =>
    cases bounds with
    | nil => cases h
    | cons b bounds =>
      obtain ⟨head, tail⟩ : n < b ∧ fits ns bounds = true := by simpa [fits] using h
      have hb : b ≤ k := small b (by simp)
      intro m hm
      obtain rfl | hm := List.mem_cons.1 hm
      · omega
      · exact ih tail (fun x hx => small x (by simp [hx])) m hm

theorem bounds_of_form : ∀ x ∈ asmForms, ∀ b ∈ x.bounds, b ≤ 65536 := by decide

@[simp] theorem toNat_byte_lt (v : Byte) : v.toNat < 256 := v.isLt

@[simp] theorem toNat_half_lt (v : Half) : v.toNat < 65536 := v.isLt

/-- A row's mnemonic and printed operands that fit are read as the row's operation (R81). -/
theorem assemble_printed {x : AsmForm} (hx : x ∈ asmForms) {start : String}
    (mnemonic : start.toList = x.mnemonic.toList ++ [' ']) {ns : List Nat} (fit : fits ns x.bounds = true) :
    assemble (start.toList ++ numsText ns) = .request none (x.build ns) := by
  have reads := fun n hn => readsAs_numText (lt_of_fits fit (bounds_of_form x hx) n hn)
  have line : start.toList ++ numsText ns = x.mnemonic.toList ++ ' ' :: operandsText numText ns := by
    rw [mnemonic, numsText, List.append_assoc, List.singleton_append]
  rw [line, assemble_form hx reads, if_pos fit]

/-- rb.wm with its payload in brackets (R81): the length is the payload's and every number fits, or the line is an
error. -/
theorem assemble_rbWm {f : Nat → List Char} {b l : Nat} {ds : List Nat} (h : ∀ n ∈ b :: l :: ds, ReadsAs (f n) n) :
    assemble ("rb.wm ".toList ++ operandsText f [b, l] ++ ", [".toList ++ operandsText f ds ++ [']']) =
      if b < 256 ∧ l < 65536 ∧ l = ds.length ∧ ∀ d ∈ ds, d < 256 then
        .request none (.rbWm (BitVec.ofNat 8 b) (ds.map (BitVec.ofNat 8)))
      else .error := by
  have line : "rb.wm ".toList ++ operandsText f [b, l] ++ ", [".toList ++ operandsText f ds ++ [']'] =
      "rb.wm".toList ++ ' ' :: (operandsText f [b, l] ++ ',' :: ' ' :: '[' :: (operandsText f ds ++ [']'])) := by
    simp
  have lexes : lexLine .idle ("rb.wm".toList ++ ' ' ::
      (operandsText f [b, l] ++ ',' :: ' ' :: '[' :: (operandsText f ds ++ [']']))) =
      some (.name "rb.wm".toList :: (numToks [b, l] ++ .comma :: .opening :: (numToks ds ++ [.closing]))) := by
    rw [lexLine_mnemonic (by decide) (by decide),
      lexLine_operandsText (fun n hn => h n (by simp at hn ⊢; tauto)) (delimited_comma _), lexLine_comma,
      lexLine_token (t := .opening) (st' := .idle) rfl,
      lexLine_operandsText (fun n hn => h n (by simp [hn])) (fun _ hc => .inr (Option.mem_some.1 hc).symm)]
    rfl
  have parses : opsLine .first (numToks [b, l] ++ .comma :: .opening :: (numToks ds ++ [.closing])) =
      some [.num b, .num l, .bytes ds] := opsLine_bracketed [.num b, .num l] ds
  have table : asmOp "rb.wm".toList [.num b, .num l, .bytes ds] =
      if l = ds.length then asMessage .rbWm b ds else none := rfl
  rw [line, assemble_of_reads lexes parses, table, asMessage_eq]
  by_cases length : l = ds.length
  · subst length
    simp only [if_true, true_and]
    exact elim_request _ _
  · simp [length]

/-- rb.wstr with a string (R82): every character is a byte and the length fits, or the line is an error. -/
theorem assemble_rbWstr (b : Nat) {cs : List Char} (h : doubleQuote ∉ cs) :
    assemble ("rb.wstr ".toList ++ decText b ++ [',', ' ', doubleQuote] ++ cs ++ [doubleQuote]) =
      if b < 256 ∧ cs.length < 65536 ∧ ∀ c ∈ cs, c.toNat < 256 then
        .request none (.rbWm (BitVec.ofNat 8 b) (cs.map (fun c => BitVec.ofNat 8 c.toNat)))
      else .error := by
  have line : "rb.wstr ".toList ++ decText b ++ [',', ' ', doubleQuote] ++ cs ++ [doubleQuote] =
      "rb.wstr".toList ++ ' ' :: (decText b ++ ',' :: ' ' :: (doubleQuote :: cs ++ [doubleQuote])) := by
    simp
  have lexes : lexLine .idle ("rb.wstr".toList ++ ' ' ::
      (decText b ++ ',' :: ' ' :: (doubleQuote :: cs ++ [doubleQuote]))) =
      some (.name "rb.wstr".toList :: [.num b, .comma, .str (cs.map Char.toNat)]) := by
    rw [lexLine_mnemonic (by decide) (by decide), readsAs_decText b _ (delimited_comma _), lexLine_comma,
      lexLine_quoted h]
    rfl
  have parses : opsLine .first [.num b, .comma, .str (cs.map Char.toNat)] =
      some [.num b, .bytes (cs.map Char.toNat)] := rfl
  have table : asmOp "rb.wstr".toList [.num b, .bytes (cs.map Char.toNat)] =
      asMessage pseudoWstr b (cs.map Char.toNat) := rfl
  rw [line, assemble_of_reads lexes parses, table, asMessage_eq, elim_request]
  simp only [List.length_map, List.forall_mem_map, List.map_map]
  rfl

/-- A line the assembler accepts names a port below 256, if any, and is what the table makes of some mnemonic
(R81, log entry 20). -/
theorem assemble_eq_request {cs : List Char} {port : Option Nat} {i : Instr} (h : assemble cs = .request port i) :
    (∃ m ops, asmOp m ops = some i) ∧ ∀ p, port = some p → p < 256 := by
  have ofTokens {port' : Option Nat} {ts : List Tok} (h : asmTokens port' ts = .request port i) :
      (∃ m ops, asmOp m ops = some i) ∧ port = port' := by
    unfold asmTokens at h
    split at h
    next m rest =>
      split at h
      next i' read =>
        obtain ⟨ops, -, made⟩ := Option.bind_eq_some_iff.1 read
        cases h
        exact ⟨⟨m, ops, made⟩, rfl⟩
      · cases h
    · cases h
  unfold assemble at h
  split at h
  · cases h
  · cases h
  next p ts _ =>
    split at h
    next below =>
      obtain ⟨made, rfl⟩ := ofTokens h
      exact ⟨made, fun _ hp => Option.some.inj hp ▸ below⟩
    · cases h
  · obtain ⟨made, rfl⟩ := ofTokens h
    exact ⟨made, fun _ hp => nomatch hp⟩

end Sys2Proof.Machine

namespace Sys2Proof

open Machine

/-- Settles O10: every number written reads as itself, so the line is what the table makes of its numbers. -/
theorem operandsThatDoNotFitAreAssemblerErrors : Obligations.OperandsThatDoNotFitAreAssemblerErrors := by
  unfold Obligations.OperandsThatDoNotFitAreAssemblerErrors
  refine ⟨fun num hnum => ?_, fun b cs => assemble_rbWstr b⟩
  have reads (n : Nat) : ReadsAs (num n) n := by
    simp only [List.mem_cons, List.not_mem_nil, or_false] at hnum
    obtain rfl | rfl := hnum
    · exact readsAs_decText n
    · exact readsAs_hexText n
  exact ⟨fun x hx ns => assemble_form hx fun n _ => reads n, fun b l ds => assemble_rbWm fun n _ => reads n⟩

/-- Settles O9: what the table of R81 and R82 yields fits its encoding, which decodes to it. -/
theorem assemblerEmitsOnlyLegalRequests : Obligations.AssemblerEmitsOnlyLegalRequests := by
  unfold Obligations.AssemblerEmitsOnlyLegalRequests
  intro cs port i h
  obtain ⟨⟨m, ops, made⟩, below⟩ := assemble_eq_request h
  exact ⟨decode_encode (wellFormed_of_asmOp made), below⟩

/-- Settles O8: the printed form of every operand reads as the operand, which fits its field. -/
theorem assembledTextIsTheInstruction : Obligations.AssembledTextIsTheInstruction := by
  unfold Obligations.AssembledTextIsTheInstruction
  intro i wf
  have form (k : Nat) (hk : k < asmForms.length) : asmForms[k] ∈ asmForms := List.getElem_mem hk
  cases i with
  | rbWb b v =>
    refine (assemble_printed (form 0 (by decide)) rfl (by simp [asmForms, fits])).trans ?_
    simp [asmForms, operandByte]
  | rbRb b =>
    refine (assemble_printed (form 1 (by decide)) rfl (by simp [asmForms, fits])).trans ?_
    simp [asmForms, operandByte]
  | rbWm b data =>
    have length : data.length < 65536 := of_decide_eq_true wf
    have reads : ∀ n ∈ b.toNat :: data.length :: data.map BitVec.toNat, ReadsAs (numText n) n := by
      intro n hn
      refine readsAs_numText ?_
      simp only [List.mem_cons, List.mem_map] at hn
      obtain rfl | rfl | ⟨d, -, rfl⟩ := hn
      · omega
      · exact length
      · omega
    refine (assemble_rbWm reads).trans ?_
    rw [if_pos (by simp [length])]
    simp [Function.comp_def]
  | rbRm b e m =>
    refine (assemble_printed (form 2 (by decide)) rfl (by simp [asmForms, fits])).trans ?_
    simp [asmForms, operandByte, operandHalf]
  | rbEmpty b =>
    refine (assemble_printed (form 3 (by decide)) rfl (by simp [asmForms, fits])).trans ?_
    simp [asmForms, operandByte]
  | rbPushl b q v =>
    refine (assemble_printed (form 4 (by decide)) rfl (by simp [asmForms, fits])).trans ?_
    simp [asmForms, operandByte]
  | mqInit => decide
  | mqSendlIsr q b e =>
    refine (assemble_printed (form 6 (by decide)) rfl (by simp [asmForms, fits])).trans ?_
    simp [asmForms, operandByte, operandHalf]
  | mqRecvl q m =>
    refine (assemble_printed (form 7 (by decide)) rfl (by simp [asmForms, fits])).trans ?_
    simp [asmForms, operandByte, operandHalf]
  | mqSendb q v =>
    refine (assemble_printed (form 8 (by decide)) rfl (by simp [asmForms, fits])).trans ?_
    simp [asmForms, operandByte]
  | mqRecvb q =>
    refine (assemble_printed (form 9 (by decide)) rfl (by simp [asmForms, fits])).trans ?_
    simp [asmForms, operandByte]
  | mqSendbIsr q v =>
    refine (assemble_printed (form 10 (by decide)) rfl (by simp [asmForms, fits])).trans ?_
    simp [asmForms, operandByte]
  | mqRecvbIsr q =>
    refine (assemble_printed (form 11 (by decide)) rfl (by simp [asmForms, fits])).trans ?_
    simp [asmForms, operandByte]
  | mqPendIsr q =>
    refine (assemble_printed (form 12 (by decide)) rfl (by simp [asmForms, fits])).trans ?_
    simp [asmForms, operandByte]
  | sysStatus => decide

end Sys2Proof
end

section
/-! SUPPORT. The ring-buffer operations (40_ringbuffer.md R100 to R105): which words are a row's, what a whole message and
one read leave of the block, and the answer to a port of the wrong role. -/

namespace Sys2Proof

/-- A row's pattern and mask decode as the row's operation (30_encoding.md R74, R79). -/
theorem decodesAs_row {r : OpcodeRow} (hr : r ∈ opcodeTable) : Machine.DecodesAs r.pattern r.mask (buildInstr r.op) :=
  fun _ _ hw hd => decode_of_row hr hw hd

end Sys2Proof

namespace Sys2Proof.Machine

variable {s : State} {b : Byte} {data : List Byte}

/-! ### RB.WM -/

theorem SameOutside.writeMessage (s : State) (b : Byte) (data : List Byte) : SameOutside s (s.writeMessage b data) :=
  (SameOutside.storeFrom b data s _).trans (SameOutside.setWc _ _ _)

theorem State.draws_writeMessage (s : State) (b : Byte) (data : List Byte) : (s.writeMessage b data).draws = s.draws :=
  State.draws_storeFrom b data s _

/-- A message leaves every other buffer as it was (R102). -/
theorem sameOtherBufs_writeMessage (s : State) (b : Byte) (data : List Byte) :
    SameOtherBufs s (s.writeMessage b data) b := fun _ hb =>
  ⟨(State.wc_setWc_other _ _ hb).trans (State.wc_storeFrom _ _ _ _ _),
    (State.rc_setWc _ _ _ _).trans (State.rc_storeFrom _ _ _ _ _),
    fun i => (State.cell_setWc _ _ _ _ i).trans (State.cell_storeFrom_otherBuf hb _ _ _ i)⟩

/-- A message of no bytes leaves the block as it was. -/
theorem sameBufs_writeMessage_nil (inv : s.Inv) (hb : b.toNat < s.cfg.nb) : SameBufs s (s.writeMessage b []) := by
  obtain ⟨present, below, -, -⟩ := Inv.buf inv hb
  intro b'
  by_cases same : b' = b
  · subst same
    exact ⟨(State.wc_setWc_same _ present).trans (Nat.mod_eq_of_lt below), State.rc_setWc _ _ _ _,
      State.cell_setWc _ _ _ _⟩
  · exact sameOtherBufs_writeMessage s b [] b' same

/-- What an accepted message does to its buffer: its bytes go to the cells from the write cursor on, the cursor moves
past them, and no other cell and no read cursor changes (R102). -/
theorem writeMessage_buffer (inv : s.Inv) (hb : b.toNat < s.cfg.nb) (short : data.length < s.cfg.n - 1) :
    (∀ k (h : k < data.length), (s.writeMessage b data).cell b (s.wc b + k) = some data[k]) ∧
    (∀ i, (∀ k < data.length, i % s.cfg.n ≠ (s.wc b + k) % s.cfg.n) →
      (s.writeMessage b data).cell b i = s.cell b i) ∧
    (s.writeMessage b data).wc b = (s.wc b + data.length) % s.cfg.n ∧ (s.writeMessage b data).rc b = s.rc b := by
  obtain ⟨present, -, -, canonical⟩ := Inv.buf inv hb
  have stored := SameOutside.storeFrom b data s (s.wc b)
  refine ⟨fun k hk => ?_, fun i out => ?_, ?_, ?_⟩
  · rw [State.writeMessage, State.cell_setWc]
    exact State.cell_storeFrom_in data s _ k present canonical (by omega) hk
  · rw [State.writeMessage, State.cell_setWc, State.cell_storeFrom_out b data s _ i out]
  · rw [State.writeMessage, State.wc_setWc_same _ (by rwa [stored.length]), stored.cfg]
  · rw [State.writeMessage, State.rc_setWc, State.rc_storeFrom]

/-! ### RB.RB -/

theorem State.draws_copyOne (s : State) (c : Copy) :
    (s.copyOne c).1.draws = s.draws + if s.cell c.b (s.rc c.b) = none then 1 else 0 := by
  simp only [State.copyOne, State.draws_setRc, State.memRead_eq]

/-- One copy reads on by one. -/
theorem readOn_copyOne {c : Copy} (inv : s.Inv) (hb : c.b.toNat < s.cfg.nb) : ReadOn s (s.copyOne c).1 c.b 1 := by
  obtain ⟨present, -⟩ := Inv.buf inv hb
  obtain ⟨wc, cell, -⟩ := State.copyOne_frame s c
  exact ⟨State.copyOne_rc present, wc c.b, cell c.b⟩

theorem sameOtherBufs_copyOne (s : State) (c : Copy) : SameOtherBufs s (s.copyOne c).1 c.b := by
  obtain ⟨wc, cell, rc⟩ := State.copyOne_frame s c
  exact fun b' hb => ⟨wc b', rc b' hb, cell b'⟩

/-! ### RB.EMPTY -/

/-- RB.EMPTY on a valid identifier answers whether the cursors are equal, with no role check (R104). -/
theorem execRbEmpty_of_valid (hb : b.toNat < s.cfg.nb) :
    execRbEmpty b s = .next (s.ok s.cur (if s.wc b = s.rc b then 1 else 0) []) :=
  if_neg (by simp [valid_iff.2 hb])

/-! ### The role check -/

theorem State.asProducer_of_not_isProd (hb : b.toNat < s.cfg.nb) (role : s.isProd s.cur b = false) (k : State) :
    s.asProducer b k = .next (s.raise s.cur .roleViol) := by
  simp [State.asProducer, valid_iff.2 hb, role]

theorem State.asConsumer_of_not_isCons (hb : b.toNat < s.cfg.nb) (role : s.isCons s.cur b = false) (k : State) :
    s.asConsumer b k = .next (s.raise s.cur .roleViol) := by
  simp [State.asConsumer, valid_iff.2 hb, role]

/-- From a task port MQ.RECVL on a live line queue faults when its head is a descriptor of a buffer the port does not
consume (R105, R145). -/
theorem execMqRecvl_of_not_isCons {q : Byte} {e : Half} {rest : List Entry} (fault : s.queueFault q .line = none)
    (task : s.isIsr s.cur = false) (head : (s.queue q).fifo = .line b e :: rest) (role : s.isCons s.cur b = false)
    (m : Half) : execMqRecvl q m s = .next (s.raise s.cur .roleViol) := by
  simp [execMqRecvl, State.blocking, fault, task, State.nonempty, State.recvlComplete, head, role]

/-- A request that ends in ROLE_VIOL sets STATUS.ROLEV, bit 3, and changes nothing else (R105, R202). -/
theorem onlyRolev_of_raise {r : Result} (inv : s.Inv) (h : r = .next (s.raise s.cur .roleViol)) :
    ∃ t, r = .next t ∧ OnlyFaulted s t s.cur .roleViol ∧ t.status.getLsbD 3 = true := by
  refine ⟨_, h, State.onlyFaulted_raise _ (Inv.cur inv), ?_⟩
  show (s.status ||| 0x0008).getLsbD 3 = true
  rw [BitVec.getLsbD_or]
  simp

end Sys2Proof.Machine

namespace Sys2Proof

open Machine

/-- Settles O15: after the producer's checks, an ignored byte leaves the state as it was, and any other is a filtered
store. -/
theorem rbWbStoresFiltersOrRefuses : Obligations.RbWbStoresFiltersOrRefuses := by
  unfold Obligations.RbWbStoresFiltersOrRefuses
  refine ⟨decodesAs_row (r := ⟨.rbWb, _, _⟩) (by decide), fun s b v inv => producer_whole inv fun hb _ => ?_⟩
  have hp := Inv.cur inv
  by_cases ignored : isIgnored v = true
  · have unstored : s.storeFiltered b v = s := if_pos ignored
    rw [if_pos ((ign_iff v).1 ignored), unstored]
    exact State.onlyAnswered_respond _ hp
  · have outside := filtered_outside s b v
    rw [if_neg (mt (ign_iff v).2 ignored)]
    exact ⟨storedByte inv hb (by simpa using ignored), filtered_other s b v, outside.queue, outside.status,
      ⟨outside.cfg, outside.cur, outside.sched⟩, filtered_draws s b v, answered_after outside _ hp⟩

/-- Settles O16: after the consumer's checks RB.RB is one copy, and the byte is the cell's or the next draw. -/
theorem rbRbReadsAndAdvancesOrRefuses : Obligations.RbRbReadsAndAdvancesOrRefuses := by
  unfold Obligations.RbRbReadsAndAdvancesOrRefuses
  refine ⟨decodesAs_row (r := ⟨.rbRb, _, _⟩) (by decide), fun s b inv => consumer_whole inv fun hb _ => ?_⟩
  have outside := SameOutside.copyOne s (s.newCopy b 0 0)
  have draws := State.draws_copyOne s (s.newCopy b 0 0)
  have byte : (s.memRead b (s.rc b)).1 = (s.cell b (s.rc b)).getD (Config.drawByte s.draws) := by
    rw [State.memRead_eq]
  have answered (value : Half) := answered_after outside ⟨.ok, value, []⟩ (Inv.cur inv)
  refine ⟨readOn_copyOne (c := s.newCopy b 0 0) inv hb, sameOtherBufs_copyOne s (s.newCopy b 0 0), outside.queue,
    outside.status, ⟨outside.cfg, outside.cur, outside.sched⟩, ?_⟩
  rw [byte]
  cases read : s.cell b (s.rc b) with
  | some v => exact ⟨draws.trans (by simp [State.newCopy, read]), answered _⟩
  | none => exact ⟨draws.trans (by simp [State.newCopy, read]), answered _⟩

/-- Settles O17: after the producer's checks an accepted message is recorded, or written and its length answered. -/
theorem rbWmStoresVerbatimOrRefuses : Obligations.RbWmStoresVerbatimOrRefuses := by
  unfold Obligations.RbWmStoresVerbatimOrRefuses
  refine ⟨decodesAs_row (r := ⟨.rbWm, _, _⟩) (by decide), fun s b data inv => producer_whole inv fun hb _ => ?_⟩
  have hp := Inv.cur inv
  by_cases long : s.cfg.n - 1 ≤ data.length
  · rw [if_pos long, if_pos long]
    exact State.onlyAnswered_respond _ hp
  rw [if_neg long, if_neg long]
  by_cases isSplit : s.cfg.atomicMultibyte = false
  · rw [if_pos isSplit, if_neg (by simp [isSplit])]
    exact recorded _ hp
  have atomic : s.cfg.atomicMultibyte = true := by simpa using isSplit
  rw [if_neg isSplit, if_pos atomic, ← State.writeMessage]
  have outside := SameOutside.writeMessage s b data
  have draws := State.draws_writeMessage s b data
  have answered (r : Response) := answered_after outside r hp
  by_cases empty : data = []
  · subst empty
    exact ⟨answered _, sameBufs_writeMessage_nil inv hb, outside.queue, outside.status,
      ⟨outside.cfg, outside.cur, outside.sched⟩, draws⟩
  · obtain ⟨stored, unreached, wc, rc⟩ := writeMessage_buffer inv hb (Nat.lt_of_not_le long)
    rw [if_neg empty, countResponse, if_neg (by simpa using empty)]
    exact ⟨stored, unreached, wc, rc, sameOtherBufs_writeMessage s b data, outside.queue, outside.status,
      ⟨outside.cfg, outside.cur, outside.sched⟩, draws, answered _⟩

/-- Settles O18: after the consumer's checks the drain is recorded, or run to its limit in this step. -/
theorem rbRmCopiesTheLeastOrRefuses : Obligations.RbRmCopiesTheLeastOrRefuses := by
  unfold Obligations.RbRmCopiesTheLeastOrRefuses
  refine ⟨decodesAs_row (r := ⟨.rbRm, _, _⟩) (by decide), fun s b e m inv => consumer_whole inv fun hb _ => ?_⟩
  have hp := Inv.cur inv
  obtain ⟨present, -, below, -⟩ := Inv.buf inv hb
  by_cases isSplit : s.cfg.atomicMultibyte = false
  · rw [if_pos isSplit, State.startDrain, if_neg (by simp [isSplit])]
    exact recorded _ hp
  rw [if_neg isSplit]
  have drain := drain_atomic (e := e) (m := m) .rm present below hp (by simpa using isSplit)
  by_cases zero : min e.toNat (min m.toNat s.cfg.n) = 0
  · rw [if_pos zero] at drain ⊢
    rw [drain]
    exact State.onlyAnswered_respond _ hp
  · rw [if_neg zero] at drain ⊢
    obtain ⟨out, bytes, read, others, queues, status, model, answered⟩ := drain
    exact ⟨out, bytes, read, others, fun q => by rw [State.queue, queues]; rfl, status, model, answered⟩

/-- Settles O19: either branch is an answer and nothing else. -/
theorem rbEmptyComparesTheCursors : Obligations.RbEmptyComparesTheCursors := by
  unfold Obligations.RbEmptyComparesTheCursors
  refine ⟨decodesAs_row (r := ⟨.rbEmpty, _, _⟩) (by decide), fun s b inv => ?_⟩
  have hp := Inv.cur inv
  by_cases hb : b.toNat < s.cfg.nb
  · refine ⟨_, execRbEmpty_of_valid hb, ?_⟩
    rw [if_neg (Nat.not_le_of_lt hb)]
    exact State.onlyAnswered_respond _ hp
  · refine ⟨_, if_pos (by simpa [State.bufValid] using hb), ?_⟩
    rw [if_pos (Nat.le_of_not_lt hb)]
    exact State.onlyAnswered_respond _ hp

/-- Settles O20: each operation with a role check ends in ROLE_VIOL, and RB.EMPTY answers. -/
theorem wrongRoleOnlySetsRolev : Obligations.WrongRoleOnlySetsRolev := by
  unfold Obligations.WrongRoleOnlySetsRolev
  intro s b q v e m data rest inv hb
  refine ⟨fun role i hi => ?_, fun role i hi => ?_, fun role live shape task head => ?_, ?_⟩
  · obtain ⟨k, checked⟩ : ∃ k, exec i s = s.asProducer b k := by
      simp only [List.mem_cons, List.not_mem_nil, or_false] at hi
      obtain rfl | rfl | rfl := hi <;> exact ⟨_, rfl⟩
    exact onlyRolev_of_raise inv (checked.trans (State.asProducer_of_not_isProd hb role k))
  · obtain ⟨k, checked⟩ : ∃ k, exec i s = s.asConsumer b k := by
      simp only [List.mem_cons, List.not_mem_nil, or_false] at hi
      obtain rfl | rfl := hi <;> exact ⟨_, rfl⟩
    exact onlyRolev_of_raise inv (checked.trans (State.asConsumer_of_not_isCons hb role k))
  · have fault := (State.queueFault_eq_none s q .line).2 ⟨live, shape⟩
    exact onlyRolev_of_raise inv (execMqRecvl_of_not_isCons fault task head role m)
  · exact ⟨_, _, execRbEmpty_of_valid hb, State.onlyAnswered_respond _ (Inv.cur inv), rfl⟩

end Sys2Proof
end

section
/-! SUPPORT. The message-queue operations (41_messagequeue.md R140 to R150): what sending, receiving and creating leave
of the block, the completion bodies of the waiting requests, and the steps that end or pass over a wait (R142). -/

namespace Sys2Proof.Machine

variable {s t u : State} {p : Nat} {q b : Byte} {e m : Half} {v : Byte} {x : Entry} {rest : List Entry}
  {sched : List Choice}

/-! ### Frames -/

theorem sameBufs_of_bufs (cfg : t.cfg = s.cfg) (bufs : t.bufs = s.bufs) : SameBufs s t := by
  intro b
  simp only [SameBuf, State.wc, State.rc, State.cell, State.buf, State.unlisted, cfg, bufs, implies_true, and_self]

/-- An answer after an update that leaves the ports alone is the port's only change. -/
theorem answered_of_ports (ports : u.ports = s.ports) (r : Response) (hp : p < s.ports.length) :
    Answered s (u.respond p r) p r := by
  simpa only [Answered, State.resps, State.pend, State.port, ports] using
    State.answered_respond (s := u) r (by rwa [ports])

/-! ### Sending and receiving -/

theorem State.nonempty_eq_false : s.nonempty q = false ↔ (s.queue q).fifo = [] := by simp [State.nonempty]

theorem State.nonempty_eq_true : s.nonempty q = true ↔ (s.queue q).fifo ≠ [] := by
  rw [← Bool.not_eq_false, not_congr State.nonempty_eq_false]

theorem State.not_full_eq_false : (!s.full q) = false ↔ s.cfg.qcap ≤ (s.queue q).fifo.length := by
  simp [State.full]

/-- Sending an entry appends it to its queue, answers 1 and changes nothing else (R141). -/
theorem sent_enqueue (inv : s.Inv) (live : s.qlive q = true) (x : Entry) :
    let t := (s.enqueue q x).ok s.cur 1 []
    t.queue q = { s.queue q with fifo := (s.queue q).fifo ++ [x] } ∧ SameOtherQueues s t q ∧ SameBufs s t ∧
      t.status = s.status ∧ SameModel s t ∧ t.draws = s.draws ∧ Answered s t s.cur ⟨.ok, 1, []⟩ :=
  ⟨State.queue_enqueue_same x (Inv.qidx inv live), fun _ other => State.queue_enqueue_other s x other,
    sameBufs_of_bufs rfl rfl, rfl, ⟨rfl, rfl, rfl⟩, rfl, answered_of_ports rfl _ (Inv.cur inv)⟩

theorem State.queue_dropHead_of_cons (hq : q.toNat < s.queues.length) (head : (s.queue q).fifo = x :: rest) :
    (s.dropHead q).queue q = { s.queue q with fifo := rest } := by
  rw [State.queue_dropHead_same hq, head, List.tail_cons]

/-- Queue `q` lost its head and has `rest` left, the request being performed was answered with `r`, and nothing else
changed (R141). -/
abbrev OnlyReceived (s t : State) (q : Byte) (rest : List Entry) (r : Response) : Prop :=
  t.queue q = { s.queue q with fifo := rest } ∧ SameOtherQueues s t q ∧ SameBufs s t ∧ t.status = s.status ∧
  SameModel s t ∧ t.draws = s.draws ∧ Answered s t s.cur r

theorem received_dropHead (inv : s.Inv) (live : s.qlive q = true) (head : (s.queue q).fifo = x :: rest)
    (r : Response) : OnlyReceived s ((s.dropHead q).respond s.cur r) q rest r :=
  ⟨State.queue_dropHead_of_cons (Inv.qidx inv live) head, fun _ other => State.queue_dropHead_other s other,
    sameBufs_of_bufs rfl rfl, rfl, ⟨rfl, rfl, rfl⟩, rfl, answered_of_ports rfl _ (Inv.cur inv)⟩

/-- A live line queue with an entry has a line descriptor at its head (R27). -/
theorem Inv.line_head (inv : s.Inv) (live : s.qlive q = true) (shape : (s.queue q).shape = some .line)
    (notEmpty : (s.queue q).fifo ≠ []) : ∃ b e rest, (s.queue q).fifo = .line b e :: rest := by
  obtain ⟨x, rest, head⟩ := List.exists_cons_of_ne_nil notEmpty
  obtain ⟨b, e, rfl, -⟩ := fifo_line inv live shape x (by simp [head])
  exact ⟨b, e, rest, head⟩

/-- A live byte queue with an entry has a byte at its head (R27). -/
theorem Inv.byte_head (inv : s.Inv) (live : s.qlive q = true) (shape : (s.queue q).shape = some .byte)
    (notEmpty : (s.queue q).fifo ≠ []) : ∃ v rest, (s.queue q).fifo = .byte v :: rest := by
  obtain ⟨x, rest, head⟩ := List.exists_cons_of_ne_nil notEmpty
  obtain ⟨v, rfl⟩ := fifo_byte inv live shape x (by simp [head])
  exact ⟨v, rest, head⟩

/-- A live queue holds at most QCAP entries (R26). -/
theorem Inv.fifo_length_le (inv : s.Inv) (live : s.qlive q = true) : (s.queue q).fifo.length ≤ s.cfg.qcap := by
  simp only [State.qlive, Bool.and_eq_true, decide_eq_true_eq] at live
  obtain ⟨index, -⟩ := live
  have fits := (Inv.good inv).queue index
  simp only [State.queueOk, Bool.and_eq_true, decide_eq_true_eq] at fits
  obtain ⟨⟨-, bounded⟩, -⟩ := fits
  exact bounded

/-- A check that ends the request where it does not pass, before what follows it (R140, R151). -/
theorem check_whole {P Q : State → Prop} {c d : Prop} [Decidable c] [Decidable d] {k : State} {r : Result}
    (same : c ↔ d) (ended : P k) (passed : ¬d → ∃ t, r = .next t ∧ Q t) :
    ∃ t, (if c then .next k else r : Result) = .next t ∧ if d then P t else Q t := by
  by_cases hd : d
  · exact ⟨k, if_pos (same.2 hd), by rwa [if_pos hd]⟩
  · obtain ⟨t, next, ht⟩ := passed hd
    exact ⟨t, (if_neg (mt same.1 hd)).trans next, by rwa [if_neg hd]⟩

/-! ### Completion bodies -/

/-- MQ.RECVB and MQ.RECVB.ISR answer the byte at the head and remove it (R147, R149). -/
theorem State.recvbComplete_of_cons (head : (s.queue q).fifo = .byte v :: rest) (p : Nat) :
    s.recvbComplete p q = .next ((s.dropHead q).ok p (v.setWidth 16) []) := by
  simp only [State.recvbComplete, head, List.head?_cons]

/-- On a live byte queue with an entry the completion body receives the byte at the head (R147, R149). -/
theorem recvb_receives (inv : s.Inv) (live : s.qlive q = true) (shape : (s.queue q).shape = some .byte)
    (notEmpty : (s.queue q).fifo ≠ []) : ∃ t, s.recvbComplete s.cur q = .next t ∧
      ∃ v rest, (s.queue q).fifo = .byte v :: rest ∧ OnlyReceived s t q rest ⟨.ok, v.setWidth 16, []⟩ := by
  obtain ⟨v, rest, head⟩ := Inv.byte_head inv live shape notEmpty
  exact ⟨_, State.recvbComplete_of_cons head _, v, rest, head, received_dropHead inv live head _⟩

/-- RECVL_COMPLETE for another port than the consumer of the head's buffer faults and dequeues nothing (R145). -/
theorem State.recvlComplete_of_not_isCons (head : (s.queue q).fifo = .line b e :: rest) (role : s.isCons p b = false)
    (m : Half) : s.recvlComplete p q m = .next (s.raise p .roleViol) := by
  simp [State.recvlComplete, head, role]

/-- RECVL_COMPLETE for the consumer of the head's buffer dequeues the descriptor and drains the buffer (R145). -/
theorem State.recvlComplete_of_isCons (head : (s.queue q).fifo = .line b e :: rest) (role : s.isCons p b = true)
    (m : Half) : s.recvlComplete p q m =
      .next ((s.dropHead q).startDrain p (.drain q) ((s.dropHead q).newCopy b e m)) := by
  simp [State.recvlComplete, head, role]

/-- What MQ.RECVL's drain does after the descriptor is dequeued (R145): it is recorded (R55), or it copies
min(e, M, N) bytes and answers them, or Fail where there are none. -/
theorem recvl_drains (inv : s.Inv) (live : s.qlive q = true) (head : (s.queue q).fifo = .line b e :: rest)
    (role : s.isCons s.cur b = true) (m : Half) :
    let t := (s.dropHead q).startDrain s.cur (.drain q) ((s.dropHead q).newCopy b e m)
    t.queue q = { s.queue q with fifo := rest } ∧ SameOtherQueues s t q ∧ t.status = s.status ∧ SameModel s t ∧
      SameOtherBufs s t b ∧
      if s.cfg.atomicMultibyte = false then
        SameBuf s t b ∧ t.draws = s.draws ∧ t.resps s.cur = s.resps s.cur ∧
        (t.port s.cur).todo = (s.port s.cur).todo ∧ (∀ p', p' ≠ s.cur → t.port p' = s.port p') ∧
        (t.port s.cur).unanswered = (s.port s.cur).unanswered ∧
        t.pend s.cur = some (.drain q ⟨b, e, m, 0, [], s.rc b⟩)
      else if min e.toNat (min m.toNat s.cfg.n) = 0 then
        SameBuf s t b ∧ t.draws = s.draws ∧ Answered s t s.cur ⟨.fail .zeroCount, 0, []⟩
      else
        ∃ out, BytesRead s b (min e.toNat (min m.toNat s.cfg.n)) out ∧
          ReadOn s t b (min e.toNat (min m.toNat s.cfg.n)) ∧
          Answered s t s.cur ⟨.ok, BitVec.ofNat 16 (min e.toNat (min m.toNat s.cfg.n)), out⟩ := by
  intro t
  have hp := Inv.cur inv
  obtain ⟨present, -, below, -⟩ := Inv.buf inv (cons_valid role)
  have taken := State.queue_dropHead_of_cons (Inv.qidx inv live) head
  have others : SameOtherQueues s (s.dropHead q) q := fun _ other => State.queue_dropHead_other s other
  by_cases isSplit : s.cfg.atomicMultibyte = false
  · have ht : t = (s.dropHead q).setPend s.cur (some (.drain q ((s.dropHead q).newCopy b e m))) :=
      if_neg (by simp [isSplit])
    obtain ⟨pend, resps, todo, ports, bufs, -, status, model, draws, note⟩ :=
      recorded (s := s.dropHead q) (.drain q ((s.dropHead q).newCopy b e m)) hp
    rw [if_pos isSplit, ht]
    exact ⟨taken, others, status, model, fun b' _ => bufs b', bufs b, draws, resps, todo, ports, note, pend⟩
  rw [if_neg isSplit]
  have drain := drain_atomic (s := s.dropHead q) (e := e) (m := m) (.drain q) present below hp (by simpa using isSplit)
  rw [State.cfg_dropHead] at drain
  by_cases zero : min e.toNat (min m.toNat s.cfg.n) = 0
  · rw [if_pos zero] at drain ⊢
    have ht : t = (s.dropHead q).respond s.cur ⟨.fail .zeroCount, 0, []⟩ := drain
    obtain ⟨queue, other, bufs, status, model, draws, answered⟩ :=
      received_dropHead inv live head ⟨.fail .zeroCount, 0, []⟩
    rw [ht]
    exact ⟨queue, other, status, model, fun b' _ => bufs b', bufs b, draws, answered⟩
  · rw [if_neg zero] at drain ⊢
    obtain ⟨out, bytes, read, otherBufs, queues, status, model, answered⟩ := drain
    have queue (q' : Byte) : t.queue q' = (s.dropHead q).queue q' := congrArg (List.getD · _ _) queues
    exact ⟨(queue q).trans taken, fun q' other => (queue q').trans (others q' other), status, model, otherBufs, out,
      bytes, read, answered⟩

/-! ### MQ.INIT -/

/-- What MQ.INIT does to the block before it answers: it creates the queues that were not created (R143). -/
theorem initAll_frame (inv : s.Inv) :
    (∀ q : Byte, q.toNat < s.cfg.nq → (initAll s).st.queue q =
      if (s.queue q).created = true then s.queue q else ⟨true, s.cfg.qshapes[q.toNat]?, []⟩) ∧
    (initAll s).st.queues.length = s.queues.length ∧ SameBufs s (initAll s).st ∧ SameModel s (initAll s).st ∧
    (initAll s).st.draws = s.draws := by
  obtain ⟨-, sized, -⟩ := (Inv.good inv).sized
  obtain ⟨cfg, bufs, -, cur, sched, draws, length, queues, -, -, -⟩ := initAll_spec s sized
  refine ⟨fun q hq => ?_, length, sameBufs_of_bufs cfg bufs, ⟨cfg, cur, sched⟩, draws⟩
  refine (queues q.toNat).trans ?_
  by_cases created : (s.queue q).created = true
  · rw [if_pos created]
    exact if_neg fun ⟨_, blank⟩ => absurd (created.symm.trans blank) (by decide)
  · rw [if_neg created]
    exact if_pos ⟨hq, Bool.eq_false_of_not_eq_true created⟩

/-- Where no queue is created, all of them are uncreated. -/
theorem length_filter_uncreated (sized : s.queues.length = s.cfg.nq)
    (fresh : ¬s.queues.any (fun x => x.created) = true) :
    (s.queues.filter (fun x => !x.created)).length = s.cfg.nq := by
  rw [← sized, List.length_filter_eq_length_iff]
  simpa using fresh

/-! ### The end of a wait -/

theorem step_timeout (hs : s.sched = .timeout p :: sched) :
    step s = .next (State.timeoutAt { s with sched := sched } p) := by
  rw [step_eq_run, State.fetch, hs]; rfl

theorem step_complete (hs : s.sched = .complete p :: sched) :
    step s = State.completeAt { s with sched := sched } p := by
  rw [step_eq_run, State.fetch, hs]; rfl

/-- Whatever a port waits for, its timeout ends the record and answers Fail(0) (R142). -/
theorem State.timeoutAt_of_waits {w : Pend} {c : Byte × Shape} (hx : s.pend p = some w) (waits : w.waits = some c) :
    s.timeoutAt p = (s.setPend p none).fail p .timeout 0 := by
  cases w with
  | recvl | sendb | recvb => simp only [State.timeoutAt, hx]
  | wm | rm | drain => cases waits

theorem State.completeAt_recvl (hx : s.pend p = some (.recvl q m)) : s.completeAt p =
    if s.nonempty q then (s.setPend p none).recvlComplete p q m else .next s := by
  simp only [State.completeAt, hx]

theorem State.completeAt_sendb (hx : s.pend p = some (.sendb q v)) : s.completeAt p =
    if s.full q then .next s else (s.setPend p none).sendbComplete p q v := by
  simp only [State.completeAt, hx]

theorem State.completeAt_recvb (hx : s.pend p = some (.recvb q)) : s.completeAt p =
    if s.nonempty q then (s.setPend p none).recvbComplete p q else .next s := by
  simp only [State.completeAt, hx]

/-! ### A completion is the operation issued then -/

/-- A blocking operation that passes its checks and is ready is its completion body (R142, R151). -/
theorem State.blocking_of_ready {sh : Shape} {ready : Bool} (fault : s.queueFault q sh = none)
    (task : s.isIsr s.cur = false) (now : ready = true) (record : Pend) (body : Result) :
    s.blocking q sh ready record body = body := by
  simp [State.blocking, fault, task, now]

/-- Whose turn it is does not matter to a copy. -/
theorem State.copyOne_withCur (s : State) (k : Nat) (c : Copy) :
    State.copyOne { s with cur := k } c = ({ (s.copyOne c).1 with cur := k }, (s.copyOne c).2) := by
  simp only [State.copyOne, State.memRead_eq]
  rfl

theorem State.copyRun_withCur (s : State) (k : Nat) (c : Copy) (fuel : Nat) :
    State.copyRun { s with cur := k } c fuel = ({ (s.copyRun c fuel).1 with cur := k }, (s.copyRun c fuel).2) := by
  induction fuel generalizing s c with
  | zero => rfl
  | succ fuel ih =>
    rw [State.copyRun, State.copyRun, State.copyOne_withCur, ih]
    split <;> rfl

theorem State.startDrain_withCur (s : State) (k p : Nat) (record : Copy → Pend) (c : Copy) :
    State.startDrain { s with cur := k } p record c = { s.startDrain p record c with cur := k } := by
  rw [State.startDrain, State.startDrain, State.copyRun_withCur]
  split <;> rfl

/-- With a descriptor at the queue's head RECVL_COMPLETE goes on, and does the same whoever's turn it is. -/
theorem recvlComplete_withCur (head : (s.queue q).fifo = .line b e :: rest) (k p : Nat) (m : Half) :
    ∃ t, s.recvlComplete p q m = .next t ∧
      State.recvlComplete { s with cur := k } p q m = .next { t with cur := k } := by
  cases role : s.isCons p b with
  | false =>
    exact ⟨_, State.recvlComplete_of_not_isCons head role m,
      State.recvlComplete_of_not_isCons (s := { s with cur := k }) head role m⟩
  | true =>
    refine ⟨_, State.recvlComplete_of_isCons head role m,
      (State.recvlComplete_of_isCons (s := { s with cur := k }) head role m).trans (congrArg _ ?_)⟩
    exact State.startDrain_withCur (s.dropHead q) k p (.drain q) ((s.dropHead q).newCopy b e m)

/-- With a byte at the queue's head the completion body of MQ.RECVB goes on, and does the same whoever's turn it is. -/
theorem recvbComplete_withCur (head : (s.queue q).fifo = .byte v :: rest) (k p : Nat) :
    ∃ t, s.recvbComplete p q = .next t ∧ State.recvbComplete { s with cur := k } p q = .next { t with cur := k } :=
  ⟨_, State.recvbComplete_of_cons head p, State.recvbComplete_of_cons (s := { s with cur := k }) head p⟩

/-- The state in which port `p` issues its request with nothing outstanding; `sched` is what the environment has still
to choose. -/
def State.released (s : State) (p : Nat) (sched : List Choice) : State :=
  { s.setPend p none with sched := sched, cur := p }

end Sys2Proof.Machine

namespace Sys2Proof

open Machine

/-- Settles O38: in each of the three waits the readiness test fails and the choice is passed over. -/
theorem unreadyWaiterGoesOnWaiting : Obligations.UnreadyWaiterGoesOnWaiting := by
  unfold Obligations.UnreadyWaiterGoesOnWaiting
  intro s p sched q v m hs unready
  rw [step_complete hs]
  obtain ⟨hx | hx, empty⟩ | ⟨hx, full⟩ := unready
  · rw [State.completeAt_recvl (s := { s with sched := sched }) hx]
    exact if_neg (by simpa using State.nonempty_eq_false.2 empty)
  · rw [State.completeAt_recvb (s := { s with sched := sched }) hx]
    exact if_neg (by simpa using State.nonempty_eq_false.2 empty)
  · rw [State.completeAt_sendb (s := { s with sched := sched }) hx]
    exact if_pos (by simpa using State.not_full_eq_false.2 full)

/-- Settles O25: the loop creates the uncreated queues, and the answer says whether it met a created one. -/
theorem mqInitCreatesTheUncreatedQueues : Obligations.MqInitCreatesTheUncreatedQueues := by
  unfold Obligations.MqInitCreatesTheUncreatedQueues
  refine ⟨decodesAs_row (r := ⟨.mqInit, _, _⟩) (by decide), fun s inv => ?_⟩
  obtain ⟨-, sized, -⟩ := (Inv.good inv).sized
  obtain ⟨-, -, ports, -, -, -, -, -, made, dbl, status⟩ := initAll_spec s sized
  obtain ⟨queues, length, bufs, model, draws⟩ := initAll_frame inv
  have answered (r : Response) := answered_of_ports ports r (Inv.cur inv)
  rw [← dbl]
  by_cases met : (initAll s).dbl = true
  · refine ⟨_, if_pos met, queues, length, bufs, model, draws, ?_⟩
    rw [if_pos met] at status ⊢
    rw [made]
    exact ⟨status, answered _⟩
  · refine ⟨_, if_neg met, queues, length, bufs, model, draws, ?_⟩
    rw [if_neg met] at status ⊢
    rw [made, length_filter_uncreated sized (by rwa [← dbl])]
    exact ⟨status, answered _⟩

/-- Settles O26: the four checks in the order of the pseudocode, then the descriptor is sent. -/
theorem sendlIsrAppendsOrFails : Obligations.SendlIsrAppendsOrFails := by
  unfold Obligations.SendlIsrAppendsOrFails
  refine ⟨decodesAs_row (r := ⟨.mqSendlIsr, _, _⟩) (by decide), fun s q b e inv => ?_⟩
  have failed (c : Cause) := State.onlyAnswered_respond ⟨.fail c, 0, []⟩ (Inv.cur inv)
  refine check_whole (by simp) (failed .badQueue) fun live => ?_
  refine check_whole (by simp [State.bufValid]) (failed .badBuf) fun _ => ?_
  refine check_whole Iff.rfl (failed .shape) fun _ => ?_
  refine check_whole (by simp [State.full]) (failed .full) fun _ => ?_
  exact ⟨_, rfl, sent_enqueue inv (by simpa using live) (.line b e)⟩

/-- Settles O27: after the checks of a blocking operation the head is a descriptor, which faults and stays or is
drained. -/
theorem recvlDrainsTheNamedBuffer : Obligations.RecvlDrainsTheNamedBuffer := by
  unfold Obligations.RecvlDrainsTheNamedBuffer
  refine ⟨decodesAs_row (r := ⟨.mqRecvl, _, _⟩) (by decide),
    fun s p q m _ waiting => State.timeoutAt_of_waits waiting rfl, fun s q m inv => ?_⟩
  simp only [← State.nonempty_eq_false]
  refine blocking_whole inv fun ready live shape _ => ?_
  obtain ⟨b, e, rest, head⟩ := Inv.line_head inv live shape (State.nonempty_eq_true.1 ready)
  cases role : s.isCons s.cur b with
  | false =>
    refine ⟨_, State.recvlComplete_of_not_isCons head role m, b, e, rest, head, ?_⟩
    rw [if_pos role]
    exact State.onlyFaulted_raise _ (Inv.cur inv)
  | true =>
    refine ⟨_, State.recvlComplete_of_isCons head role m, b, e, rest, head, ?_⟩
    rw [if_neg (by simp [role])]
    exact recvl_drains inv live head role m

/-- Settles O28: after the checks of a blocking operation the byte is sent. -/
theorem sendbAppendsWaitsOrRefuses : Obligations.SendbAppendsWaitsOrRefuses := by
  unfold Obligations.SendbAppendsWaitsOrRefuses
  refine ⟨decodesAs_row (r := ⟨.mqSendb, _, _⟩) (by decide),
    fun s p q v _ waiting => State.timeoutAt_of_waits waiting rfl, fun s q v inv => ?_⟩
  simp only [← State.not_full_eq_false]
  exact blocking_whole inv fun _ live _ _ => ⟨_, rfl, sent_enqueue inv live (.byte v)⟩

/-- Settles O29: after the checks of a blocking operation the head is a byte, which is received. -/
theorem recvbRemovesTheOldestWaitsOrRefuses : Obligations.RecvbRemovesTheOldestWaitsOrRefuses := by
  unfold Obligations.RecvbRemovesTheOldestWaitsOrRefuses
  refine ⟨decodesAs_row (r := ⟨.mqRecvb, _, _⟩) (by decide),
    fun s p q _ waiting => State.timeoutAt_of_waits waiting rfl, fun s q inv => ?_⟩
  simp only [← State.nonempty_eq_false]
  refine blocking_whole inv fun ready live shape _ => ?_
  exact recvb_receives inv live shape (State.nonempty_eq_true.1 ready)

/-- Settles O30: after the checks of the queue and of its space the byte is sent. -/
theorem sendbIsrAppendsOrFails : Obligations.SendbIsrAppendsOrFails := by
  unfold Obligations.SendbIsrAppendsOrFails
  refine ⟨decodesAs_row (r := ⟨.mqSendbIsr, _, _⟩) (by decide), fun s q v inv => ?_⟩
  refine nonblocking_whole inv fun live _ => ?_
  refine check_whole (by simp [State.full]) (State.onlyAnswered_respond _ (Inv.cur inv)) fun _ => ?_
  exact ⟨_, rfl, sent_enqueue inv live (.byte v)⟩

/-- Settles O31: after the checks of the queue and of its entries the head is a byte, which is received. -/
theorem recvbIsrRemovesTheOldestOrFails : Obligations.RecvbIsrRemovesTheOldestOrFails := by
  unfold Obligations.RecvbIsrRemovesTheOldestOrFails
  refine ⟨decodesAs_row (r := ⟨.mqRecvbIsr, _, _⟩) (by decide), fun s q inv => ?_⟩
  refine nonblocking_whole inv fun live shape => ?_
  rw [← ite_not]
  refine check_whole (by simp [State.nonempty]) (State.onlyAnswered_respond _ (Inv.cur inv)) fun notEmpty => ?_
  exact recvb_receives inv live shape notEmpty

/-- Settles O32: a live queue holds at most QCAP entries, so their number fits the 16 bits of VALUE. -/
theorem pendIsrCountsTheEntries : Obligations.PendIsrCountsTheEntries := by
  unfold Obligations.PendIsrCountsTheEntries
  refine ⟨decodesAs_row (r := ⟨.mqPendIsr, _, _⟩) (by decide), fun s q inv => ?_⟩
  have hp := Inv.cur inv
  refine check_whole (by simp) (State.onlyAnswered_respond _ hp) fun live => ?_
  have bounded := Inv.fifo_length_le inv (q := q) (by simpa using live)
  obtain ⟨-, -, -, -, ⟨-, capacity⟩, -⟩ := (Inv.good inv).legal
  have count : (BitVec.ofNat 16 (s.queue q).fifo.length).toNat = (s.queue q).fifo.length :=
    (BitVec.toNat_ofNat _ _).trans (Nat.mod_eq_of_lt (by omega))
  exact ⟨_, rfl, _, State.onlyAnswered_respond _ hp, count, count.trans_le bounded⟩

/-- Settles O36: whichever of the three requests waits, the step ends its record and answers. -/
theorem timeoutEndsTheWait : Obligations.TimeoutEndsTheWait := by
  unfold Obligations.TimeoutEndsTheWait
  intro s p sched q v m _ hs waiting
  obtain ⟨w, c, hx, waits⟩ : ∃ w c, s.pend p = some w ∧ w.waits = some c := by
    obtain hx | hx | hx := waiting <;> exact ⟨_, _, hx, rfl⟩
  have hp := State.lt_of_pend (s := s) (p := p) (by simp [hx])
  refine ⟨_, step_timeout hs, ?_⟩
  rw [State.timeoutAt_of_waits (s := { s with sched := sched }) hx waits]
  exact ⟨State.pend_end _ p _, State.resps_end (s := { s with sched := sched }) hp _, by simp,
    State.unanswered_respond_same _ p _, fun _ other => State.port_end_other other _, sameBufs_of_bufs rfl rfl,
    fun _ => rfl, rfl, rfl, rfl, rfl⟩

/-- Settles O37: the record fits, so the request passes the checks of a blocking operation, and its body does the same
whoever's turn it is. -/
theorem readyWaiterCompletesAsIfIssued : Obligations.ReadyWaiterCompletesAsIfIssued := by
  unfold Obligations.ReadyWaiterCompletesAsIfIssued
  intro s p sched q v m i inv hs waiting
  rw [step_complete hs]
  have checked {w : Pend} {sh : Shape} (hx : s.pend p = some w) (waits : w.waits = some (q, sh)) :=
    (pendOk_of_waits hx waits).1 (Inv.pendOk inv p)
  obtain ⟨hx, rfl, ready⟩ | ⟨hx, rfl, space⟩ | ⟨hx, rfl, ready⟩ := waiting
  · obtain ⟨task, fault⟩ := checked hx rfl
    obtain ⟨live, shape⟩ := (State.queueFault_eq_none s q _).1 fault
    obtain ⟨b, e, rest, head⟩ := Inv.line_head inv live shape ready
    have now := State.nonempty_eq_true.2 ready
    obtain ⟨t, issued, completed⟩ := recvlComplete_withCur (s := s.released p sched) head s.cur p m
    rw [State.completeAt_recvl (s := { s with sched := sched }) hx]
    exact ⟨t, (State.blocking_of_ready (s := s.released p sched) fault task now _ _).trans issued,
      (if_pos now).trans completed⟩
  · obtain ⟨task, fault⟩ := checked hx rfl
    have notFull : ¬s.full q = true := by simpa [State.full] using space
    have now : (!s.full q) = true := by simpa using notFull
    rw [State.completeAt_sendb (s := { s with sched := sched }) hx]
    exact ⟨_, State.blocking_of_ready (s := s.released p sched) fault task now _ _, if_neg notFull⟩
  · obtain ⟨task, fault⟩ := checked hx rfl
    obtain ⟨live, shape⟩ := (State.queueFault_eq_none s q _).1 fault
    obtain ⟨v, rest, head⟩ := Inv.byte_head inv live shape ready
    have now := State.nonempty_eq_true.2 ready
    obtain ⟨t, issued, completed⟩ := recvbComplete_withCur (s := s.released p sched) head s.cur p
    rw [State.completeAt_recvb (s := { s with sched := sched }) hx]
    exact ⟨t, (State.blocking_of_ready (s := s.released p sched) fault task now _ _).trans issued,
      (if_pos now).trans completed⟩

end Sys2Proof
end

section
/-! SUPPORT. The line cursor snapshot (42_line_snapshot.md R180): what the filtered store leaves in its buffer, and that a
write cursor is kept whole by a descriptor's 16-bit end position. -/

namespace Sys2Proof.Machine

variable {s t : State} {b : Byte}

theorem SameOutside.qlive (outside : SameOutside s t) (q : Byte) : t.qlive q = s.qlive q := by
  rw [State.qlive, outside.queue, outside.cfg, State.qlive]

/-- N is at most 2^16, so a write cursor fits the end position of a descriptor (R21, R27). -/
theorem Good.toNat_ofNat_wc (good : Good s) (hb : b.toNat < s.cfg.nb) : (BitVec.ofNat 16 (s.wc b)).toNat = s.wc b := by
  obtain ⟨⟨-, width⟩, -⟩ := good.legal
  have capacity : s.cfg.n ≤ 2 ^ 16 := Nat.pow_le_pow_right (by decide) width
  have ok := good.buf hb
  simp only [State.bufOk, Bool.and_eq_true, decide_eq_true_eq] at ok
  obtain ⟨⟨⟨below, -⟩, -⟩, -⟩ := ok
  exact (BitVec.toNat_ofNat _ _).trans (Nat.mod_eq_of_lt (below.trans_le capacity))

/-- A filtered store leaves its buffer as it was or stores the byte, as the byte is one of IGN or not (R100, R107). -/
theorem filtered_buffer (inv : s.Inv) (hb : b.toNat < s.cfg.nb) (v : Byte) :
    if v ∈ [0x0A#8, 0x20#8, 0x09#8, 0x00#8] then SameBuf s (s.storeFiltered b v) b
    else StoredByte s (s.storeFiltered b v) b v := by
  by_cases ignored : isIgnored v = true
  · have unstored : s.storeFiltered b v = s := if_pos ignored
    rw [if_pos ((ign_iff v).1 ignored), unstored]
    exact ⟨rfl, rfl, fun _ => rfl⟩
  · rw [if_neg (mt (ign_iff v).2 ignored)]
    exact storedByte inv hb (by simpa using ignored)

end Sys2Proof.Machine

namespace Sys2Proof

open Machine

/-- Settles O24: after the producer's checks the filtered store, then nothing more, or the snapshot sent or lost; the store
leaves the queues alone, so the queue's checks are the same before and after it. -/
theorem pushlStoresAndSendsTheSnapshot : Obligations.PushlStoresAndSendsTheSnapshot := by
  unfold Obligations.PushlStoresAndSendsTheSnapshot
  refine ⟨decodesAs_row (r := ⟨.rbPushl, _, _⟩) (by decide), fun s b q v inv => producer_whole inv fun hb role => ?_⟩
  have hp := Inv.cur inv
  have outside := filtered_outside s b v
  have buffer := filtered_buffer inv hb v
  have others := filtered_other s b v
  have model : SameModel s (s.storeFiltered b v) := ⟨outside.cfg, outside.cur, outside.sched⟩
  have draws := filtered_draws s b v
  by_cases plain : v ≠ s.cfg.lineTerm
  · rw [if_neg plain, if_pos plain]
    exact ⟨buffer, others, outside.status, model, draws, outside.queue, answered_after outside _ hp⟩
  rw [if_pos (not_not.1 plain), if_neg plain]
  have snapshot := (s.storeFiltered b v).sendSnapshot_cases s.cur b q
  simp only [outside.qlive, outside.queue, outside.cfg] at snapshot
  obtain ⟨accepted, sent⟩ | ⟨refused, c, lost⟩ := snapshot
  · have stored : Good (s.storeFiltered b v) := (ForPort.storeFiltered role v).good (Inv.good inv)
    have live : q.toNat < (s.storeFiltered b v).queues.length := by
      rw [outside.queues]
      exact Inv.qidx inv accepted.1
    rw [sent, if_pos accepted]
    refine ⟨buffer, others, outside.status, model, draws, ⟨_, ?_, stored.toNat_ofNat_wc (by rwa [outside.cfg])⟩,
      fun q' other => (State.queue_enqueue_other _ _ other).trans (outside.queue q'),
      answered_of_ports outside.ports _ hp⟩
    exact (State.queue_enqueue_same _ live).trans (by rw [outside.queue])
  · rw [lost, if_neg refused]
    exact ⟨buffer, others, outside.status, model, draws, outside.queue, c, answered_after outside _ hp⟩

end Sys2Proof
end

section
/-! SUPPORT. STATUS as SYS.STATUS reads it (10_state.md R29, 43_control.md R190). -/

namespace Sys2Proof.Machine

/-- Bits 15:4 read as 0 in every state, since the read masks them. -/
theorem State.statusValue_reserved (s : State) : s.statusValue.extractLsb' 4 12 = 0 := by
  have masked : statusImplemented.extractLsb' 4 12 = 0 := by decide
  rw [State.statusValue, BitVec.extractLsb'_and, masked]
  exact BitVec.and_zero

/-- Where STATUS's reserved bits are 0, the mask of the read drops nothing. -/
theorem Good.statusValue {s : State} (good : Good s) : s.statusValue = s.status := by
  have everyBit : statusImplemented ||| 0xFFF0 = BitVec.allOnes 16 := by decide
  calc s.status &&& statusImplemented
    _ = (s.status &&& statusImplemented) ||| (s.status &&& 0xFFF0) := by rw [good.st]; exact BitVec.or_zero.symm
    _ = s.status &&& (statusImplemented ||| 0xFFF0) := BitVec.and_or_distrib_left.symm
    _ = s.status := by rw [everyBit, BitVec.and_allOnes]

end Sys2Proof.Machine

namespace Sys2Proof

open Machine

/-- Settles O34: the request is answered with the masked STATUS, and the invariant makes the masked bits 0. -/
theorem sysStatusReadsTheStickyBits : Obligations.SysStatusReadsTheStickyBits := by
  unfold Obligations.SysStatusReadsTheStickyBits
  exact ⟨decodesAs_row (r := ⟨.sysStatus, _, _⟩) (by decide), fun s inv =>
    ⟨_, _, rfl, State.onlyAnswered_respond _ (Inv.cur inv), (Inv.good inv).statusValue, s.statusValue_reserved⟩⟩

end Sys2Proof
end

section
/-! SUPPORT. How the step of an operation ends, seen from its answer (60_exceptions.md R200 to R207), and the steps of
the block from a state that meets the invariant, none of which stops it (R204). -/

namespace Sys2Proof.Machine

variable {i : Instr} {s t u : State} {p : Nat} {q b : Byte} {e : Half}

/-! ### How an operation ends -/

theorem ctxv_of_status (status : t.status = s.status) : t.status.getLsbD 2 = s.status.getLsbD 2 := by rw [status]

/-- How the step of operation `i` ends for the port that issued it: a Fail or a fault with nothing else changed, where
only an operation that may wait raises CTX_VIOL (R207); an Ok; a Fail of one of the three operations R200 excepts; or a
record and no answer (R31). Beside the fault, no way to end touches STATUS.CTXV. -/
inductive Exit (i : Instr) (s t : State) : Prop
  | failed {c : Cause} {v : Half} (alone : OnlyAnswered s t s.cur ⟨.fail c, v, []⟩)
  | faulted {f : FaultCode} (context : f = .ctxViol → i.opcode ∈ [Opcode.mqRecvl, .mqSendb, .mqRecvb])
      (alone : OnlyFaulted s t s.cur f)
  | served {v : Half} {d : List Byte} (status : t.status = s.status) (answered : Answered s t s.cur ⟨.ok, v, d⟩)
  | lost {c : Cause} {v : Half} (excepted : i.opcode ∈ [Opcode.mqInit, .mqRecvl, .rbPushl])
      (ctxv : t.status.getLsbD 2 = s.status.getLsbD 2) (answered : Answered s t s.cur ⟨.fail c, v, []⟩)
  | recorded (status : t.status = s.status) (silent : t.resps s.cur = s.resps s.cur)

/-- The operation's outcome `r` is a next state, and a way to end. -/
abbrev Exits (i : Instr) (s : State) (r : Result) : Prop := ∃ t, r = .next t ∧ Exit i s t

theorem Exit.fail (inv : s.Inv) {c : Cause} {v : Half} : Exit i s (s.fail s.cur c v) :=
  .failed (State.onlyAnswered_respond _ (Inv.cur inv))

/-- An Ok after a change that leaves the ports and STATUS alone. -/
theorem Exit.ok (inv : s.Inv) (ports : u.ports = s.ports) (status : u.status = s.status) {v : Half} {d : List Byte} :
    Exit i s (u.ok s.cur v d) :=
  .served status (answered_of_ports ports _ (Inv.cur inv))

/-- A ROLE_VIOL, which any operation with a role check may raise (R105). -/
theorem Exit.roleViol (alone : OnlyFaulted s t s.cur .roleViol) : Exit i s t := .faulted (f := .roleViol) nofun alone

theorem Exit.wait (x : Pend) : Exit i s (s.setPend s.cur (some x)) :=
  .recorded rfl (State.resps_setPend s _ _ _)

/-! ### The shared checks -/

theorem exits_asProducer (inv : s.Inv) {k : State} (body : b.toNat < s.cfg.nb → s.isProd s.cur b = true → Exit i s k) :
    Exits i s (s.asProducer b k) := by
  obtain ⟨t, next, outcome⟩ := producer_whole inv body
  refine ⟨t, next, ?_⟩
  split_ifs at outcome
  · exact .failed outcome
  · exact .roleViol outcome
  · exact outcome

theorem exits_asConsumer (inv : s.Inv) {k : State} (body : b.toNat < s.cfg.nb → s.isCons s.cur b = true → Exit i s k) :
    Exits i s (s.asConsumer b k) := by
  obtain ⟨t, next, outcome⟩ := consumer_whole inv body
  refine ⟨t, next, ?_⟩
  split_ifs at outcome
  · exact .failed outcome
  · exact .roleViol outcome
  · exact outcome

theorem exits_blocking (inv : s.Inv) {sh : Shape} {ready : Bool} {record : Pend} {body : Result}
    (blocks : i.opcode ∈ [Opcode.mqRecvl, .mqSendb, .mqRecvb])
    (complete : ready = true → s.qlive q = true → (s.queue q).shape = some sh → s.isIsr s.cur = false →
      Exits i s body) : Exits i s (s.blocking q sh ready record body) := by
  obtain ⟨t, next, outcome⟩ := blocking_whole (rec := record) inv complete
  refine ⟨t, next, ?_⟩
  split_ifs at outcome
  · exact .failed outcome
  · exact .failed outcome
  · exact .faulted (fun _ => blocks) outcome
  · obtain ⟨-, silent, -, -, -, -, status, -⟩ := outcome
    exact .recorded status silent
  · exact outcome

/-! ### The operations -/

/-- A message that is not too long is recorded, or written and its length answered; one of no bytes changes nothing and
fails (R102). -/
theorem exits_execRbWm (inv : s.Inv) (b : Byte) (data : List Byte) : Exits i s (execRbWm b data s) := by
  refine exits_asProducer inv fun hb _ => ?_
  split_ifs with long atomic
  · exact .fail inv
  · have outside := SameOutside.writeMessage s b data
    have answered (r : Response) := answered_after outside r (Inv.cur inv)
    rw [← State.writeMessage]
    by_cases empty : data = []
    · subst empty
      exact .failed ⟨answered _, sameBufs_writeMessage_nil inv hb, outside.queue, outside.status,
        ⟨outside.cfg, outside.cur, outside.sched⟩, State.draws_writeMessage s b []⟩
    · rw [countResponse, if_neg (by simpa using empty)]
      exact .served outside.status (answered _)
  · exact .wait _

/-- A drain is recorded, or copies nothing and fails, or answers what it copied (R103). -/
theorem exits_execRbRm (inv : s.Inv) (b : Byte) (e m : Half) : Exits i s (execRbRm b e m s) := by
  refine exits_asConsumer inv fun hb _ => ?_
  obtain ⟨present, -, below, -⟩ := Inv.buf inv hb
  by_cases isSplit : s.cfg.atomicMultibyte = false
  · rw [State.startDrain, if_neg (by simp [isSplit])]
    exact .wait _
  have drain := drain_atomic (e := e) (m := m) .rm present below (Inv.cur inv) (by simpa using isSplit)
  by_cases zero : min e.toNat (min m.toNat s.cfg.n) = 0
  · rw [if_pos zero] at drain
    rw [drain]
    exact .fail inv
  · rw [if_neg zero] at drain
    obtain ⟨out, -, -, -, -, status, -, answered⟩ := drain
    exact .served status answered

theorem exits_execRbPushl (inv : s.Inv) (b q v : Byte) : Exits (.rbPushl b q v) s (execRbPushl b q v s) := by
  refine exits_asProducer inv fun _ _ => ?_
  have outside := filtered_outside s b v
  split
  · obtain ⟨-, sent⟩ | ⟨-, c, lost⟩ := (s.storeFiltered b v).sendSnapshot_cases s.cur b q
    · rw [sent]
      exact .ok (u := State.enqueue _ q _) inv outside.ports outside.status
    · rw [lost]
      exact .lost (by simp [Instr.opcode]) (ctxv_of_status outside.status) (answered_after outside _ (Inv.cur inv))
  · exact .ok inv outside.ports outside.status

/-- MQ.INIT that meets a created queue sets DBLINIT and fails, whatever queues it has created (R143, R200). -/
theorem exits_execMqInit (inv : s.Inv) : Exits .mqInit s (execMqInit s) := by
  obtain ⟨-, sized, -⟩ := (Inv.good inv).sized
  obtain ⟨-, -, ports, -, -, -, -, -, -, -, status⟩ := initAll_spec s sized
  by_cases met : (initAll s).dbl = true
  · rw [if_pos met] at status
    refine ⟨_, if_pos met, .lost (by simp [Instr.opcode]) ?_ (answered_of_ports ports _ (Inv.cur inv))⟩
    show (initAll s).st.status.getLsbD 2 = _
    rw [status, BitVec.getLsbD_or, statusDblinit]
    simp
  · rw [if_neg met] at status
    exact ⟨_, if_neg met, .ok inv ports status⟩

theorem exits_execMqSendlIsr (inv : s.Inv) (q b : Byte) (e : Half) : Exits i s (execMqSendlIsr q b e s) := by
  unfold execMqSendlIsr
  split_ifs
  · exact ⟨_, rfl, .fail inv⟩
  · exact ⟨_, rfl, .fail inv⟩
  · exact ⟨_, rfl, .fail inv⟩
  · exact ⟨_, rfl, .fail inv⟩
  · exact ⟨_, rfl, .ok (u := s.enqueue q _) inv rfl rfl⟩

/-- MQ.RECVL's completion at its issue: the head's descriptor faults and stays, or is dequeued and drained (R145). -/
theorem exits_recvlComplete (inv : s.Inv) (live : s.qlive q = true) (shape : (s.queue q).shape = some .line)
    (notEmpty : (s.queue q).fifo ≠ []) (m : Half) : Exits (.mqRecvl q m) s (s.recvlComplete s.cur q m) := by
  obtain ⟨b, e, rest, head⟩ := Inv.line_head inv live shape notEmpty
  cases role : s.isCons s.cur b with
  | false =>
    exact ⟨_, State.recvlComplete_of_not_isCons head role m, .roleViol (State.onlyFaulted_raise _ (Inv.cur inv))⟩
  | true =>
    refine ⟨_, State.recvlComplete_of_isCons head role m, ?_⟩
    obtain ⟨-, -, status, -, -, outcome⟩ := recvl_drains inv live head role m
    split_ifs at outcome
    · obtain ⟨-, -, silent, -⟩ := outcome
      exact .recorded status silent
    · obtain ⟨-, -, answered⟩ := outcome
      exact .lost (by simp [Instr.opcode]) (ctxv_of_status status) answered
    · obtain ⟨out, -, -, answered⟩ := outcome
      exact .served status answered

/-- The completion of MQ.RECVB at its issue, and the effect of MQ.RECVB.ISR (R147, R149). -/
theorem exits_recvbComplete (inv : s.Inv) (live : s.qlive q = true) (shape : (s.queue q).shape = some .byte)
    (notEmpty : (s.queue q).fifo ≠ []) : Exits i s (s.recvbComplete s.cur q) := by
  obtain ⟨v, rest, head⟩ := Inv.byte_head inv live shape notEmpty
  exact ⟨_, State.recvbComplete_of_cons head _, .ok (u := s.dropHead q) inv rfl rfl⟩

theorem exits_execMqSendbIsr (inv : s.Inv) (q v : Byte) : Exits i s (execMqSendbIsr q v s) := by
  unfold execMqSendbIsr
  split
  · exact ⟨_, rfl, .fail inv⟩
  · split
    · exact ⟨_, rfl, .fail inv⟩
    · exact ⟨_, rfl, .ok (u := s.enqueue q _) inv rfl rfl⟩

theorem exits_execMqRecvbIsr (inv : s.Inv) (q : Byte) : Exits i s (execMqRecvbIsr q s) := by
  unfold execMqRecvbIsr
  split
  · exact ⟨_, rfl, .fail inv⟩
  next fault =>
    obtain ⟨live, shape⟩ := (State.queueFault_eq_none s q .byte).1 fault
    split
    next ready => exact exits_recvbComplete inv live shape (State.nonempty_eq_true.1 ready)
    · exact ⟨_, rfl, .fail inv⟩

/-- In a state that meets the invariant every operation ends its step in one of these ways. -/
theorem exits_exec (inv : s.Inv) (i : Instr) : Exits i s (exec i s) := by
  cases i with
  | rbWb b v =>
    have outside := filtered_outside s b v
    exact exits_asProducer inv fun _ _ => .ok inv outside.ports outside.status
  | rbRb b =>
    have outside := SameOutside.copyOne s (s.newCopy b 0 0)
    exact exits_asConsumer inv fun _ _ => .ok inv outside.ports outside.status
  | rbWm b data => exact exits_execRbWm inv b data
  | rbRm b e m => exact exits_execRbRm inv b e m
  | rbEmpty b =>
    show Exits _ s (if _ then _ else _)
    split
    · exact ⟨_, rfl, .fail inv⟩
    · exact ⟨_, rfl, .ok inv rfl rfl⟩
  | rbPushl b q v => exact exits_execRbPushl inv b q v
  | mqInit => exact exits_execMqInit inv
  | mqSendlIsr q b e => exact exits_execMqSendlIsr inv q b e
  | mqRecvl q m =>
    exact exits_blocking inv (by simp [Instr.opcode]) fun ready live shape _ =>
      exits_recvlComplete inv live shape (State.nonempty_eq_true.1 ready) m
  | mqSendb q v =>
    exact exits_blocking inv (by simp [Instr.opcode]) fun _ _ _ _ => ⟨_, rfl, .ok (u := s.enqueue q _) inv rfl rfl⟩
  | mqRecvb q =>
    exact exits_blocking inv (by simp [Instr.opcode]) fun ready live shape _ =>
      exits_recvbComplete inv live shape (State.nonempty_eq_true.1 ready)
  | mqSendbIsr q v => exact exits_execMqSendbIsr inv q v
  | mqRecvbIsr q => exact exits_execMqRecvbIsr inv q
  | mqPendIsr q =>
    show Exits _ s (if _ then _ else _)
    split
    · exact ⟨_, rfl, .fail inv⟩
    · exact ⟨_, rfl, .ok inv rfl rfl⟩
  | sysStatus => exact ⟨_, rfl, .ok inv rfl rfl⟩

theorem exit_of_exec (inv : s.Inv) (h : exec i s = .next t) : Exit i s t := by
  obtain ⟨t', next, exit⟩ := exits_exec inv i
  exact Host.Outcome.next.inj (next.symm.trans h) ▸ exit

/-! ### What an answer tells of the way to end -/

theorem Answered.resps {r : Response} (h : Answered s t p r) : t.resps p = s.resps p ++ [r] := h.1

theorem OnlyAnswered.resps {r : Response} (h : OnlyAnswered s t p r) : t.resps p = s.resps p ++ [r] := h.1.resps

theorem OnlyFaulted.resps {f : FaultCode} (h : OnlyFaulted s t p f) :
    t.resps p = s.resps p ++ [⟨.fault f, 0, []⟩] := h.1.resps

/-- A port whose responses grew by one got that one response. -/
theorem response_eq {l l' : List Response} {r r' : Response} (h : l' = l ++ [r]) (h' : l' = l ++ [r']) : r = r' := by
  simpa using h.symm.trans h'

theorem not_silent {l l' : List Response} {r : Response} (h : l' = l ++ [r]) : l' ≠ l := by
  simp [h]

/-- Only an operation R200 excepts changes anything before it fails. -/
theorem Exit.onlyAnswered_of_fail {c : Cause} {v : Half} {d : List Byte} (exit : Exit i s t)
    (kept : i.opcode ∉ [Opcode.mqInit, .mqRecvl, .rbPushl]) (got : t.resps s.cur = s.resps s.cur ++ [⟨.fail c, v, d⟩]) :
    OnlyAnswered s t s.cur ⟨.fail c, v, []⟩ := by
  cases exit with
  | failed alone =>
    cases response_eq got alone.resps
    exact alone
  | faulted _ alone => cases response_eq got alone.resps
  | served _ answered => cases response_eq got answered.resps
  | lost excepted => exact absurd excepted kept
  | recorded _ silent => exact absurd silent (not_silent got)

theorem Exit.onlyFaulted_of_fault {f : FaultCode} {v : Half} {d : List Byte} (exit : Exit i s t)
    (got : t.resps s.cur = s.resps s.cur ++ [⟨.fault f, v, d⟩]) : OnlyFaulted s t s.cur f := by
  cases exit with
  | failed alone => cases response_eq got alone.resps
  | faulted _ alone =>
    cases response_eq got alone.resps
    exact alone
  | served _ answered => cases response_eq got answered.resps
  | lost _ _ answered => cases response_eq got answered.resps
  | recorded _ silent => exact absurd silent (not_silent got)

/-- No fault but CTX_VIOL has STATUS bit 2 (R29, R202). -/
theorem statusBit_ctxv {f : FaultCode} (other : f ≠ .ctxViol) : f.statusBit.getLsbD 2 = false := by
  cases f with
  | illegalOp => rfl
  | ctxViol => exact absurd rfl other
  | roleViol => rfl

/-- An operation that never waits neither sets STATUS.CTXV nor answers CTX_VIOL (R207). -/
theorem Exit.keeps_ctxv (exit : Exit i s t) (neverWaits : i.opcode ∉ [Opcode.mqRecvl, .mqSendb, .mqRecvb]) :
    t.status.getLsbD 2 = s.status.getLsbD 2 ∧
      ∀ r, t.resps s.cur = s.resps s.cur ++ [r] → r.ending ≠ .fault .ctxViol := by
  cases exit with
  | failed alone =>
    obtain ⟨-, -, -, status, -⟩ := id alone
    exact ⟨ctxv_of_status status, fun r got => response_eq alone.resps got ▸ nofun⟩
  | @faulted f context alone =>
    obtain ⟨-, -, -, status, -⟩ := id alone
    have other : f ≠ .ctxViol := mt context neverWaits
    refine ⟨?_, fun r got => ?_⟩
    · rw [status, BitVec.getLsbD_or, statusBit_ctxv other, Bool.or_false]
    · rw [← response_eq alone.resps got]
      exact fun same => other (Ending.fault.inj same)
  | served status answered => exact ⟨ctxv_of_status status, fun r got => response_eq answered.resps got ▸ nofun⟩
  | lost _ ctxv answered => exact ⟨ctxv, fun r got => response_eq answered.resps got ▸ nofun⟩
  | recorded status silent => exact ⟨ctxv_of_status status, fun r got => absurd silent (not_silent got)⟩

/-! ### A blocking operation from an ISR port -/

/-- Invalid input comes before the context (R203). -/
theorem State.blocking_of_fault {sh : Shape} {c : Cause} (fault : s.queueFault q sh = some c) (ready : Bool)
    (record : Pend) (body : Result) : s.blocking q sh ready record body = .next (s.fail s.cur c 0) := by
  simp only [State.blocking, fault]

/-- The context comes before readiness (R151, R207). -/
theorem State.blocking_of_isIsr {sh : Shape} (fault : s.queueFault q sh = none) (isr : s.isIsr s.cur = true)
    (ready : Bool) (record : Pend) (body : Result) : s.blocking q sh ready record body = .next (s.raise s.cur .ctxViol) := by
  simp only [State.blocking, fault, if_pos isr]

theorem getLsbD_raise_ctxViol (s : State) (p : Nat) : (s.raise p .ctxViol).status.getLsbD 2 = true := by
  show (s.status ||| 0x0004).getLsbD 2 = true
  rw [BitVec.getLsbD_or]
  simp

/-! ### Every step goes on -/

/-- A free port may issue: the state in which its request is performed meets the invariant (R208). -/
theorem Inv.issuing (inv : s.Inv) (hp : p < s.ports.length) (free : s.pend p = none) (rest : List Request) :
    (s.issuing p rest).Inv := by
  obtain ⟨-, ⟨-, -, ports⟩, -⟩ := id inv
  exact (ForPort.issuing p s rest).inv inv (ports ▸ hp) (State.pendOk_of_none ((s.pend_issuing p p rest).trans free))

theorem issueAt_next (inv : s.Inv) (p : Nat) : ∃ t, (s.issueAt p).run = .next t := by
  unfold State.issueAt
  split
  next r rest free todo =>
    simp only [State.issue]
    split
    next i _ =>
      obtain ⟨t, next, -⟩ := exits_exec (Inv.issuing inv (State.lt_of_todo todo) free rest) i
      exact ⟨t, next⟩
    · exact ⟨_, rfl⟩
  · exact ⟨_, rfl⟩

/-- With a descriptor at the queue's head RECVL_COMPLETE goes on, to its fault or to its drain (R145). -/
theorem recvlComplete_next {rest : List Entry} (head : (s.queue q).fifo = .line b e :: rest) (p : Nat) (m : Half) :
    ∃ t, s.recvlComplete p q m = .next t := by
  cases role : s.isCons p b with
  | false => exact ⟨_, State.recvlComplete_of_not_isCons head role m⟩
  | true => exact ⟨_, State.recvlComplete_of_isCons head role m⟩

/-- A request waits on a live queue of its shape, so the head it finds when it completes has that shape (R27, R31). -/
theorem completeAt_next (inv : s.Inv) (p : Nat) : ∃ t, s.completeAt p = .next t := by
  have checked {w : Pend} {q : Byte} {sh : Shape} (hx : s.pend p = some w) (waits : w.waits = some (q, sh)) :=
    (State.queueFault_eq_none s q sh).1 ((pendOk_of_waits hx waits).1 (Inv.pendOk inv p)).2
  unfold State.completeAt
  split
  next q m hx =>
    split
    next ready =>
      obtain ⟨live, shape⟩ := checked hx rfl
      obtain ⟨b, e, rest, head⟩ := Inv.line_head inv live shape (State.nonempty_eq_true.1 ready)
      exact recvlComplete_next (s := s.setPend p none) head p m
    · exact ⟨_, rfl⟩
  next => split <;> exact ⟨_, rfl⟩
  next q hx =>
    split
    next ready =>
      obtain ⟨live, shape⟩ := checked hx rfl
      obtain ⟨v, rest, head⟩ := Inv.byte_head inv live shape (State.nonempty_eq_true.1 ready)
      exact ⟨_, State.recvbComplete_of_cons (s := s.setPend p none) head p⟩
    · exact ⟨_, rfl⟩
  · exact ⟨_, rfl⟩

theorem step_next (inv : s.Inv) : ∃ t, step s = .next t := by
  rw [step_eq_run]
  unfold State.fetch
  split
  · exact ⟨_, rfl⟩
  next c rest _ =>
    have taken : State.Inv { s with sched := rest } := inv
    cases c with
    | issue p => exact issueAt_next taken p
    | complete p => exact completeAt_next taken p
    | timeout p => exact ⟨_, rfl⟩
    | advance p => exact ⟨_, rfl⟩
    | reset => exact ⟨_, rfl⟩

/-- A port whose request is outstanding has its turn to issue passed over (R208). -/
theorem State.issueAt_of_busy {x : Pend} (busy : s.pend p = some x) : s.issueAt p = .settled (.next s) := by
  simp only [State.issueAt, busy]

end Sys2Proof.Machine

namespace Sys2Proof

open Machine

/-- Settles O48: an operation ends in a next state, a waiting request finds an entry of its queue's shape, and the other
steps cannot stop. -/
theorem theBlockNeverStops : Obligations.TheBlockNeverStops := by
  unfold Obligations.TheBlockNeverStops
  exact fun _ inv => step_next inv

/-- Settles O33: an ISR port passes the input's checks and is stopped at its context, and no operation without that
check ends in CTX_VIOL. -/
theorem onlyBlockingFromIsrRaisesCtxViol : Obligations.OnlyBlockingFromIsrRaisesCtxViol := by
  unfold Obligations.OnlyBlockingFromIsrRaisesCtxViol
  intro s q v m inv isr
  refine ⟨fun x hx => ?_, fun i neverWaits => ?_⟩
  · obtain ⟨ready, record, body, checks⟩ :
        ∃ ready record body, exec x.1 s = s.blocking q x.2 ready record body := by
      simp only [List.mem_cons, List.not_mem_nil, or_false] at hx
      obtain rfl | rfl | rfl := hx <;> exact ⟨_, _, _, rfl⟩
    rw [checks]
    cases fault : s.queueFault q x.2 with
    | none =>
      exact ⟨State.blocking_of_isIsr fault isr _ _ _, State.onlyFaulted_raise _ (Inv.cur inv),
        getLsbD_raise_ctxViol s s.cur⟩
    | some c => exact ⟨State.blocking_of_fault fault _ _ _, State.onlyAnswered_respond _ (Inv.cur inv)⟩
  · obtain ⟨t, next, exit⟩ := exits_exec inv i
    exact ⟨t, next, exit.keeps_ctxv neverWaits⟩

/-- Settles O56, from the ways an operation can end. -/
theorem failChangesNothingElse : Obligations.FailChangesNothingElse := by
  unfold Obligations.FailChangesNothingElse
  exact fun _ _ _ _ _ _ inv kept next got => (exit_of_exec inv next).onlyAnswered_of_fail kept got

/-- Settles O57, from the ways an operation can end. -/
theorem faultChangesOnlyStatus : Obligations.FaultChangesOnlyStatus := by
  unfold Obligations.FaultChangesOnlyStatus
  exact fun _ _ _ _ _ _ inv next got => (exit_of_exec inv next).onlyFaulted_of_fault got

/-- Settles O14: the choice is taken off the schedule and passed over. -/
theorem outstandingPortIssuesNothing : Obligations.OutstandingPortIssuesNothing := by
  unfold Obligations.OutstandingPortIssuesNothing
  intro s p sched x turn busy
  have passed := State.issueAt_of_busy (s := { s with sched := sched }) busy
  rw [step_eq_run, State.fetch, turn]
  exact congrArg Fetched.run passed

end Sys2Proof
end

section
/-! SUPPORT. The fill of a buffer at its ends (10_state.md R25, 70_reset_and_hazards.md R235, R236), the reset event (R230),
and a port with nothing outstanding or still to issue, of which the end of a run speaks (R247). -/

namespace Sys2Proof.Machine

variable {G : Prop} {p p' : Nat} {s t : State} {b : Byte}

/-! ### The fill -/

theorem Good.wc_lt (good : Good s) (hb : b.toNat < s.cfg.nb) : s.wc b < s.cfg.n := by
  have := good.buf hb
  simp only [State.bufOk, Bool.and_eq_true, decide_eq_true_eq] at this
  obtain ⟨⟨⟨cursor, -⟩, -⟩, -⟩ := this
  exact cursor

/-- A legal cursor is at least one bit wide, so a buffer has at least two cells (R7). -/
theorem Config.one_lt_n {c : Config} (legal : c.Legal) : 1 < c.n := by
  obtain ⟨⟨width, -⟩, -⟩ := legal
  exact Nat.one_lt_two_pow (by omega)

/-- The fill is 0 exactly when the cursors are equal, so a lapped buffer cannot be told from an empty one (R25). -/
theorem Good.fill_eq_zero_iff (good : Good s) (hb : b.toNat < s.cfg.nb) : s.fill b = 0 ↔ s.wc b = s.rc b := by
  have wc := good.wc_lt hb
  have rc := good.rc_lt hb
  rw [State.fill, Nat.mod_eq_of_lt rc]
  by_cases ahead : s.rc b ≤ s.wc b
  · have wrapped : s.wc b + (s.cfg.n - s.rc b) = s.wc b - s.rc b + s.cfg.n := by omega
    rw [wrapped, Nat.add_mod_right, Nat.mod_eq_of_lt (by omega)]
    omega
  · rw [Nat.mod_eq_of_lt (by omega)]
    omega

/-- A write cursor that advances by one makes the fill one more, modulo N. -/
theorem fill_of_wc_succ (cfg : t.cfg = s.cfg) (wc : t.wc b = (s.wc b + 1) % s.cfg.n) (rc : t.rc b = s.rc b) :
    t.fill b = (s.fill b + 1) % s.cfg.n := by
  rw [State.fill, State.fill, cfg, wc, rc, Nat.mod_add_mod, Nat.mod_add_mod, Nat.add_right_comm]

/-- A read cursor that advances by one makes the fill one less, modulo N. -/
theorem Good.fill_of_rc_succ (good : Good s) (hb : b.toNat < s.cfg.nb) (cfg : t.cfg = s.cfg) (wc : t.wc b = s.wc b)
    (rc : t.rc b = (s.rc b + 1) % s.cfg.n) : t.fill b = (s.fill b + (s.cfg.n - 1)) % s.cfg.n := by
  have below := good.rc_lt hb
  rw [State.fill, State.fill, cfg, wc, rc, Nat.mod_mod, Nat.mod_add_mod, Nat.mod_eq_of_lt below]
  by_cases last : s.rc b + 1 = s.cfg.n
  · rw [last, Nat.mod_self]
    congr 1
    omega
  · have wrapped : s.wc b + (s.cfg.n - s.rc b) + (s.cfg.n - 1) = s.wc b + (s.cfg.n - (s.rc b + 1)) + s.cfg.n := by
      omega
    have unwrapped : (s.rc b + 1) % s.cfg.n = s.rc b + 1 := Nat.mod_eq_of_lt (by omega)
    rw [unwrapped, wrapped, Nat.add_mod_right]

theorem execRbEmpty_of_empty (hb : b.toNat < s.cfg.nb) (empty : s.wc b = s.rc b) :
    execRbEmpty b s = .next (s.ok s.cur 1 []) := by
  rw [execRbEmpty_of_valid hb, if_pos empty]

/-! ### Reset -/

theorem step_reset {sched : List Choice} (hs : s.sched = .reset :: sched) :
    step s = .next (State.blockReset { s with sched := sched }) := by
  rw [step_eq_run, State.fetch, hs]; rfl

/-- Reset takes a port's record and leaves the port's own fields (R230). -/
theorem State.port_blockReset (s : State) (p : Nat) : s.blockReset.port p = { s.port p with pend := none } := by
  simp only [State.port, State.blockReset, List.getD_eq_getElem?_getD, List.getElem?_map]
  cases s.ports[p]? <;> rfl

/-! ### What a turn leaves of the ports -/

theorem Ends.port_other (e : Ends G p s t) (hp : p' ≠ p) : t.port p' = s.port p' := by
  cases e with
  | answered effect => rw [State.port_respond_other _ _ hp, State.port, effect.ports, State.port]
  | recorded effect => rw [State.port_setPend_other _ _ hp, State.port, effect.ports, State.port]

/-- A turn leaves every other port as it was. -/
theorem Turn.port_other (e : Turn p s t) (hp : p' ≠ p) : t.port p' = s.port p' := by
  cases e with
  | idle => rfl
  | issued _ _ ends => exact (ends.port_other hp).trans (State.port_issuing_other hp _)
  | settled _ ends => exact (ends.port_other hp).trans (State.port_setPend_other s none hp)
  | advanced _ effect => rw [State.port_setPend_other _ _ hp, State.port, effect.ports, State.port]

/-- A turn of a port with nothing outstanding or still to issue is idle. -/
theorem Turn.eq_of_done (e : Turn p s t) (free : s.pend p = none) (done : (s.port p).todo = []) : t = s := by
  cases e with
  | idle => rfl
  | issued _ todo => rw [done] at todo; cases todo
  | settled busy => exact absurd free busy
  | advanced busy => exact absurd free busy

/-- No step touches a port with nothing outstanding or still to issue: its note stays as it is. -/
theorem step_port_of_done (h : step s = .next t) (free : s.pend p = none) (done : (s.port p).todo = []) :
    t.port p = s.port p := by
  obtain ⟨-, rfl⟩ | ⟨rest, -, rfl⟩ | ⟨-, rest, p', -, -, turn⟩ := step_cases h
  · rfl
  · rw [State.port_blockReset, ← free]; rfl
  · by_cases own : p = p'
    · subst own
      rw [turn.eq_of_done free done]
      rfl
    · exact turn.port_other own

/-! ### The end of a run -/

/-- A run has ended when no port has a request outstanding, still to issue or unanswered (R247). -/
theorem runEnded_iff :
    s.runEnded = true ↔ ∀ p, s.pend p = none ∧ (s.port p).todo = [] ∧ (s.port p).unanswered = false := by
  have inside (p : Nat) (hp : p < s.ports.length) : s.port p = s.ports[p] := by
    rw [State.port, List.getD_eq_getElem _ _ hp]
  simp only [State.runEnded, List.all_eq_true, Bool.and_eq_true, beq_iff_eq, Bool.not_eq_true', and_assoc, State.pend]
  constructor
  · intro ended p
    by_cases hp : p < s.ports.length
    · rw [inside p hp]
      exact ended _ (List.getElem_mem hp)
    · rw [State.port_of_le (by omega)]
      exact ⟨rfl, rfl, rfl⟩
  · intro ended x hx
    obtain ⟨p, hp, rfl⟩ := List.getElem_of_mem hx
    rw [← inside p hp]
    exact ended p

/-- A port without the response to its last request keeps the run from ending. -/
theorem runEnded_eq_false (unanswered : (s.port p).unanswered = true) : s.runEnded = false := by
  by_contra ended
  obtain ⟨-, -, answered⟩ := runEnded_iff.1 (Bool.eq_true_of_not_eq_false ended) p
  rw [unanswered] at answered
  cases answered

/-- No step starts an ended run again: it leaves every port as it was. -/
theorem runEnded_step (ended : s.runEnded = true) (h : step s = .next t) : t.runEnded = true := by
  refine runEnded_iff.2 fun p => ?_
  have done := runEnded_iff.1 ended p
  obtain ⟨free, todo, -⟩ := id done
  rw [State.pend, step_port_of_done h free todo]
  exact done

end Sys2Proof.Machine

namespace Sys2Proof

open Machine

/-- Settles O22: the byte advances the write cursor, so the fill N-1 becomes N modulo N, which is 0. -/
theorem lappedBufferReadsAsEmpty : Obligations.LappedBufferReadsAsEmpty := by
  unfold Obligations.LappedBufferReadsAsEmpty
  intro s b v p inv valid role stored fill hp
  have hb := valid_iff.1 valid
  have cfg := State.cfg_storeFiltered s b v
  obtain ⟨-, ⟨-, -, ports⟩, -⟩ := id inv
  obtain ⟨-, wc, rc, -⟩ := storedByte inv hb stored
  have lapped : (s.storeFiltered b v).fill b = 0 := by
    rw [fill_of_wc_succ cfg wc rc, fill, Nat.sub_add_cancel (Config.n_pos _), Nat.mod_self]
  have equal : (s.storeFiltered b v).wc b = (s.storeFiltered b v).rc b :=
    (((ForPort.storeFiltered role v).good (Inv.good inv)).fill_eq_zero_iff (by rwa [cfg])).1 lapped
  have there : p < (s.storeFiltered b v).ports.length := by rwa [(filtered_outside s b v).ports, ports]
  refine ⟨(s.storeFiltered b v).ok s.cur 1 [], _, State.asProducer_of_isProd role _, lapped,
    execRbEmpty_of_empty (s := { (s.storeFiltered b v).ok s.cur 1 [] with cur := p }) (cfg ▸ hb) equal,
    State.resps_respond_same _ ?_⟩
  simpa using there

/-- Settles O23: the read advances the read cursor, so the fill 0 becomes N-1, and N is at least 2. -/
theorem readingAnEmptyBufferFillsIt : Obligations.ReadingAnEmptyBufferFillsIt := by
  unfold Obligations.ReadingAnEmptyBufferFillsIt
  intro s b inv valid role empty
  have hb := valid_iff.1 valid
  have good := Inv.good inv
  have size := Config.one_lt_n good.legal
  have cfg := State.cfg_copyOne s (s.newCopy b 0 0)
  obtain ⟨rc, wc, -⟩ := readOn_copyOne (c := s.newCopy b 0 0) inv hb
  have full : (s.copyOne (s.newCopy b 0 0)).1.fill b = s.cfg.n - 1 := by
    rw [good.fill_of_rc_succ hb cfg wc rc, (good.fill_eq_zero_iff hb).2 empty, Nat.zero_add,
      Nat.mod_eq_of_lt (by omega)]
  have goodAfter : Good (s.copyOne (s.newCopy b 0 0)).1 :=
    (ForPort.copyOne (p := s.cur) (c := s.newCopy b 0 0) role).good good
  refine ⟨_, State.asConsumer_of_isCons role _, full, fun equal => ?_⟩
  have := (goodAfter.fill_eq_zero_iff (by rwa [cfg])).2 equal
  omega

/-- Settles O44: the step is the reset event, which clears the block and takes only the record of each port. -/
theorem resetEventClearsTheBlock : Obligations.ResetEventClearsTheBlock := by
  unfold Obligations.ResetEventClearsTheBlock
  intro s sched hs
  have clear := State.cleared_blockReset { s with sched := sched }
  have port := State.port_blockReset { s with sched := sched }
  refine ⟨_, step_reset hs, rfl, fun b => ⟨?_, ?_, clear.cell b⟩, clear.queue, clear.status,
    fun p => ⟨clear.pend p, ?_, ?_⟩⟩
  · rw [State.wc, clear.buf]; rfl
  · rw [State.rc, clear.buf]; rfl
  · rw [State.resps, port]; rfl
  · rw [port]; rfl

/-- Settles O53: in an ended run every turn is idle, and reset finds no record to drop. -/
theorem endedRunStaysEnded : Obligations.EndedRunStaysEnded := by
  unfold Obligations.EndedRunStaysEnded
  refine ⟨fun s => runEnded_iff, fun s t ended h => ⟨runEnded_step ended h, fun notReset => ?_⟩⟩
  obtain ⟨nothing, rfl⟩ | ⟨rest, hs, -⟩ | ⟨c, rest, p, hs, -, turn⟩ := step_cases h
  · cases t; cases nothing; rfl
  · exact absurd (by rw [hs]; rfl) notReset
  · obtain ⟨free, todo, -⟩ := runEnded_iff.1 ended p
    rw [turn.eq_of_done free todo, hs]; rfl

/-- Settles O54: reset takes the record and leaves the note, and no step touches a port that has nothing more to
issue. -/
theorem droppedLastRequestNeverEndsTheRun : Obligations.DroppedLastRequestNeverEndsTheRun := by
  unfold Obligations.DroppedLastRequestNeverEndsTheRun
  refine ⟨fun s p sched x noted hs busy done => ?_, fun s t p free done unanswered h => ?_⟩
  · have port := State.port_blockReset { s with sched := sched } p
    have unanswered : ((State.blockReset { s with sched := sched }).port p).unanswered = true := by
      rw [port]
      exact noted p (by rw [busy]; exact Option.some_ne_none x)
    exact ⟨_, step_reset hs, State.pend_blockReset _ p, by rw [port]; exact done, unanswered,
      runEnded_eq_false unanswered⟩
  · have same := step_port_of_done h free done
    exact ⟨same, runEnded_eq_false (by rwa [same])⟩

end Sys2Proof
end
